-- ==== Sys2Proof/Word.lean ====
section
/-! DEFINITION. The word types of the BFA: a byte, a buffer address, the 64-bit data port, and a floating-point
bit pattern together with its format (00_scope.md R6, R14). -/

namespace Sys2Proof

/-- One byte of the buffer memory (R11, R40). -/
abbrev Byte := BitVec 8

/-- A buffer address; `ADDR_W` is 64 bits (R6). -/
abbrev Addr := BitVec 64

/-- The data ports `wdata` and `rsp.rdata`; `DATA_W` is 64 bits (R6). -/
abbrev Word := BitVec 64

/-- A floating-point value of one of the two formats of R14, as its bit pattern (`asF32`, `asF64`). -/
inductive FloatVal where
  | f32 (bits : BitVec 32)
  | f64 (bits : BitVec 64)
  deriving DecidableEq, Repr

end Sys2Proof
end

