-- ==== Sys2Proof/Syntax.lean ====
section
/-! DEFINITION. The command set BFA-CMD (30_encoding.md): the raw request on the command port, the type tags, and
the nineteen commands with the operands each reads. -/

namespace Sys2Proof

/-- What the requester presents on the command port: the command word and the six operand ports (R60, R64). -/
structure Request where
  cmd     : BitVec 32
  opStart : BitVec 32
  opWidth : BitVec 32
  opTag   : BitVec 8
  bufBase : Addr
  bufLen  : BitVec 64
  wdata   : Word
  deriving DecidableEq, Repr

/-- The six type tags of R66, by their short names. -/
inductive Tag where
  | ile | ule | ibe | ube | fle | fbe
  deriving DecidableEq, Repr

/-- The nineteen commands of R63, one constructor per row of opcode_table.json. A constructor carries the values of
the operand ports that R64 marks for the command, in the order of the assembler syntax R69. -/
inductive Instr where
  /-- `CFG start, width, tag` (R140). -/
  | cfg (start width : BitVec 32) (tag : BitVec 8)
  /-- `RD.U64 base, len` (R170). -/
  | rdU64 (base : Addr) (len : BitVec 64)
  /-- `RD.I64 base, len` (R171). -/
  | rdI64 (base : Addr) (len : BitVec 64)
  /-- `RD.U32 base, len` (R172). -/
  | rdU32 (base : Addr) (len : BitVec 64)
  /-- `RD.I32 base, len` (R173). -/
  | rdI32 (base : Addr) (len : BitVec 64)
  /-- `RD.F32 base, len` (R174). -/
  | rdF32 (base : Addr) (len : BitVec 64)
  /-- `RD.F64 base, len` (R175). -/
  | rdF64 (base : Addr) (len : BitVec 64)
  /-- `RD.BOOL base, len` (R176). -/
  | rdBool (base : Addr) (len : BitVec 64)
  /-- `WR.U64 base, len, value` (R177). -/
  | wrU64 (base : Addr) (len : BitVec 64) (wdata : Word)
  /-- `WR.I64 base, len, value` (R178). -/
  | wrI64 (base : Addr) (len : BitVec 64) (wdata : Word)
  /-- `WR.U32 base, len, value` (R179). -/
  | wrU32 (base : Addr) (len : BitVec 64) (wdata : Word)
  /-- `WR.I32 base, len, value` (R180). -/
  | wrI32 (base : Addr) (len : BitVec 64) (wdata : Word)
  /-- `WR.F32 base, len, value` (R181). -/
  | wrF32 (base : Addr) (len : BitVec 64) (wdata : Word)
  /-- `WR.F64 base, len, value` (R182). -/
  | wrF64 (base : Addr) (len : BitVec 64) (wdata : Word)
  /-- `WR.BOOL base, len, value` (R183). -/
  | wrBool (base : Addr) (len : BitVec 64) (wdata : Word)
  /-- `SWAP8 value` (R87). -/
  | swap8 (wdata : Word)
  /-- `SWAP16 value` (R88). -/
  | swap16 (wdata : Word)
  /-- `SWAP32 value` (R89). -/
  | swap32 (wdata : Word)
  /-- `SWAP64 value` (R90). -/
  | swap64 (wdata : Word)
  deriving DecidableEq, Repr

end Sys2Proof
end

