-- ==== Sys2Proof/WellFormed.lean ====
section
/-! DEFINITION. Well-formedness of what stands on the command port (30_encoding.md R61 to R63). The spec's syntax checks
are on the command word; every value of every operand port is admitted (R64, and R141 for `op_start`), so every term
of `Instr` is well formed and the checks are of `Request`. -/

namespace Sys2Proof

/-- `OPC = cmd[7:0]` (R61). -/
def Request.opc (r : Request) : BitVec 8 := r.cmd.extractLsb' 0 8

/-- `RSVD = cmd[31:8]` (R61). -/
def Request.rsvd (r : Request) : BitVec 24 := r.cmd.extractLsb' 8 24

/-- The nineteen operation codes of R63, in its order. -/
def assignedOpcodes : List (BitVec 8) :=
  [0x01, 0x10, 0x11, 0x12, 0x13, 0x14, 0x15, 0x16, 0x20, 0x21, 0x22, 0x23, 0x24, 0x25, 0x26,
   0x30, 0x31, 0x32, 0x33]

/-- The reserved field is zero (R61). -/
def Request.reservedZero (r : Request) : Bool := r.rsvd.toNat == 0

/-- The operation code is one of the nineteen of R63. -/
def Request.opcodeAssigned (r : Request) : Bool := assignedOpcodes.contains r.opc

/-- The request spells a command (R62). -/
def Request.wellFormed (r : Request) : Bool := r.reservedZero && r.opcodeAssigned

end Sys2Proof
end

