-- ==== Sys2Proof/Decode.lean ====
section
/-! DEFINITION. Decoding and encoding of `CMD32` (30_encoding.md R60 to R64): total on every request, rejecting by name. -/

namespace Sys2Proof

/-- Why a command word spells no command (R62). -/
inductive DecodeError where
  /-- `RSVD` is not zero. -/
  | reservedNotZero
  /-- `OPC` is not one of the nineteen values of R63. -/
  | unknownOpcode
  deriving DecidableEq, Repr

/-- The opcode map R63, each command with the operand ports R64 marks for it. -/
def decodeOpc (r : Request) : Except DecodeError Instr :=
  match r.opc.toNat with
  | 0x01 => .ok (.cfg r.opStart r.opWidth r.opTag)
  | 0x10 => .ok (.rdU64 r.bufBase r.bufLen)
  | 0x11 => .ok (.rdI64 r.bufBase r.bufLen)
  | 0x12 => .ok (.rdU32 r.bufBase r.bufLen)
  | 0x13 => .ok (.rdI32 r.bufBase r.bufLen)
  | 0x14 => .ok (.rdF32 r.bufBase r.bufLen)
  | 0x15 => .ok (.rdF64 r.bufBase r.bufLen)
  | 0x16 => .ok (.rdBool r.bufBase r.bufLen)
  | 0x20 => .ok (.wrU64 r.bufBase r.bufLen r.wdata)
  | 0x21 => .ok (.wrI64 r.bufBase r.bufLen r.wdata)
  | 0x22 => .ok (.wrU32 r.bufBase r.bufLen r.wdata)
  | 0x23 => .ok (.wrI32 r.bufBase r.bufLen r.wdata)
  | 0x24 => .ok (.wrF32 r.bufBase r.bufLen r.wdata)
  | 0x25 => .ok (.wrF64 r.bufBase r.bufLen r.wdata)
  | 0x26 => .ok (.wrBool r.bufBase r.bufLen r.wdata)
  | 0x30 => .ok (.swap8 r.wdata)
  | 0x31 => .ok (.swap16 r.wdata)
  | 0x32 => .ok (.swap32 r.wdata)
  | 0x33 => .ok (.swap64 r.wdata)
  | _ => .error .unknownOpcode

/-- Decode a request (R61, R62): a non-zero `RSVD` field or an unassigned `OPC` spells no command. -/
def decode (r : Request) : Except DecodeError Instr :=
  if r.reservedZero then decodeOpc r else .error .reservedNotZero

/-- The command word of a command, `zext_32(OPC)` (R63). -/
def commandWord : Instr → BitVec 32
  | .cfg _ _ _ => 0x00000001
  | .rdU64 _ _ => 0x00000010
  | .rdI64 _ _ => 0x00000011
  | .rdU32 _ _ => 0x00000012
  | .rdI32 _ _ => 0x00000013
  | .rdF32 _ _ => 0x00000014
  | .rdF64 _ _ => 0x00000015
  | .rdBool _ _ => 0x00000016
  | .wrU64 _ _ _ => 0x00000020
  | .wrI64 _ _ _ => 0x00000021
  | .wrU32 _ _ _ => 0x00000022
  | .wrI32 _ _ _ => 0x00000023
  | .wrF32 _ _ _ => 0x00000024
  | .wrF64 _ _ _ => 0x00000025
  | .wrBool _ _ _ => 0x00000026
  | .swap8 _ => 0x00000030
  | .swap16 _ => 0x00000031
  | .swap32 _ => 0x00000032
  | .swap64 _ => 0x00000033

/-- A request with the given command word and every operand port at zero. -/
def bareRequest (cmd : BitVec 32) : Request :=
  { cmd := cmd, opStart := 0, opWidth := 0, opTag := 0, bufBase := 0, bufLen := 0, wdata := 0 }

/-- A read command's request. -/
def readRequest (cmd : BitVec 32) (base : Addr) (len : BitVec 64) : Request :=
  { bareRequest cmd with bufBase := base, bufLen := len }

/-- A write command's request. -/
def writeRequest (cmd : BitVec 32) (base : Addr) (len : BitVec 64) (wdata : Word) : Request :=
  { readRequest cmd base len with wdata := wdata }

/-- A swap command's request. -/
def swapRequest (cmd : BitVec 32) (wdata : Word) : Request := { bareRequest cmd with wdata := wdata }

/-- The request that presents a command (R63, R64). A port the command ignores is driven to zero; DESIGN CHOICE,
safe (log 8). -/
def encode (i : Instr) : Request :=
  match i with
  | .cfg start width tag =>
      { bareRequest (commandWord i) with opStart := start, opWidth := width, opTag := tag }
  | .rdU64 base len => readRequest (commandWord i) base len
  | .rdI64 base len => readRequest (commandWord i) base len
  | .rdU32 base len => readRequest (commandWord i) base len
  | .rdI32 base len => readRequest (commandWord i) base len
  | .rdF32 base len => readRequest (commandWord i) base len
  | .rdF64 base len => readRequest (commandWord i) base len
  | .rdBool base len => readRequest (commandWord i) base len
  | .wrU64 base len v => writeRequest (commandWord i) base len v
  | .wrI64 base len v => writeRequest (commandWord i) base len v
  | .wrU32 base len v => writeRequest (commandWord i) base len v
  | .wrI32 base len v => writeRequest (commandWord i) base len v
  | .wrF32 base len v => writeRequest (commandWord i) base len v
  | .wrF64 base len v => writeRequest (commandWord i) base len v
  | .wrBool base len v => writeRequest (commandWord i) base len v
  | .swap8 v => swapRequest (commandWord i) v
  | .swap16 v => swapRequest (commandWord i) v
  | .swap32 v => swapRequest (commandWord i) v
  | .swap64 v => swapRequest (commandWord i) v

/-- How many bits a whole request has: the command word and the six ports of R64. -/
def requestBits : Nat := 296

/-- The request whose bits are `w`: bits 31:0 the command word, and from bit 32 upward the ports in the order and
at the widths of R64. The place of a port above bit 31 is a DESIGN CHOICE, safe (log 7): the spec numbers the bits
of the command word only. -/
def Request.ofBits (w : Nat) : Request where
  cmd     := BitVec.ofNat 32 w
  opStart := BitVec.ofNat 32 (w / 2 ^ 32)
  opWidth := BitVec.ofNat 32 (w / 2 ^ 64)
  opTag   := BitVec.ofNat 8 (w / 2 ^ 96)
  bufBase := BitVec.ofNat 64 (w / 2 ^ 104)
  bufLen  := BitVec.ofNat 64 (w / 2 ^ 168)
  wdata   := BitVec.ofNat 64 (w / 2 ^ 232)

/-- The bits of a request, in the places of `Request.ofBits`. -/
def Request.toBits (r : Request) : Nat :=
  r.cmd.toNat + 2 ^ 32 * r.opStart.toNat + 2 ^ 64 * r.opWidth.toNat + 2 ^ 96 * r.opTag.toNat
    + 2 ^ 104 * r.bufBase.toNat + 2 ^ 168 * r.bufLen.toNat + 2 ^ 232 * r.wdata.toNat

/-- The command the decoder reads from `nbits` bits `w`, every higher bit zero. -/
def decodeTableWord (nbits w : Nat) : Option Instr :=
  match decode (Request.ofBits (w % 2 ^ nbits)) with
  | .ok i => some i
  | .error _ => none

end Sys2Proof
end

