-- ==== Sys2Proof/Config.lean ====
section
/-! DEFINITION. What the spec leaves open, as constants without a body: nothing can be proved of them but what holds of
every value. The widths that 00_scope.md R6 fixes (`START_W`, `WIDTH_W` 32, `TAG_W` 8, `ADDR_W`, `LEN_W`, `DATA_W` 64)
are the types of `Request`; `LATENCY` is not observable (R233, log 12). -/

namespace Sys2Proof

/-- What a byte of buffer memory that nothing has written reads as. DESIGN CHOICE, unsafe (log 3): the spec
gives the buffer no contents (R222). -/
def Config.unlistedByte : Byte := 0

/-- `F2I_INVALID(f, s)` (R6, R15): any 64-bit value, by draw index, operand and signedness (log 5). -/
opaque Config.f2iInvalid : Nat → FloatVal → Bool → BitVec 64

/-- The sign and fraction of `NAN_CONVERT(f, F32)` (R6, R15), by draw index and operand (log 6). -/
opaque Config.nanBits32 : Nat → BitVec 64 → BitVec 32

/-- The sign and fraction of `NAN_CONVERT(f, F64)` (R6, R15), by draw index and operand (log 6). -/
opaque Config.nanBits64 : Nat → BitVec 32 → BitVec 64

/-- The byte a command reads where another agent writes while the command runs (R52): any byte, by draw index
and address (log 9). -/
opaque Config.raceByte : Nat → Addr → Byte

/-- Whether, at a byte that the block and another agent both write, the block's value is the one that stays
(R52), by draw index and address (log 9). -/
opaque Config.raceBlockWins : Nat → Addr → Bool

/-- Whether a command that reset cut short had performed its write of a byte (R223), by draw index and address
(log 10). -/
opaque Config.cutPerforms : Nat → Addr → Bool

end Sys2Proof
end

