-- ==== Sys2Proof/Machine/State.lean ====
section
/-! DEFINITION. The state of the block: the register set ACC (10_state.md R22), the buffer memory (R32), the ports, and
the model's own draw counter; the state after reset (70_reset_and_hazards.md R221). -/

namespace Sys2Proof.Machine

/-- The codec `ACC.KIND` names (R24). -/
inductive Kind where
  | zero | bit | aligned | gen32 | gen64
  deriving DecidableEq, Repr

/-- The configuration register set ACC, one field per row of R22. -/
structure Acc where
  /-- `VALID`: a CFG has completed with OK since the last reset (R23). -/
  valid     : Bool
  /-- `KIND` (R24). -/
  kind      : Kind
  /-- `TAG` (R25). -/
  tag       : Tag
  /-- `START` (R26). -/
  start     : BitVec 32
  /-- `WIDTH` (R26). -/
  width     : BitVec 7
  /-- `BYTEOFF` (R27). -/
  byteoff   : BitVec 29
  /-- `BITOFF` (R27). -/
  bitoff    : BitVec 3
  /-- `NBYTES` (R28). -/
  nbytes    : BitVec 4
  /-- `SW` (R28). -/
  sw        : BitVec 4
  /-- `MASK` (R28). -/
  mask      : BitVec 64
  /-- `SHIFT` (R28). -/
  shift     : BitVec 6
  /-- `SIGNED` (R25). -/
  signed    : Bool
  /-- `BIGEND` (R25). -/
  bigend    : Bool
  /-- `FLOAT` (R25). -/
  float     : Bool
  /-- `READMASK` (R29). -/
  readmask  : BitVec 8
  /-- `CLEARMASK` (R29). -/
  clearmask : BitVec 8
  deriving DecidableEq, Repr

/-- `rsp.status` (60_exceptions.md R200). -/
inductive Status where
  | ok | unsupportedFieldShape | bufferTooSmall | notConfigured | illegalCommand
  deriving DecidableEq, Repr

/-- The two response ports (30_encoding.md R65). -/
structure Response where
  status : Status
  rdata  : Word
  deriving DecidableEq, Repr

/-- What comes to the block from outside, in the order it comes (00_scope.md R5, log 1). -/
inductive Input where
  /-- The requester presents a command, and no other agent touches its footprint while it runs (R60). -/
  | command (r : Request)
  /-- The requester presents a command, and while it runs another agent writes the bytes `others`
  (20_memory.md R52, log 9). -/
  | commandRaced (r : Request) (others : List (Addr × Byte))
  /-- The requester presents a command, and reset is asserted while it is in progress
  (70_reset_and_hazards.md R223, log 10); another agent may write the bytes `others` meanwhile. -/
  | commandCut (r : Request) (others : List (Addr × Byte))
  /-- Reset, between commands (R220, R221). -/
  | reset
  /-- Another agent writes one byte of the buffer memory, between commands (R32). -/
  | agentWrite (addr : Addr) (value : Byte)
  deriving DecidableEq, Repr

/-- The buffer memory (R32, R40): the bytes that differ from `Config.unlistedByte`, by strictly rising address. -/
structure Memory where
  cells : List Host.Cell
  deriving DecidableEq, Repr

/-- The state of the block, of its ports and of the memory it reaches. -/
structure State where
  /-- The register set ACC (R22). -/
  acc    : Acc
  /-- The buffer memory (R32). -/
  mem    : Memory
  /-- What has not yet been presented at the ports (R60, R64, log 1). -/
  inputs : List Input
  /-- The response of the last command, none if reset came after it (R65, R223, log 4). -/
  rsp    : Option Response
  /-- The model's own: the index of the next draw of 00_scope.md R6 (log 5). -/
  draws  : Nat
  deriving DecidableEq, Repr

/-- Why the machine stops with a fault. The block reports every error as a status of the command that caused it and
goes on (60_exceptions.md R207, R211), so there is no reason: no constructor. -/
inductive Fault where
  deriving DecidableEq, Repr

/-- Why a command has no meaning. -/
inductive Refusal where
  /-- Raised by an arm of `exec` whose instruction has no meaning yet; no arm is one. Safe: a claim about such a
  command would be unprovable. -/
  | notModelled (mnemonic : String)
  deriving DecidableEq, Repr

/-- ACC after reset: `VALID = 0` (R221). The spec calls every other field unspecified; the values here are a DESIGN
CHOICE, unsafe (log 2): they are the values of the legal shape (0, 0, ILE). -/
def Acc.reset : Acc where
  valid     := false
  kind      := .zero
  tag       := .ile
  start     := 0
  width     := 0
  byteoff   := 0
  bitoff    := 0
  nbytes    := 0
  sw        := 0
  mask      := 0
  shift     := 0
  signed    := true
  bigend    := false
  float     := false
  readmask  := 0x01
  clearmask := 0xFE

/-- The machine right after reset (R221, R222): ACC not valid, nothing listed in memory, nothing at the ports. -/
def State.reset : State where
  acc    := Acc.reset
  mem    := ⟨[]⟩
  inputs := []
  rsp    := none
  draws  := 0

end Sys2Proof.Machine
end

