-- ==== Sys2Proof/Machine/Float.lean ====
section
/-! DEFINITION. The floating-point formats (00_scope.md R14) and the conversion primitives (R15), computed exactly on
integers and rounded once. Subnormals and the signs of zero follow IEEE-754; PRESUMED (log 16). -/

namespace Sys2Proof.Machine

/-- A value a primitive produced, and whether it is a draw of R6. -/
structure Drawn (α : Type) where
  val  : α
  drew : Bool
  deriving DecidableEq, Repr

/-- A value that needed no draw. -/
def Drawn.pure {α : Type} (v : α) : Drawn α := ⟨v, false⟩

/-- Apply a function to the value, keeping whether it was drawn. -/
def Drawn.map {α β : Type} (f : α → β) (d : Drawn α) : Drawn β := ⟨f d.val, d.drew⟩

/-- What a bit pattern of a format stands for; `finite neg m e` is `(-1)^neg * m * 2^e`. -/
inductive FloatClass where
  | nan
  | inf (neg : Bool)
  | finite (neg : Bool) (m : Nat) (e : Int)
  deriving DecidableEq, Repr

/-- Read a format with `eb` exponent bits and `fb` fraction bits, from its sign, biased exponent and fraction (R14). -/
def classifyFields (eb fb : Nat) (neg : Bool) (ex fr : Nat) : FloatClass :=
  if ex = 2 ^ eb - 1 then (if fr = 0 then .inf neg else .nan)
  else if ex = 0 then .finite neg fr (2 - 2 ^ (eb - 1) - fb)
  else .finite neg (2 ^ fb + fr) (ex + 1 - 2 ^ (eb - 1) - fb)

/-- `asF32` (R14): sign `f[31]`, exponent `f[30:23]`, fraction `f[22:0]`. -/
def classify32 (f : BitVec 32) : FloatClass :=
  classifyFields 8 23 (f.getLsbD 31) (f.extractLsb' 23 8).toNat (f.extractLsb' 0 23).toNat

/-- `asF64` (R14): sign `f[63]`, exponent `f[62:52]`, fraction `f[51:0]`. -/
def classify64 (f : BitVec 64) : FloatClass :=
  classifyFields 11 52 (f.getLsbD 63) (f.extractLsb' 52 11).toNat (f.extractLsb' 0 52).toNat

/-- What a floating-point value of either format stands for. -/
def FloatVal.classify : FloatVal → FloatClass
  | .f32 f => classify32 f
  | .f64 f => classify64 f

/-- `m / 2^k` rounded to the nearest integer, a tie to the even one (R15). -/
def roundShift (m k : Nat) : Nat :=
  let q := m / 2 ^ k
  let r := m % 2 ^ k
  if 2 ^ k < 2 * r ∨ (2 * r = 2 ^ k ∧ q % 2 = 1) then q + 1 else q

/-- The exponent of the last place of `m * 2^e` in a format, never below that of the subnormals. -/
def lastPlace (eb fb m : Nat) (e : Int) : Int :=
  max (e + Nat.log2 m - fb) (2 - 2 ^ (eb - 1) - fb)

/-- The exponent and fraction fields, as one number, of `m * 2^e` rounded to nearest, ties to even (R15); past the
largest finite value they are those of infinity. -/
def roundFields (eb fb m : Nat) (e : Int) : Nat :=
  if m = 0 then 0
  else
    let q := lastPlace eb fb m e
    let r := if q ≤ e then m * 2 ^ (e - q).toNat else roundShift m (q - e).toNat
    min ((q - (2 - 2 ^ (eb - 1) - fb)).toNat * 2 ^ fb + r) ((2 ^ eb - 1) * 2 ^ fb)

/-- The `F32` pattern of `(-1)^neg * m * 2^e`, rounded once. -/
def pack32 (neg : Bool) (m : Nat) (e : Int) : BitVec 32 :=
  BitVec.ofNat 32 ((if neg then 2 ^ 31 else 0) + roundFields 8 23 m e)

/-- The `F64` pattern of `(-1)^neg * m * 2^e`, rounded once. -/
def pack64 (neg : Bool) (m : Nat) (e : Int) : BitVec 64 :=
  BitVec.ofNat 64 ((if neg then 2 ^ 63 else 0) + roundFields 11 52 m e)

/-- The infinity of a sign, in `F32`. -/
def inf32 (neg : Bool) : BitVec 32 := if neg then 0xFF800000 else 0x7F800000

/-- The infinity of a sign, in `F64`. -/
def inf64 (neg : Bool) : BitVec 64 := if neg then 0xFFF0000000000000 else 0x7FF0000000000000

/-- The `F32` NaN with the sign and fraction of `raw`; a zero fraction, which would be an infinity, becomes the one
with only its top bit set. Every NaN is the image of its own pattern. -/
def nan32 (raw : BitVec 32) : BitVec 32 :=
  if raw.extractLsb' 0 23 = 0 then raw ||| 0x7FC00000 else raw ||| 0x7F800000

/-- The `F64` NaN with the sign and fraction of `raw`, as `nan32`. -/
def nan64 (raw : BitVec 64) : BitVec 64 :=
  if raw.extractLsb' 0 52 = 0 then raw ||| 0x7FF8000000000000 else raw ||| 0x7FF0000000000000

/-- `i2f_32(x)` (R15). -/
def i2f32 (x : Int) : BitVec 32 := pack32 (decide (x < 0)) x.natAbs 0

/-- `i2f_64(x)` (R15). -/
def i2f64 (x : Int) : BitVec 64 := pack64 (decide (x < 0)) x.natAbs 0

/-- `f2f_64(f)` (R15): exact; a NaN gives `NAN_CONVERT(f, F64)`, a draw. -/
def f2f64 (n : Nat) (f : BitVec 32) : Drawn (BitVec 64) :=
  match classify32 f with
  | .nan => ⟨nan64 (Config.nanBits64 n f), true⟩
  | .inf neg => .pure (inf64 neg)
  | .finite neg m e => .pure (pack64 neg m e)

/-- `f2f_32(f)` (R15): rounded, overflow to infinity; a NaN gives `NAN_CONVERT(f, F32)`, a draw. -/
def f2f32 (n : Nat) (f : BitVec 64) : Drawn (BitVec 32) :=
  match classify64 f with
  | .nan => ⟨nan32 (Config.nanBits32 n f), true⟩
  | .inf neg => .pure (inf32 neg)
  | .finite neg m e => .pure (pack32 neg m e)

/-- The magnitude `m * 2^e` rounded toward zero to an integer. -/
def truncMag (m : Nat) (e : Int) : Nat :=
  if 0 ≤ e then m * 2 ^ e.toNat else m / 2 ^ (-e).toNat

/-- `(-1)^neg * m * 2^e` rounded toward zero to an integer. -/
def truncate (neg : Bool) (m : Nat) (e : Int) : Int :=
  if neg then -(truncMag m e : Int) else (truncMag m e : Int)

/-- The range of `F2I` for a signedness (R15): `[-2^63, 2^63)` or `[0, 2^64)`. -/
def inF2IRange (signed : Bool) (t : Int) : Bool :=
  if signed then decide (-2 ^ 63 ≤ t ∧ t < 2 ^ 63) else decide (0 ≤ t ∧ t < 2 ^ 64)

/-- `F2I(f, s)` (R15): truncation toward zero where it is in range, otherwise the draw `F2I_INVALID(f, s)`. -/
def f2i (n : Nat) (f : FloatVal) (signed : Bool) : Drawn (BitVec 64) :=
  match FloatVal.classify f with
  | .finite neg m e =>
    if inF2IRange signed (truncate neg m e) then .pure (BitVec.ofInt 64 (truncate neg m e))
    else ⟨Config.f2iInvalid n f signed, true⟩
  | _ => ⟨Config.f2iInvalid n f signed, true⟩

/-- `fzero(f)` (R15): `+0` or `-0`. -/
def fzero : FloatVal → Bool
  | .f32 f => f.extractLsb' 0 31 == 0
  | .f64 f => f.extractLsb' 0 63 == 0

end Sys2Proof.Machine
end

