-- ==== Sys2Proof/Machine/Ops.lean ====
section
/-! DEFINITION. The shared operations: byte sequences (00_scope.md R11), the buffer memory and its two primitives (R12),
the completion primitives (R13), and reset (70_reset_and_hazards.md R221). -/

namespace Sys2Proof.Machine

/-! ### Byte sequences -/

/-- `LEint(b)` (R11): the least significant byte first. -/
def leInt : List Byte → Nat
  | [] => 0
  | b :: bs => b.toNat + 2 ^ 8 * leInt bs

/-- `BEint(b)` (R11): the most significant byte first. -/
def beInt : List Byte → Nat
  | [] => 0
  | b :: bs => b.toNat * 2 ^ (8 * bs.length) + beInt bs

/-- `LEbytes_n(x)` (R11). -/
def leBytes : Nat → Nat → List Byte
  | 0, _ => []
  | n + 1, x => BitVec.ofNat 8 x :: leBytes n (x / 2 ^ 8)

/-- `BEbytes_n(x)` (R11). -/
def beBytes (n x : Nat) : List Byte := (leBytes n x).reverse

/-! ### One byte of memory -/

/-- The byte a list of cells holds at an address; one that is not listed reads as `Config.unlistedByte` (log 3). -/
def cellsGet (a : Nat) : List Host.Cell → Byte
  | [] => Config.unlistedByte
  | (b, u) :: rest => if a < b then Config.unlistedByte else if a = b then u else cellsGet a rest

/-- Store a byte in a list of cells, keeping the canonical form: rising addresses, no entry equal to what an
unlisted address reads as. -/
def cellsPut (a : Nat) (v : Byte) : List Host.Cell → List Host.Cell
  | [] => if v = Config.unlistedByte then [] else [(a, v)]
  | (b, u) :: rest =>
    if a < b then (if v = Config.unlistedByte then (b, u) :: rest else (a, v) :: (b, u) :: rest)
    else if a = b then
      (if v = Config.unlistedByte then rest.dropWhile (fun c => decide (c.1 ≤ a)) else (a, v) :: rest)
    else (b, u) :: cellsPut a v rest

/-- The cells are in canonical form above the address `lo`: rising, inside the 2^64 bytes of R40, and none equal to
what an unlisted address reads as. -/
def cellsWf (lo : Nat) : List Host.Cell → Bool
  | [] => true
  | (b, u) :: rest =>
    decide (lo ≤ b) && decide (b < 2 ^ 64) && decide (u ≠ Config.unlistedByte) && cellsWf (b + 1) rest

/-- The memory is in its one canonical form. -/
def Memory.wf (m : Memory) : Bool := cellsWf 0 m.cells

/-- The byte at an address (R40, R51: a read has no side effect). -/
def Memory.read (m : Memory) (a : Addr) : Byte := cellsGet a.toNat m.cells

/-- Store one byte (R48: the port moves single bytes). -/
def Memory.write (m : Memory) (a : Addr) (v : Byte) : Memory := ⟨cellsPut a.toNat v m.cells⟩

/-! ### The memory primitives -/

/-- `MemRead(addr, n)` (R12): `n` bytes upward from `addr`, addresses modulo 2^64. -/
def memRead (m : Memory) (addr : Addr) : Nat → List Byte
  | 0 => []
  | n + 1 => m.read addr :: memRead m (addr + 1) n

/-- `MemWrite(addr, n, b)` with `n` the length of `b` (R12). -/
def memWrite (m : Memory) (addr : Addr) : List Byte → Memory
  | [] => m
  | b :: bs => memWrite (m.write addr b) (addr + 1) bs

/-- The address of buffer byte `k` of the window at `base` (20_memory.md R41). -/
def bufferAddr (base : Addr) (k : Nat) : Addr := base + BitVec.ofNat 64 k

/-- The addresses of the `n` bytes upward from `addr`, modulo 2^64. -/
def addrRange (addr : Addr) : Nat → List Addr
  | 0 => []
  | n + 1 => addr :: addrRange (addr + 1) n

/-! ### Completion and reset -/

/-- `rsp.status <- OK; rsp.rdata <- v` (R13). -/
def State.complete (s : State) (rdata : Word) : State := { s with rsp := some ⟨.ok, rdata⟩ }

/-- `raise <Status>` (R13, 60_exceptions.md R207): the status, `rdata = 0`, and nothing else. This is all there is of
taking an error: no trap is taken and there is none to return from (R211, R212). -/
def State.raise (s : State) (st : Status) : State := { s with rsp := some ⟨st, 0⟩ }

/-- Reset (70_reset_and_hazards.md R221, R222): ACC as after reset, no response, memory untouched. -/
def State.resetBlock (s : State) : State := { s with acc := Acc.reset, rsp := none }

end Sys2Proof.Machine
end

