-- ==== Sys2Proof/Machine/Operands.lean ====
section
/-! DEFINITION. Operand forms: type tags (30_encoding.md R66), the packing of `wdata` (R67, 43_access.md R164), and the
natural values and patterns between codec and adapter (41_codecs.md R100). -/

namespace Sys2Proof.Machine

/-- The type tag an `op_tag` value encodes (R66); 6 to 255 are not type tags. -/
def tagOfCode (g : BitVec 8) : Option Tag :=
  match g.toNat with
  | 0 => some .ile
  | 1 => some .ule
  | 2 => some .ibe
  | 3 => some .ube
  | 4 => some .fle
  | 5 => some .fbe
  | _ => none

/-- The value of `ACC.TAG` for a tag (R66). -/
def tagCode : Tag → BitVec 3
  | .ile => 0
  | .ule => 1
  | .ibe => 2
  | .ube => 3
  | .fle => 4
  | .fbe => 5

/-- The value of `ACC.KIND` for a codec (10_state.md R22). -/
def kindCode : Kind → BitVec 3
  | .zero => 0
  | .bit => 1
  | .aligned => 2
  | .gen32 => 3
  | .gen64 => 4

/-- The value a write command takes (R164). -/
inductive Operand where
  | int (x : Int)
  | float (y : FloatVal)
  | truth (b : Bool)
  deriving DecidableEq, Repr

/-- `WR.U64`: `uval(wdata)` (R67). -/
def operandU64 (wdata : Word) : Operand := .int wdata.toNat

/-- `WR.I64`: `sval(wdata)` (R67). -/
def operandI64 (wdata : Word) : Operand := .int wdata.toInt

/-- `WR.U32`: `uval(wdata[31:0])` (R67). -/
def operandU32 (wdata : Word) : Operand := .int (wdata.setWidth 32).toNat

/-- `WR.I32`: `sval(wdata[31:0])` (R67). -/
def operandI32 (wdata : Word) : Operand := .int (wdata.setWidth 32).toInt

/-- `WR.F32`: `asF32(wdata[31:0])` (R67). -/
def operandF32 (wdata : Word) : Operand := .float (.f32 (wdata.setWidth 32))

/-- `WR.F64`: `asF64(wdata)` (R67). -/
def operandF64 (wdata : Word) : Operand := .float (.f64 wdata)

/-- `WR.BOOL`: `wdata[0]` (R67). -/
def operandBool (wdata : Word) : Operand := .truth (wdata.getLsbD 0)

/-- A natural value, what a codec reads (R100). -/
inductive Natural where
  | zero
  | int (v : Int)
  | float (f : FloatVal)
  deriving DecidableEq, Repr

end Sys2Proof.Machine
end

