-- ==== Sys2Proof/Machine/Flags.lean ====
section
/-! DEFINITION. The block has no condition flags (10_state.md R20). What stands here is what takes their place: the codes
of the statuses (60_exceptions.md R200), the checks that choose one and their order (R206), the decode of a tag into
SIGNED, BIGEND and FLOAT (42_dispatch.md R148), and the truth of a value (43_access.md R167). -/

namespace Sys2Proof.Machine

/-- The code of a status on `rsp.status` (R200). -/
def statusCode : Status → BitVec 3
  | .ok => 0
  | .unsupportedFieldShape => 1
  | .bufferTooSmall => 2
  | .notConfigured => 3
  | .illegalCommand => 4

/-- `SIGNED` (R148). -/
def tagSigned : Tag → Bool
  | .ile => true
  | .ule => false
  | .ibe => true
  | .ube => false
  | .fle => false
  | .fbe => false

/-- `BIGEND` (R148). -/
def tagBigend : Tag → Bool
  | .ile => false
  | .ule => false
  | .ibe => true
  | .ube => true
  | .fle => false
  | .fbe => true

/-- `FLOAT` (R148). -/
def tagFloat : Tag → Bool
  | .ile => false
  | .ule => false
  | .ibe => false
  | .ube => false
  | .fle => true
  | .fbe => true

/-- `inBounds()` (43_access.md R168), on unbounded integers. -/
def inBounds (acc : Acc) (len : BitVec 64) : Bool :=
  decide (acc.start.toNat + acc.width.toNat ≤ 8 * len.toNat)

/-- The checks of an RD or WR command in the order of R206: NotConfigured, then, for an accessor that is not the zero
codec's, BufferTooSmall. `none` lets the command go on. -/
def accessError (acc : Acc) (len : BitVec 64) : Option Status :=
  if acc.valid = false then some .notConfigured
  else if acc.kind ≠ .zero ∧ inBounds acc len = false then some .bufferTooSmall
  else none

/-- The truth of a write operand for the bit codec (R167): over the whole value, `-0` false, a NaN true. -/
def operandTruth : Operand → Bool
  | .int x => decide (x ≠ 0)
  | .float y => !fzero y
  | .truth b => b

end Sys2Proof.Machine
end

