-- ==== Sys2Proof/Machine/Cfg.lean ====
section
/-! DEFINITION. The dispatch factory, the CFG command (42_dispatch.md R140 to R153). -/

namespace Sys2Proof.Machine

/-- The codec for a shape, first matching row wins (R140, R143 to R146); `none` is a shape the factory rejects. -/
def selectKind (isFloat : Bool) (bo w : Nat) : Option Kind :=
  if 64 < w then none
  else if w = 0 then some .zero
  else if w = 1 then some .bit
  else if isFloat = true ∧ ¬ (w = 32 ∨ w = 64) then none
  else if (w = 8 ∨ w = 16 ∨ w = 32 ∨ w = 64) ∧ bo = 0 then some .aligned
  else if w + bo ≤ 32 then some .gen32
  else if w + bo ≤ 64 then some .gen64
  else none

/-- `ceil_div(w + bo, 8)` (R149). -/
def spanBytes (w bo : Nat) : Nat := (w + bo + 7) / 8

/-- `NBYTES` (R149). -/
def nbytesOf (k : Kind) (w bo : Nat) : Nat :=
  match k with
  | .zero => 0
  | .bit => 1
  | .aligned => w / 8
  | .gen32 => spanBytes w bo
  | .gen64 => spanBytes w bo

/-- `SW` (R149). -/
def swOf (k : Kind) : Nat :=
  match k with
  | .zero => 0
  | .bit => 0
  | .aligned => 0
  | .gen32 => 4
  | .gen64 => 8

/-- The alignment shift of a generic accessor with a staging word of `S` bytes (R103, R149). -/
def genericShift (S : Nat) (big : Bool) (w bo : Nat) : Nat :=
  if big then (S - spanBytes w bo) * 8 + bo else bo

/-- `SHIFT` (R149). -/
def shiftOf (k : Kind) (big : Bool) (w bo : Nat) : Nat :=
  match k with
  | .zero => 0
  | .bit => 0
  | .aligned => 0
  | .gen32 => genericShift 4 big w bo
  | .gen64 => genericShift 8 big w bo

/-- `MASK` (R102, R149). -/
def maskOf (w : Nat) : BitVec 64 := if w < 64 then BitVec.ofNat 64 (2 ^ w - 1) else BitVec.allOnes 64

/-- Everything CFG writes for a shape it accepts (R147 to R149, 10_state.md R27, R29). -/
def configuredAcc (k : Kind) (g : Tag) (start width : BitVec 32) : Acc :=
  let bo := start.toNat % 8
  let w := width.toNat
  { valid     := true
    kind      := k
    tag       := g
    start     := start
    width     := width.setWidth 7
    byteoff   := BitVec.ofNat 29 (start.toNat / 8)
    bitoff    := BitVec.ofNat 3 bo
    nbytes    := BitVec.ofNat 4 (nbytesOf k w bo)
    sw        := BitVec.ofNat 4 (swOf k)
    mask      := maskOf w
    shift     := BitVec.ofNat 6 (shiftOf k (tagBigend g) w bo)
    signed    := tagSigned g
    bigend    := tagBigend g
    float     := tagFloat g
    readmask  := 1#8 <<< bo
    clearmask := ~~~ (1#8 <<< bo) }

/-- The accessor for a field specification, or `none` where the factory rejects it (R140). -/
def factory (start width : BitVec 32) (tag : BitVec 8) : Option Acc :=
  match tagOfCode tag with
  | none => none
  | some g =>
    match selectKind (tagFloat g) (start.toNat % 8) width.toNat with
    | none => none
    | some k => some (configuredAcc k g start width)

/-- `CFG` (R140): load ACC as a whole, or report UnsupportedFieldShape and change nothing (R152). -/
def execCfg (start width : BitVec 32) (tag : BitVec 8) (s : State) : Host.Outcome State Fault Refusal :=
  match factory start width tag with
  | some acc => .next (State.complete { s with acc := acc } 0)
  | none => .next (s.raise .unsupportedFieldShape)

end Sys2Proof.Machine
end

