-- ==== Sys2Proof/Machine/Swap.lean ====
section
/-! DEFINITION. The byte-swap primitives, the swap policy and the SWAP commands (40_byteswap.md R80 to R90). -/

namespace Sys2Proof.Machine

/-- `bswap8` (R83). -/
def bswap8 (v : BitVec 8) : BitVec 8 := v

/-- `bswap16` (R80). -/
def bswap16 (v : BitVec 16) : BitVec 16 := v.extractLsb' 0 8 ++ v.extractLsb' 8 8

/-- `bswap32` (R81). -/
def bswap32 (v : BitVec 32) : BitVec 32 :=
  v.extractLsb' 0 8 ++ v.extractLsb' 8 8 ++ v.extractLsb' 16 8 ++ v.extractLsb' 24 8

/-- `bswap64` (R82). -/
def bswap64 (v : BitVec 64) : BitVec 64 :=
  v.extractLsb' 0 8 ++ v.extractLsb' 8 8 ++ v.extractLsb' 16 8 ++ v.extractLsb' 24 8
    ++ v.extractLsb' 32 8 ++ v.extractLsb' 40 8 ++ v.extractLsb' 48 8 ++ v.extractLsb' 56 8

/-- `bswapN`; a width other than 8, 16, 32 and 64 has no swap and is left as it is. -/
def bswapN : (N : Nat) → BitVec N → BitVec N
  | 8, v => bswap8 v
  | 16, v => bswap16 v
  | 32, v => bswap32 v
  | 64, v => bswap64 v
  | _, v => v

/-- `swapPol(big, N)` (R86). -/
def swapPol (big : Bool) (N : Nat) (v : BitVec N) : BitVec N := if big then bswapN N v else v

/-- `SWAP8` (R87). -/
def execSwap8 (wdata : Word) (s : State) : Host.Outcome State Fault Refusal :=
  .next (s.complete ((bswap8 (wdata.setWidth 8)).setWidth 64))

/-- `SWAP16` (R88). -/
def execSwap16 (wdata : Word) (s : State) : Host.Outcome State Fault Refusal :=
  .next (s.complete ((bswap16 (wdata.setWidth 16)).setWidth 64))

/-- `SWAP32` (R89). -/
def execSwap32 (wdata : Word) (s : State) : Host.Outcome State Fault Refusal :=
  .next (s.complete ((bswap32 (wdata.setWidth 32)).setWidth 64))

/-- `SWAP64` (R90). -/
def execSwap64 (wdata : Word) (s : State) : Host.Outcome State Fault Refusal :=
  .next (s.complete (bswap64 wdata))

end Sys2Proof.Machine
end

