-- ==== Sys2Proof/Machine/Codecs.lean ====
section
/-! DEFINITION. The policies and the four codec datapaths (41_codecs.md R100 to R132). What they do on ACC contents
that no CFG writes is a DESIGN CHOICE, safe (log 14): no run reaches them. -/

namespace Sys2Proof.Machine

/-- The address of buffer byte `ACC.BYTEOFF`, the lowest of the footprint (20_memory.md R41, R46). -/
def fieldAddr (acc : Acc) (base : Addr) : Addr := bufferAddr base acc.byteoff.toNat

/-- The staging width `W = 8*ACC.SW` of the generic codec (R119). -/
def stagingWidth (acc : Acc) : Nat := 8 * acc.sw.toNat

/-! ### Policies -/

/-- `signext(k, W)` (R101). -/
def signext (k W : Nat) (x : BitVec W) : BitVec W :=
  if x.getLsbD (k - 1) then x ||| ~~~ ((1#W <<< (k - 1)) - 1#W) else x

/-- `placeR` (R104): swap, shift right, mask. -/
def placeR (acc : Acc) (W : Nat) (x : BitVec W) : BitVec W :=
  (swapPol acc.bigend W x >>> acc.shift.toNat) &&& acc.mask.setWidth W

/-- `placeW` (R104, R132): mask, shift left, swap. -/
def placeW (acc : Acc) (W : Nat) (p : BitVec W) : BitVec W :=
  swapPol acc.bigend W ((p &&& acc.mask.setWidth W) <<< acc.shift.toNat)

/-- The natural type of an aligned float accessor is `F64` at width 64 and `F32` otherwise; a float through the
generic codec is `F32` (R100, R125). -/
def isF64 (acc : Acc) : Bool := decide (acc.kind = .aligned ∧ acc.width.toNat = 64)

/-! ### Aligned codec -/

/-- Aligned read of a word of `N` bits (R107, R108). -/
def alignedRead (N : Nat) (acc : Acc) (base : Addr) (m : Memory) : Natural :=
  let x : BitVec N := swapPol acc.bigend N (BitVec.ofNat N (leInt (memRead m (fieldAddr acc base) (N / 8))))
  if acc.float then
    (if isF64 acc then .float (.f64 (x.setWidth 64)) else .float (.f32 (x.setWidth 32)))
  else if acc.signed then .int x.toInt else .int x.toNat

/-- Aligned write of a pattern of `N` bits (R109, R110). -/
def alignedWrite (N : Nat) (acc : Acc) (base : Addr) (m : Memory) (p : BitVec N) : Memory :=
  memWrite m (fieldAddr acc base) (leBytes (N / 8) (swapPol acc.bigend N p).toNat)

/-! ### Bit codec -/

/-- Bit read (R113). -/
def bitRead (acc : Acc) (base : Addr) (m : Memory) : Natural :=
  if m.read (fieldAddr acc base) &&& acc.readmask ≠ 0 then .int (if acc.signed then -1 else 1) else .int 0

/-- Bit write of a truth value (R114). -/
def bitWrite (acc : Acc) (base : Addr) (m : Memory) (t : Bool) : Memory :=
  let b := m.read (fieldAddr acc base)
  m.write (fieldAddr acc base) (if t then b ||| acc.readmask else b &&& acc.clearmask)

/-! ### Generic codec -/

/-- Generic read with a staging word of `W` bits (R121 to R125). -/
def genericRead (W : Nat) (acc : Acc) (base : Addr) (m : Memory) : Natural :=
  let x : BitVec W := BitVec.ofNat W (leInt (memRead m (fieldAddr acc base) acc.nbytes.toNat))
  let x := placeR acc W x
  let x := if acc.signed then signext acc.width.toNat W x else x
  if acc.float then .float (.f32 (x.setWidth 32))
  else if acc.signed then .int x.toInt else .int x.toNat

/-- The bytes a generic write ORs into the buffer (R127). -/
def genericBytes (W : Nat) (acc : Acc) (p : BitVec W) : List Byte :=
  (leBytes (W / 8) (placeW acc W p).toNat).take acc.nbytes.toNat

/-- Generic write, OR-into-place (R128). -/
def genericWrite (W : Nat) (acc : Acc) (base : Addr) (m : Memory) (p : BitVec W) : Memory :=
  memWrite m (fieldAddr acc base)
    (List.zipWith (fun old c => old ||| c) (memRead m (fieldAddr acc base) acc.nbytes.toNat) (genericBytes W acc p))

/-! ### The codec of an accessor -/

/-- The natural value a read takes from the buffer (43_access.md R160). -/
def naturalRead (acc : Acc) (base : Addr) (m : Memory) : Natural :=
  match acc.kind with
  | .zero => .zero
  | .bit => bitRead acc base m
  | .aligned => alignedRead acc.width.toNat acc base m
  | .gen32 => genericRead (stagingWidth acc) acc base m
  | .gen64 => genericRead (stagingWidth acc) acc base m

end Sys2Proof.Machine
end

