-- ==== Sys2Proof/Machine/Read.lean ====
section
/-! DEFINITION. The read sequence (43_access.md R160), the read adapters with their packing (R162, R163, 30_encoding.md
R68), and the seven RD commands (R170 to R176). -/

namespace Sys2Proof.Machine

/-- The state with the draw counter moved on if a draw was made (00_scope.md R6, log 5). -/
def State.spend (s : State) (drew : Bool) : State := { s with draws := s.draws + drew.toNat }

/-- The adapter of `RD.U64` (R162, R163). -/
def adaptU64 (n : Nat) : Natural → Drawn Word
  | .zero => .pure 0
  | .int v => .pure (BitVec.ofInt 64 v)
  | .float f => f2i n f false

/-- The adapter of `RD.I64` (R162, R163). -/
def adaptI64 (n : Nat) : Natural → Drawn Word
  | .zero => .pure 0
  | .int v => .pure (BitVec.ofInt 64 v)
  | .float f => f2i n f true

/-- The adapter of `RD.U32` (R162, R163), zero-extended to the port (R68). -/
def adaptU32 (n : Nat) : Natural → Drawn Word
  | .zero => .pure 0
  | .int v => .pure ((BitVec.ofInt 32 v).setWidth 64)
  | .float f => (f2i n f false).map (fun x => (x.setWidth 32).setWidth 64)

/-- The adapter of `RD.I32` (R162, R163), zero-extended to the port (R68). -/
def adaptI32 (n : Nat) : Natural → Drawn Word
  | .zero => .pure 0
  | .int v => .pure ((BitVec.ofInt 32 v).setWidth 64)
  | .float f => (f2i n f true).map (fun x => (x.setWidth 32).setWidth 64)

/-- The adapter of `RD.F32` (R162, R163), zero-extended to the port (R68). -/
def adaptF32 (n : Nat) : Natural → Drawn Word
  | .zero => .pure 0
  | .int v => .pure ((i2f32 v).setWidth 64)
  | .float (.f32 f) => .pure (f.setWidth 64)
  | .float (.f64 f) => (f2f32 n f).map (fun x => x.setWidth 64)

/-- The adapter of `RD.F64` (R162, R163). -/
def adaptF64 (n : Nat) : Natural → Drawn Word
  | .zero => .pure 0
  | .int v => .pure (i2f64 v)
  | .float (.f32 f) => f2f64 n f
  | .float (.f64 f) => .pure f

/-- The adapter of `RD.BOOL` (R162, R163): 1 for true, 0 for false (R68). -/
def adaptBool (_n : Nat) : Natural → Drawn Word
  | .zero => .pure 0
  | .int v => .pure (if v ≠ 0 then 1 else 0)
  | .float f => .pure (if fzero f then 0 else 1)

/-- The read sequence (R160) with the adapter of a command. -/
def runRead (base : Addr) (len : BitVec 64) (adapt : Nat → Natural → Drawn Word) (s : State) : State :=
  match accessError s.acc len with
  | some st => s.raise st
  | none =>
    let d := adapt s.draws (naturalRead s.acc base s.mem)
    (s.spend d.drew).complete d.val

/-- `RD.U64` (R170). -/
def execRdU64 (base : Addr) (len : BitVec 64) (s : State) : Host.Outcome State Fault Refusal :=
  .next (runRead base len adaptU64 s)

/-- `RD.I64` (R171). -/
def execRdI64 (base : Addr) (len : BitVec 64) (s : State) : Host.Outcome State Fault Refusal :=
  .next (runRead base len adaptI64 s)

/-- `RD.U32` (R172). -/
def execRdU32 (base : Addr) (len : BitVec 64) (s : State) : Host.Outcome State Fault Refusal :=
  .next (runRead base len adaptU32 s)

/-- `RD.I32` (R173). -/
def execRdI32 (base : Addr) (len : BitVec 64) (s : State) : Host.Outcome State Fault Refusal :=
  .next (runRead base len adaptI32 s)

/-- `RD.F32` (R174). -/
def execRdF32 (base : Addr) (len : BitVec 64) (s : State) : Host.Outcome State Fault Refusal :=
  .next (runRead base len adaptF32 s)

/-- `RD.F64` (R175). -/
def execRdF64 (base : Addr) (len : BitVec 64) (s : State) : Host.Outcome State Fault Refusal :=
  .next (runRead base len adaptF64 s)

/-- `RD.BOOL` (R176). -/
def execRdBool (base : Addr) (len : BitVec 64) (s : State) : Host.Outcome State Fault Refusal :=
  .next (runRead base len adaptBool s)

end Sys2Proof.Machine
end

