-- ==== Sys2Proof/Machine/Write.lean ====
section
/-! DEFINITION. The write adapters (43_access.md R165 to R167), the write sequence (R161), and the seven WR commands
(R177 to R183). -/

namespace Sys2Proof.Machine

/-- The pattern for an integer codec of natural width `NW` and signedness `signed` (R165). -/
def intPattern (NW : Nat) (signed : Bool) (n : Nat) : Operand → Drawn (BitVec NW)
  | .int x => .pure (BitVec.ofInt NW x)
  | .float y => (f2i n y signed).map (fun x => x.setWidth NW)
  | .truth b => .pure (if b then BitVec.ofNat NW 1 else 0)

/-- The pattern for a float codec of natural type `F32` (R166). -/
def floatPattern32 (n : Nat) : Operand → Drawn (BitVec 32)
  | .int x => .pure (i2f32 x)
  | .float (.f32 y) => .pure y
  | .float (.f64 y) => f2f32 n y
  | .truth b => .pure (if b then 0x3F800000 else 0)

/-- The pattern for a float codec of natural type `F64` (R166). -/
def floatPattern64 (n : Nat) : Operand → Drawn (BitVec 64)
  | .int x => .pure (i2f64 x)
  | .float (.f32 y) => f2f64 n y
  | .float (.f64 y) => .pure y
  | .truth b => .pure (if b then 0x3FF0000000000000 else 0)

/-- The pattern a write places, in a word of `W` bits (R161): `W` is the field width for the aligned codec and the
staging width for the generic codec, where a float's 32 bits are zero-extended. -/
def pattern (W : Nat) (acc : Acc) (n : Nat) (v : Operand) : Drawn (BitVec W) :=
  if acc.float then
    (if isF64 acc then (floatPattern64 n v).map (fun p => p.setWidth W)
     else (floatPattern32 n v).map (fun p => p.setWidth W))
  else intPattern W acc.signed n v

/-- The buffer after the write of an operand through the codec of an accessor (R161). -/
def naturalWrite (n : Nat) (acc : Acc) (base : Addr) (m : Memory) (v : Operand) : Drawn Memory :=
  match acc.kind with
  | .zero => .pure m
  | .bit => .pure (bitWrite acc base m (operandTruth v))
  | .aligned => (pattern acc.width.toNat acc n v).map (alignedWrite acc.width.toNat acc base m)
  | .gen32 => (pattern (stagingWidth acc) acc n v).map (genericWrite (stagingWidth acc) acc base m)
  | .gen64 => (pattern (stagingWidth acc) acc n v).map (genericWrite (stagingWidth acc) acc base m)

/-- The write sequence (R161). -/
def runWrite (base : Addr) (len : BitVec 64) (v : Operand) (s : State) : State :=
  match accessError s.acc len with
  | some st => s.raise st
  | none =>
    let d := naturalWrite s.draws s.acc base s.mem v
    State.complete (State.spend { s with mem := d.val } d.drew) 0

/-- `WR.U64` (R177). -/
def execWrU64 (base : Addr) (len : BitVec 64) (wdata : Word) (s : State) : Host.Outcome State Fault Refusal :=
  .next (runWrite base len (operandU64 wdata) s)

/-- `WR.I64` (R178). -/
def execWrI64 (base : Addr) (len : BitVec 64) (wdata : Word) (s : State) : Host.Outcome State Fault Refusal :=
  .next (runWrite base len (operandI64 wdata) s)

/-- `WR.U32` (R179). -/
def execWrU32 (base : Addr) (len : BitVec 64) (wdata : Word) (s : State) : Host.Outcome State Fault Refusal :=
  .next (runWrite base len (operandU32 wdata) s)

/-- `WR.I32` (R180). -/
def execWrI32 (base : Addr) (len : BitVec 64) (wdata : Word) (s : State) : Host.Outcome State Fault Refusal :=
  .next (runWrite base len (operandI32 wdata) s)

/-- `WR.F32` (R181). -/
def execWrF32 (base : Addr) (len : BitVec 64) (wdata : Word) (s : State) : Host.Outcome State Fault Refusal :=
  .next (runWrite base len (operandF32 wdata) s)

/-- `WR.F64` (R182). -/
def execWrF64 (base : Addr) (len : BitVec 64) (wdata : Word) (s : State) : Host.Outcome State Fault Refusal :=
  .next (runWrite base len (operandF64 wdata) s)

/-- `WR.BOOL` (R183). -/
def execWrBool (base : Addr) (len : BitVec 64) (wdata : Word) (s : State) : Host.Outcome State Fault Refusal :=
  .next (runWrite base len (operandBool wdata) s)

end Sys2Proof.Machine
end

