-- ==== Sys2Proof/Machine/Dispatch.lean ====
section
/-! DEFINITION. `exec`, one arm per command of the opcode map (30_encoding.md R63). -/

namespace Sys2Proof.Machine

def exec (i : Instr) (s : State) : Host.Outcome State Fault Refusal :=
  match i with
  | .cfg start width tag => Sys2Proof.Machine.execCfg start width tag s
  | .rdU64 base len => Sys2Proof.Machine.execRdU64 base len s
  | .rdI64 base len => Sys2Proof.Machine.execRdI64 base len s
  | .rdU32 base len => Sys2Proof.Machine.execRdU32 base len s
  | .rdI32 base len => Sys2Proof.Machine.execRdI32 base len s
  | .rdF32 base len => Sys2Proof.Machine.execRdF32 base len s
  | .rdF64 base len => Sys2Proof.Machine.execRdF64 base len s
  | .rdBool base len => Sys2Proof.Machine.execRdBool base len s
  | .wrU64 base len wdata => Sys2Proof.Machine.execWrU64 base len wdata s
  | .wrI64 base len wdata => Sys2Proof.Machine.execWrI64 base len wdata s
  | .wrU32 base len wdata => Sys2Proof.Machine.execWrU32 base len wdata s
  | .wrI32 base len wdata => Sys2Proof.Machine.execWrI32 base len wdata s
  | .wrF32 base len wdata => Sys2Proof.Machine.execWrF32 base len wdata s
  | .wrF64 base len wdata => Sys2Proof.Machine.execWrF64 base len wdata s
  | .wrBool base len wdata => Sys2Proof.Machine.execWrBool base len wdata s
  | .swap8 wdata => Sys2Proof.Machine.execSwap8 wdata s
  | .swap16 wdata => Sys2Proof.Machine.execSwap16 wdata s
  | .swap32 wdata => Sys2Proof.Machine.execSwap32 wdata s
  | .swap64 wdata => Sys2Proof.Machine.execSwap64 wdata s

end Sys2Proof.Machine
end

