-- ==== Sys2Proof/Machine/Footprint.lean ====
section
/-! DEFINITION. The footprint of a command (20_memory.md R46): the buffer bytes it reads and those it writes. -/

namespace Sys2Proof.Machine

/-- How a command uses the buffer. -/
inductive Access where
  | none
  | read (base : Addr) (len : BitVec 64)
  | write (base : Addr) (len : BitVec 64)
  deriving DecidableEq, Repr

/-- The buffer access of a command (R46). -/
def accessOf : Instr → Access
  | .cfg _ _ _ => .none
  | .rdU64 base len => .read base len
  | .rdI64 base len => .read base len
  | .rdU32 base len => .read base len
  | .rdI32 base len => .read base len
  | .rdF32 base len => .read base len
  | .rdF64 base len => .read base len
  | .rdBool base len => .read base len
  | .wrU64 base len _ => .write base len
  | .wrI64 base len _ => .write base len
  | .wrU32 base len _ => .write base len
  | .wrI32 base len _ => .write base len
  | .wrF32 base len _ => .write base len
  | .wrF64 base len _ => .write base len
  | .wrBool base len _ => .write base len
  | .swap8 _ => .none
  | .swap16 _ => .none
  | .swap32 _ => .none
  | .swap64 _ => .none

/-- The addresses of buffer bytes `o .. o+n-1` of an accessor. -/
def fieldRange (acc : Acc) (base : Addr) : List Addr := addrRange (fieldAddr acc base) acc.nbytes.toNat

/-- The bytes a command reads (R46). -/
def readSet (i : Instr) (acc : Acc) : List Addr :=
  match accessOf i with
  | .none => []
  | .read base len => if accessError acc len = none ∧ acc.kind ≠ .zero then fieldRange acc base else []
  | .write base len =>
    if accessError acc len = none ∧ acc.kind ≠ .zero ∧ acc.kind ≠ .aligned then fieldRange acc base else []

/-- The bytes a command writes (R46). -/
def writeSet (i : Instr) (acc : Acc) : List Addr :=
  match accessOf i with
  | .none => []
  | .read _ _ => []
  | .write base len => if accessError acc len = none ∧ acc.kind ≠ .zero then fieldRange acc base else []

end Sys2Proof.Machine
end

