-- ==== Sys2Proof/Machine/Port.lean ====
section
/-! DEFINITION. What one input at the ports does: a command (30_encoding.md R60, R62), a command that races with another
agent (20_memory.md R52), a command that reset cuts short (70_reset_and_hazards.md R223). -/

namespace Sys2Proof.Machine

/-- Present a request: a word that spells no command ends with IllegalCommand and does nothing else (R62, R205). -/
def runRequest (r : Request) (s : State) : Host.Outcome State Fault Refusal :=
  match decode r with
  | .ok i => exec i s
  | .error _ => .next (s.raise .illegalCommand)

/-- The bytes a request writes if it is presented in a state (R46). -/
def requestWrites (r : Request) (s : State) : List Addr :=
  match decode r with
  | .ok i => writeSet i s.acc
  | .error _ => []

/-- The memory as a command sees it while another agent writes: at each such byte its read returns any byte (R52). -/
def racedView (n : Nat) (m : Memory) : List (Addr × Byte) → Memory
  | [] => m
  | (a, _) :: rest => racedView n (m.write a (Config.raceByte n a)) rest

/-- The memory after the race: a byte both have written holds the block's value or the other agent's, any other byte
the agent wrote holds the agent's (R52). -/
def settleRace (n : Nat) (writes : List Addr) (m : Memory) : List (Addr × Byte) → Memory
  | [] => m
  | (a, v) :: rest =>
    settleRace n writes (if a ∈ writes ∧ Config.raceBlockWins n a = true then m else m.write a v) rest

/-- Present a request while another agent writes the bytes `others` (R52, log 9). -/
def runRaced (r : Request) (others : List (Addr × Byte)) (s : State) : Host.Outcome State Fault Refusal :=
  match runRequest r { s with mem := racedView s.draws s.mem others } with
  | .next t =>
    .next { t with mem := settleRace s.draws (requestWrites r s) t.mem others, draws := t.draws + 1 }
  | .fault f => .fault f
  | .refused q => .refused q

/-- Of the bytes a command writes, those it had written when reset cut it short: an arbitrary subset (R223). -/
def performedWrites (n : Nat) (writes : List Addr) : List Addr := writes.filter (fun a => Config.cutPerforms n a)

/-- The memory of a command that was cut short: the bytes it had written hold their new value (R223). -/
def cutMemory (new old : Memory) : List Addr → Memory
  | [] => old
  | a :: rest => cutMemory new (old.write a (new.read a)) rest

/-- Present a request and assert reset while it is in progress (R223, log 10), with another agent writing the bytes
`others` meanwhile (R52, log 9): no response, and ACC as after reset. -/
def runCut (r : Request) (others : List (Addr × Byte)) (s : State) : Host.Outcome State Fault Refusal :=
  let performed := performedWrites s.draws (requestWrites r s)
  match runRequest r { s with mem := racedView s.draws s.mem others } with
  | .next t =>
    .next (State.resetBlock
      { s with mem := settleRace s.draws performed (cutMemory t.mem s.mem performed) others, draws := t.draws + 1 })
  | .fault f => .fault f
  | .refused q => .refused q

/-- What the next input does to a state from which it has been taken. -/
def runInput (i : Input) (s : State) : Host.Outcome State Fault Refusal :=
  match i with
  | .command r => runRequest r s
  | .commandRaced r others => runRaced r others s
  | .commandCut r others => runCut r others s
  | .reset => .next s.resetBlock
  | .agentWrite a v => .next { s with mem := s.mem.write a v }

end Sys2Proof.Machine
end

