-- ==== Sys2Proof/Machine/Step.lean ====
section
/-! DEFINITION. One step: the next input at the ports, or nothing where none waits. -/

namespace Sys2Proof.Machine

/-- Take the next input and do what it does; with none waiting the block is idle with ACC held (60_exceptions.md
R218, log 13). -/
def step (s : State) : Host.Outcome State Fault Refusal :=
  match s.inputs with
  | [] => .next s
  | i :: rest => runInput i { s with inputs := rest }

/-- Put the request whose low `nbits` bits are `w`, every higher bit zero, in front of what waits at the command port,
so that the next step runs it (log 1). -/
def State.withFetchWord (s : State) (nbits w : Nat) : State :=
  { s with inputs := .command (Request.ofBits (w % 2 ^ nbits)) :: s.inputs }

end Sys2Proof.Machine
end

