-- ==== Sys2Proof/Safety.lean ====
section
/-! DEFINITION. The terms claims are made in: the invariant of the machine, a run that is safe, the closed forms of a
field (41_codecs.md R126), and the rational value of a floating-point pattern (00_scope.md R14). -/

namespace Sys2Proof.Machine

/-! ### Invariant -/

/-- ACC is what CFG writes for the shape (START, WIDTH, TAG) it holds (10_state.md R30). -/
def Acc.configured (acc : Acc) : Bool :=
  decide (selectKind (tagFloat acc.tag) (acc.start.toNat % 8) acc.width.toNat = some acc.kind) &&
    decide (acc = configuredAcc acc.kind acc.tag acc.start (acc.width.setWidth 32))

/-- A response that is not OK carries no data (60_exceptions.md R207). -/
def Response.clean (q : Response) : Bool := decide (q.status = .ok) || decide (q.rdata = 0)

/-- What every step keeps: the memory in its canonical form, ACC either not valid or as CFG writes it, the last
response clean. -/
structure BlockInv (s : State) : Prop where
  mem : s.mem.wf = true
  acc : s.acc.valid = true → s.acc.configured = true
  rsp : ∀ q, s.rsp = some q → q.clean = true

/-- A run of any length from `s` answers a next state, and one that meets the invariant. -/
def SafeRun (s : State) : Prop := ∀ k, ∃ t, Host.Core.run Sys2Proof.core k s = .next t ∧ BlockInv t

/-- The accessor is configured and the field lies in the buffer (43_access.md R168). -/
structure Ready (s : State) (len : BitVec 64) : Prop where
  valid      : s.acc.valid = true
  configured : s.acc.configured = true
  bounds     : s.acc.start.toNat + s.acc.width.toNat ≤ 8 * len.toNat

/-- The accessor is one of an integer field of two or more bits: aligned or generic, with an integer tag (R100). -/
structure IntegerField (acc : Acc) : Prop where
  kind  : acc.kind = .aligned ∨ acc.kind = .gen32 ∨ acc.kind = .gen64
  float : acc.float = false

/-- The accessor is one of a floating-point field of `w` bits: aligned or generic, with a float tag (R100). -/
structure FloatField (acc : Acc) (w : Nat) : Prop where
  kind  : acc.kind = .aligned ∨ acc.kind = .gen32 ∨ acc.kind = .gen64
  float : acc.float = true
  width : acc.width.toNat = w

/-! ### Closed forms of a field -/

/-- Buffer bit `k` (00_scope.md R7). -/
def bufferBit (m : Memory) (base : Addr) (k : Nat) : Bool := (m.read (bufferAddr base (k / 8))).getLsbD (k % 8)

/-- The bytes of the footprint as one number in the byte order of the tag. -/
def spanInt (acc : Acc) (base : Addr) (m : Memory) : Nat :=
  if acc.bigend then beInt (memRead m (fieldAddr acc base) acc.nbytes.toNat)
  else leInt (memRead m (fieldAddr acc base) acc.nbytes.toNat)

/-- The field `F` of R126. -/
def fieldRaw (acc : Acc) (base : Addr) (m : Memory) : Nat :=
  spanInt acc base m / 2 ^ acc.bitoff.toNat % 2 ^ acc.width.toNat

/-- A `w`-bit number read as unsigned or as two's complement (R9). -/
def asInteger (signed : Bool) (w : Nat) (x : Nat) : Int :=
  if signed = true ∧ 2 ^ (w - 1) ≤ x then (x : Int) - 2 ^ w else x

/-- The integer an integer field holds. -/
def fieldInt (acc : Acc) (base : Addr) (m : Memory) : Int := asInteger acc.signed acc.width.toNat (fieldRaw acc base m)

/-- The `w` low bits of an integer. -/
def wrapTo (w : Nat) (x : Int) : Nat := (x % 2 ^ w).toNat

/-- The seven RD commands, each with the data it answers for an integer `v` (43_access.md R162, 30_encoding.md R68). -/
def integerReads (base : Addr) (len : BitVec 64) (v : Int) : List (Instr × Word) :=
  [(.rdU64 base len, BitVec.ofInt 64 v),
   (.rdI64 base len, BitVec.ofInt 64 v),
   (.rdU32 base len, BitVec.ofNat 64 (wrapTo 32 v)),
   (.rdI32 base len, BitVec.ofNat 64 (wrapTo 32 v)),
   (.rdF32 base len, BitVec.ofNat 64 (i2f32 v).toNat),
   (.rdF64 base len, i2f64 v),
   (.rdBool base len, if v = 0 then 0 else 1)]

/-- The five WR commands that take an integer or a truth value, each with the integer it places in an integer field
(R67, R164, R165). -/
def integerWrites (base : Addr) (len : BitVec 64) (v : Word) : List (Instr × Int) :=
  [(.wrU64 base len v, v.toNat),
   (.wrI64 base len v, if v.toNat < 2 ^ 63 then (v.toNat : Int) else (v.toNat : Int) - 2 ^ 64),
   (.wrU32 base len v, ((v.toNat % 2 ^ 32 : Nat) : Int)),
   (.wrI32 base len v, if v.toNat % 2 ^ 32 < 2 ^ 31 then ((v.toNat % 2 ^ 32 : Nat) : Int)
     else ((v.toNat % 2 ^ 32 : Nat) : Int) - 2 ^ 32),
   (.wrBool base len v, ((v.toNat % 2 : Nat) : Int))]

/-- The seven WR commands, each with the truth it writes through the bit codec (R67, R167). -/
def truthWrites (base : Addr) (len : BitVec 64) (v : Word) : List (Instr × Bool) :=
  [(.wrU64 base len v, decide (v.toNat ≠ 0)),
   (.wrI64 base len v, decide (v.toNat ≠ 0)),
   (.wrU32 base len v, decide (v.toNat % 2 ^ 32 ≠ 0)),
   (.wrI32 base len v, decide (v.toNat % 2 ^ 32 ≠ 0)),
   (.wrF32 base len v, decide (v.toNat % 2 ^ 31 ≠ 0)),
   (.wrF64 base len v, decide (v.toNat % 2 ^ 63 ≠ 0)),
   (.wrBool base len v, decide (v.toNat % 2 = 1))]

/-! ### Values of floating-point patterns -/

/-- The biased exponent of an `F32` pattern, `f[30:23]` (R14). -/
def exponent32 (f : BitVec 32) : ℕ := f.toNat / 2 ^ 23 % 2 ^ 8

/-- The fraction of an `F32` pattern, `f[22:0]` (R14). -/
def fraction32 (f : BitVec 32) : ℕ := f.toNat % 2 ^ 23

/-- The biased exponent of an `F64` pattern, `f[62:52]` (R14). -/
def exponent64 (f : BitVec 64) : ℕ := f.toNat / 2 ^ 52 % 2 ^ 11

/-- The fraction of an `F64` pattern, `f[51:0]` (R14). -/
def fraction64 (f : BitVec 64) : ℕ := f.toNat % 2 ^ 52

/-- The rational value of a finite `F32` pattern, none for an infinity or a NaN (R14; subnormals log 16). -/
def f32Value (f : BitVec 32) : Option ℚ :=
  if exponent32 f = 255 then none
  else some ((if 2 ^ 31 ≤ f.toNat then -1 else 1) *
    (if exponent32 f = 0 then (fraction32 f : ℚ) * 2 ^ (-149 : ℤ)
     else ((2 ^ 23 + fraction32 f : ℕ) : ℚ) * 2 ^ ((exponent32 f : ℤ) - 150)))

/-- The rational value of a finite `F64` pattern, none for an infinity or a NaN (R14; subnormals log 16). -/
def f64Value (f : BitVec 64) : Option ℚ :=
  if exponent64 f = 2047 then none
  else some ((if 2 ^ 63 ≤ f.toNat then -1 else 1) *
    (if exponent64 f = 0 then (fraction64 f : ℚ) * 2 ^ (-1074 : ℤ)
     else ((2 ^ 52 + fraction64 f : ℕ) : ℚ) * 2 ^ ((exponent64 f : ℤ) - 1075)))

/-- The rational value of a finite floating-point value. -/
def floatValue : FloatVal → Option ℚ
  | .f32 f => f32Value f
  | .f64 f => f64Value f

/-- An `F32` pattern that is a NaN (R14). -/
def isNan32 (f : BitVec 32) : Prop := exponent32 f = 255 ∧ fraction32 f ≠ 0

/-- An `F64` pattern that is a NaN (R14). -/
def isNan64 (f : BitVec 64) : Prop := exponent64 f = 2047 ∧ fraction64 f ≠ 0

/-- A rational rounded toward zero to an integer (R15). -/
def towardZero (q : ℚ) : ℤ := if 0 ≤ q then ⌊q⌋ else ⌈q⌉

/-- The range of `F2I` for a signedness (R15). -/
def inRange (signed : Bool) (t : ℤ) : Prop :=
  if signed = true then -2 ^ 63 ≤ t ∧ t < 2 ^ 63 else 0 ≤ t ∧ t < 2 ^ 64

/-- The floating-point value a float field holds: its field bits as a pattern of its format (R108, R124). -/
def fieldFloat (acc : Acc) (base : Addr) (m : Memory) : FloatVal :=
  if acc.width.toNat = 64 then .f64 (BitVec.ofNat 64 (fieldRaw acc base m))
  else .f32 (BitVec.ofNat 32 (fieldRaw acc base m))

end Sys2Proof.Machine
end

