-- ==== Sys2Proof/Certificates/Slice0/Obligations.lean ====
section
/-! DEFINITION. The statements for the provers. Rule numbers are those of spec/; "log <n>" is notes/assumptions/<n>.md. -/

open Sys2Proof Sys2Proof.Machine

/-! ### Encoding (30_encoding.md) -/

/-- R63, R64: each of the nineteen words decodes to its command, with the operands of the ports marked for it. -/
def Obligations.OpcodeMapDecodes : Prop :=
  ∀ (st wi : BitVec 32) (tg : BitVec 8) (ba : Addr) (le : BitVec 64) (wd : Word),
    decode ⟨0x00000001, st, wi, tg, ba, le, wd⟩ = .ok (.cfg st wi tg) ∧
    decode ⟨0x00000010, st, wi, tg, ba, le, wd⟩ = .ok (.rdU64 ba le) ∧
    decode ⟨0x00000011, st, wi, tg, ba, le, wd⟩ = .ok (.rdI64 ba le) ∧
    decode ⟨0x00000012, st, wi, tg, ba, le, wd⟩ = .ok (.rdU32 ba le) ∧
    decode ⟨0x00000013, st, wi, tg, ba, le, wd⟩ = .ok (.rdI32 ba le) ∧
    decode ⟨0x00000014, st, wi, tg, ba, le, wd⟩ = .ok (.rdF32 ba le) ∧
    decode ⟨0x00000015, st, wi, tg, ba, le, wd⟩ = .ok (.rdF64 ba le) ∧
    decode ⟨0x00000016, st, wi, tg, ba, le, wd⟩ = .ok (.rdBool ba le) ∧
    decode ⟨0x00000020, st, wi, tg, ba, le, wd⟩ = .ok (.wrU64 ba le wd) ∧
    decode ⟨0x00000021, st, wi, tg, ba, le, wd⟩ = .ok (.wrI64 ba le wd) ∧
    decode ⟨0x00000022, st, wi, tg, ba, le, wd⟩ = .ok (.wrU32 ba le wd) ∧
    decode ⟨0x00000023, st, wi, tg, ba, le, wd⟩ = .ok (.wrI32 ba le wd) ∧
    decode ⟨0x00000024, st, wi, tg, ba, le, wd⟩ = .ok (.wrF32 ba le wd) ∧
    decode ⟨0x00000025, st, wi, tg, ba, le, wd⟩ = .ok (.wrF64 ba le wd) ∧
    decode ⟨0x00000026, st, wi, tg, ba, le, wd⟩ = .ok (.wrBool ba le wd) ∧
    decode ⟨0x00000030, st, wi, tg, ba, le, wd⟩ = .ok (.swap8 wd) ∧
    decode ⟨0x00000031, st, wi, tg, ba, le, wd⟩ = .ok (.swap16 wd) ∧
    decode ⟨0x00000032, st, wi, tg, ba, le, wd⟩ = .ok (.swap32 wd) ∧
    decode ⟨0x00000033, st, wi, tg, ba, le, wd⟩ = .ok (.swap64 wd)

/-- Decoding the bits of an encoded command gives the command back, with every operand at every value. The place of a
port above bit 31 is the model's choice (log 7). -/
def Obligations.DecodeInvertsEncode : Prop :=
  ∀ i : Instr, decodeTableWord requestBits (encode i).toBits = some i

/-- R62, R63: a word spells a command exactly when it is one of the nineteen. -/
def Obligations.NineteenWordsAreCommands : Prop :=
  ∀ r : Request, (∃ i, decode r = .ok i) ↔
    r.cmd ∈ ([0x01, 0x10, 0x11, 0x12, 0x13, 0x14, 0x15, 0x16, 0x20, 0x21, 0x22, 0x23, 0x24, 0x25, 0x26,
      0x30, 0x31, 0x32, 0x33] : List (BitVec 32))

/-- R64: the ports that are not marked for a command do not change what it decodes to. -/
def Obligations.CommandsIgnoreUnmarkedPorts : Prop :=
  ∀ (r : Request) (st wi : BitVec 32) (tg : BitVec 8) (ba : Addr) (le : BitVec 64) (wd : Word),
    (r.cmd = 0x01 → decode { r with bufBase := ba, bufLen := le, wdata := wd } = decode r) ∧
    (0x10 ≤ r.cmd.toNat ∧ r.cmd.toNat ≤ 0x16 →
      decode { r with opStart := st, opWidth := wi, opTag := tg, wdata := wd } = decode r) ∧
    (0x20 ≤ r.cmd.toNat ∧ r.cmd.toNat ≤ 0x26 →
      decode { r with opStart := st, opWidth := wi, opTag := tg } = decode r) ∧
    (0x30 ≤ r.cmd.toNat ∧ r.cmd.toNat ≤ 0x33 →
      decode { r with opStart := st, opWidth := wi, opTag := tg, bufBase := ba, bufLen := le } = decode r)

/-! ### The step -/

/-- When the request in front of the port decodes to a command, the step is that command at the state from which the
request has been taken. -/
def Obligations.StepRunsDecodedCommand : Prop :=
  ∀ (s : State) (r : Request) (rest : List Input) (i : Instr),
    s.inputs = .command r :: rest → decode r = .ok i → step s = exec i { s with inputs := rest }

/-- R62: a word that spells no command ends with IllegalCommand, with no other effect. -/
def Obligations.IllegalWordReportsIllegalCommand : Prop :=
  ∀ (s : State) (r : Request) (rest : List Input), s.inputs = .command r :: rest →
    r.cmd ∉ ([0x01, 0x10, 0x11, 0x12, 0x13, 0x14, 0x15, 0x16, 0x20, 0x21, 0x22, 0x23, 0x24, 0x25, 0x26,
      0x30, 0x31, 0x32, 0x33] : List (BitVec 32)) →
    step s = .next { s with inputs := rest, rsp := some ⟨.illegalCommand, 0⟩ }

/-- R65: every command, legal or not, gets one response; its data is 0 unless the status is OK and the command is an
RD or SWAP command. -/
def Obligations.EveryCommandGetsAResponse : Prop :=
  ∀ (s : State) (r : Request) (rest : List Input), s.inputs = .command r :: rest →
    ∃ t q, step s = .next t ∧ t.rsp = some q ∧ t.inputs = rest ∧
      (q.rdata ≠ 0 → q.status = .ok ∧
        ((0x10 ≤ r.cmd.toNat ∧ r.cmd.toNat ≤ 0x16) ∨ (0x30 ≤ r.cmd.toNat ∧ r.cmd.toNat ≤ 0x33)))

/-- The model's choice (log 13): with no input the block is idle. -/
def Obligations.IdleStepChangesNothing : Prop := ∀ s : State, s.inputs = [] → step s = .next s

/-- R222, R23: reset clears VALID and leaves the buffer memory as it was. -/
def Obligations.ResetClearsValidAndKeepsMemory : Prop :=
  State.reset.acc.valid = false ∧
  ∀ (s : State) (rest : List Input), s.inputs = .reset :: rest →
    ∃ t, step s = .next t ∧ t.acc.valid = false ∧ t.mem = s.mem ∧ t.inputs = rest

/-- Another agent's write between commands (R32, R51) changes the byte it names and nothing else. -/
def Obligations.AgentWriteChangesOneByte : Prop :=
  ∀ (s : State) (a : Addr) (v : Byte) (rest : List Input), s.inputs = .agentWrite a v :: rest →
    ∃ t, step s = .next t ∧ t.mem.read a = v ∧ (∀ b, b ≠ a → t.mem.read b = s.mem.read b) ∧
      t.acc = s.acc ∧ t.rsp = s.rsp ∧ t.draws = s.draws ∧ t.inputs = rest

/-- R223: a command that reset cuts short gets no response, ACC is not valid after it, and every byte is as it was or,
in the command's write set, as the whole command would have left it. A byte that another agent wrote meanwhile is as
that agent or the block wrote it (R52), and the block ran on a memory that differs from the buffer only at such bytes. -/
def Obligations.CutCommandLeavesOldOrNewBytes : Prop :=
  ∀ (s : State) (r : Request) (others : List (Addr × Byte)) (rest : List Input),
    s.inputs = .commandCut r others :: rest → (others.map Prod.fst).Nodup →
    ∃ (view : Memory) (t u : State), step s = .next t ∧
      runRequest r { s with inputs := rest, mem := view } = .next u ∧
      (∀ a, a ∉ others.map Prod.fst → view.read a = s.mem.read a) ∧
      t.acc.valid = false ∧ t.rsp = none ∧ t.inputs = rest ∧
      (∀ a, a ∉ others.map Prod.fst →
        t.mem.read a = s.mem.read a ∨ (a ∈ requestWrites r s ∧ t.mem.read a = u.mem.read a)) ∧
      (∀ p ∈ others, t.mem.read p.1 = p.2 ∨
        (p.1 ∈ requestWrites r s ∧ t.mem.read p.1 = u.mem.read p.1))

/-- R52: after a race a byte the other agent wrote holds that agent's value or, in the command's write set, the
block's; the block ran on a memory that differs from the buffer only at the raced bytes; any other byte is as the
command alone leaves it. -/
def Obligations.RacedBytesHoldEitherValue : Prop :=
  ∀ (s : State) (r : Request) (others : List (Addr × Byte)) (rest : List Input),
    s.inputs = .commandRaced r others :: rest → (others.map Prod.fst).Nodup →
    ∃ (view : Memory) (t u : State), step s = .next t ∧
      runRequest r { s with inputs := rest, mem := view } = .next u ∧
      (∀ a, a ∉ others.map Prod.fst → view.read a = s.mem.read a ∧ t.mem.read a = u.mem.read a) ∧
      (∀ p ∈ others, t.mem.read p.1 = p.2 ∨
        (p.1 ∈ requestWrites r s ∧ t.mem.read p.1 = u.mem.read p.1)) ∧
      t.acc = u.acc ∧ t.rsp = u.rsp ∧ t.inputs = rest

/-! ### CFG (42_dispatch.md) -/

/-- R152, R202: CFG reports UnsupportedFieldShape in exactly the four cases, and then only the response changes. -/
def Obligations.CfgRejectsUnrealizableShapes : Prop :=
  ∀ (s : State) (start width : BitVec 32) (tag : BitVec 8),
    (exec (.cfg start width tag) s = .next { s with rsp := some ⟨.unsupportedFieldShape, 0⟩ } ↔
      (5 < tag.toNat ∨ 64 < width.toNat ∨
        ((tag.toNat = 4 ∨ tag.toNat = 5) ∧ 2 ≤ width.toNat ∧ width.toNat ≠ 32 ∧ width.toNat ≠ 64) ∨
        (2 ≤ width.toNat ∧ 64 < width.toNat + start.toNat % 8))) ∧
    ∀ t, exec (.cfg start width tag) s = .next t → t.rsp = some ⟨.unsupportedFieldShape, 0⟩ →
      t = { s with rsp := some ⟨.unsupportedFieldShape, 0⟩ }

/-- R27, R29, R145, R147, R148, R149: CFG loads the whole of ACC for every other shape, and changes nothing else but the
response. -/
def Obligations.CfgLoadsTheAccessor : Prop :=
  ∀ (s : State) (start width : BitVec 32) (tag : BitVec 8), tag.toNat ≤ 5 → width.toNat ≤ 64 →
    (tag.toNat = 4 ∨ tag.toNat = 5 → width.toNat ≤ 1 ∨ width.toNat = 32 ∨ width.toNat = 64) →
    (width.toNat ≤ 1 ∨ width.toNat + start.toNat % 8 ≤ 64) →
    ∃ acc : Acc, exec (.cfg start width tag) s = .next { s with acc := acc, rsp := some ⟨.ok, 0⟩ } ∧
      acc.valid = true ∧ acc.start = start ∧ acc.width.toNat = width.toNat ∧ (tagCode acc.tag).toNat = tag.toNat ∧
      acc.kind =
        (if width.toNat = 0 then .zero
         else if width.toNat = 1 then .bit
         else if width.toNat ∈ [8, 16, 32, 64] ∧ start.toNat % 8 = 0 then .aligned
         else if width.toNat + start.toNat % 8 ≤ 32 then .gen32
         else .gen64) ∧
      acc.byteoff.toNat = start.toNat / 8 ∧ acc.bitoff.toNat = start.toNat % 8 ∧
      acc.readmask.toNat = 2 ^ (start.toNat % 8) ∧ acc.clearmask.toNat = 255 - 2 ^ (start.toNat % 8) ∧
      acc.mask.toNat = 2 ^ width.toNat - 1 ∧
      acc.signed = decide (tag.toNat = 0 ∨ tag.toNat = 2) ∧
      acc.bigend = decide (tag.toNat = 2 ∨ tag.toNat = 3 ∨ tag.toNat = 5) ∧
      acc.float = decide (tag.toNat = 4 ∨ tag.toNat = 5) ∧
      (acc.kind = .zero → acc.nbytes = 0 ∧ acc.sw = 0 ∧ acc.shift = 0) ∧
      (acc.kind = .bit → acc.nbytes = 1 ∧ acc.sw = 0 ∧ acc.shift = 0) ∧
      (acc.kind = .aligned → acc.nbytes.toNat = width.toNat / 8 ∧ acc.sw = 0 ∧ acc.shift = 0) ∧
      (acc.kind = .gen32 ∨ acc.kind = .gen64 →
        acc.nbytes.toNat = (width.toNat + start.toNat % 8 + 7) / 8 ∧
        acc.sw = (if acc.kind = .gen32 then 4 else 8) ∧
        acc.shift.toNat = (if acc.bigend then
          (acc.sw.toNat - acc.nbytes.toNat) * 8 + start.toNat % 8 else start.toNat % 8))

/-- R145: which codec a shape that CFG accepts selects. -/
def Obligations.CfgSelectsCodecByTable : Prop :=
  ∀ (s t : State) (start width : BitVec 32) (tag : BitVec 8) (d : Word),
    exec (.cfg start width tag) s = .next t → t.rsp = some ⟨.ok, d⟩ →
    (t.acc.kind = .zero ↔ width.toNat = 0) ∧
    (t.acc.kind = .bit ↔ width.toNat = 1) ∧
    (t.acc.kind = .aligned ↔ width.toNat ∈ [8, 16, 32, 64] ∧ start.toNat % 8 = 0) ∧
    (t.acc.kind = .gen32 ↔ 2 ≤ width.toNat ∧ width.toNat + start.toNat % 8 ≤ 32 ∧
      ¬ (width.toNat ∈ [8, 16, 32, 64] ∧ start.toNat % 8 = 0)) ∧
    (t.acc.kind = .gen64 ↔ 32 < width.toNat + start.toNat % 8 ∧ width.toNat + start.toNat % 8 ≤ 64 ∧
      ¬ (width.toNat ∈ [8, 16, 32, 64] ∧ start.toNat % 8 = 0))

/-- R22, R23: ACC is written only by a CFG that completes with OK, as a whole, and VALID is then set. -/
def Obligations.OnlyCfgWritesAcc : Prop :=
  ∀ (i : Instr) (s t : State), exec i s = .next t → t.acc ≠ s.acc →
    ∃ start width tag, i = .cfg start width tag ∧ t.acc.valid = true ∧ t.acc.configured = true ∧
      t.acc.start = start ∧ t = { s with acc := t.acc, rsp := some ⟨.ok, 0⟩ }

/-- R23: after a command VALID is 1 exactly if it was before or the command was a CFG that completed with OK. -/
def Obligations.ValidIsSetOnlyByCfg : Prop :=
  ∀ (i : Instr) (s t : State), exec i s = .next t →
    (t.acc.valid = true ↔ s.acc.valid = true ∨
      ((∃ start width tag, i = .cfg start width tag) ∧ ∃ d, t.rsp = some ⟨.ok, d⟩))

/-! ### Errors (60_exceptions.md) -/

/-- R204: exactly the RD and WR commands issued while VALID is 0 report NotConfigured, whatever the buffer. -/
def Obligations.UnconfiguredAccessReportsNotConfigured : Prop :=
  ∀ (i : Instr) (s : State),
    (accessOf i ≠ .none ∧ s.acc.valid = false ↔ ∃ t d, exec i s = .next t ∧ t.rsp = some ⟨.notConfigured, d⟩) ∧
    (accessOf i ≠ .none ∧ s.acc.valid = false →
      exec i s = .next { s with rsp := some ⟨.notConfigured, 0⟩ })

/-- R203: exactly the RD and WR commands on a configured accessor that is not the zero codec's, with
`startBit + widthInBits > bufferSize * 8`, report BufferTooSmall. -/
def Obligations.SmallBufferReportsBufferTooSmall : Prop :=
  ∀ (i : Instr) (s : State),
    ((∃ base len, (accessOf i = .read base len ∨ accessOf i = .write base len) ∧ s.acc.valid = true ∧
        s.acc.kind ≠ .zero ∧ 8 * len.toNat < s.acc.start.toNat + s.acc.width.toNat) ↔
      ∃ t d, exec i s = .next t ∧ t.rsp = some ⟨.bufferTooSmall, d⟩) ∧
    ((∃ t d, exec i s = .next t ∧ t.rsp = some ⟨.bufferTooSmall, d⟩) →
      exec i s = .next { s with rsp := some ⟨.bufferTooSmall, 0⟩ })

/-- R160, R161, R206: an RD or WR command on a configured accessor completes with OK, whatever its operand and whatever
memory holds, if the accessor is the zero codec's or the field lies in the buffer; only a WR changes memory. -/
def Obligations.ConfiguredAccessCompletes : Prop :=
  ∀ (i : Instr) (s : State) (base : Addr) (len : BitVec 64),
    accessOf i = .read base len ∨ accessOf i = .write base len → s.acc.valid = true →
    s.acc.kind = .zero ∨ s.acc.start.toNat + s.acc.width.toNat ≤ 8 * len.toNat →
    ∃ t d, exec i s = .next t ∧ t.rsp = some ⟨.ok, d⟩ ∧ t.acc = s.acc ∧ t.inputs = s.inputs ∧
      (accessOf i = .read base len → t.mem = s.mem) ∧ (accessOf i = .write base len → d = 0)

/-- R207: a command word, legal or not, that ends with a status other than OK changes nothing but the response, whose
data is 0, and does the same whatever memory holds. -/
def Obligations.ErrorsArePrecise : Prop :=
  ∀ (r : Request) (s t : State) (q : Response), runRequest r s = .next t → t.rsp = some q → q.status ≠ .ok →
    t = { s with rsp := some ⟨q.status, 0⟩ } ∧
    ∀ m : Memory, runRequest r { s with mem := m } = .next { s with mem := m, rsp := some ⟨q.status, 0⟩ }

/-! ### Footprints (20_memory.md) -/

/-- R47: the footprint lies inside the buffer window when the bounds check passes. -/
def Obligations.FootprintLiesInWindow : Prop :=
  ∀ (acc : Acc) (len : BitVec 64), acc.configured = true → acc.kind ≠ .zero →
    acc.nbytes.toNat = (acc.bitoff.toNat + acc.width.toNat + 7) / 8 ∧
    (acc.start.toNat + acc.width.toNat ≤ 8 * len.toNat → acc.byteoff.toNat + acc.nbytes.toNat ≤ len.toNat)

/-- R46: no command changes a byte outside its write set. -/
def Obligations.WritesStayInWriteSet : Prop :=
  ∀ (i : Instr) (s t : State), (s.acc.valid = true → s.acc.configured = true) → exec i s = .next t →
    ∀ a, a ∉ writeSet i s.acc → t.mem.read a = s.mem.read a

/-- R46: what a command answers and writes depends on no byte outside its read set. Where the command makes a draw of
R6, the two runs share it (log 5): the statement is of one and the same draw, whatever it is. -/
def Obligations.ResultsDependOnlyOnReadSet : Prop :=
  ∀ (i : Instr) (s t : State) (m : Memory), (s.acc.valid = true → s.acc.configured = true) →
    (∀ a ∈ readSet i s.acc, m.read a = s.mem.read a) → exec i s = .next t →
    ∃ u, exec i { s with mem := m } = .next u ∧ u.rsp = t.rsp ∧ u.acc = t.acc ∧ u.draws = t.draws ∧
      u.inputs = t.inputs ∧ ∀ a ∈ writeSet i s.acc, u.mem.read a = t.mem.read a

/-- The read commands and the commands without a buffer write no byte of memory and no register but ACC by CFG. -/
def Obligations.ReadsAndSwapsWriteNoState : Prop :=
  ∀ (i : Instr) (s t : State), (∀ base len, accessOf i ≠ .write base len) → exec i s = .next t →
    t.mem = s.mem ∧ t.inputs = s.inputs ∧
      ((∀ start width tag, i ≠ .cfg start width tag) → t.acc = s.acc) ∧ s.draws ≤ t.draws ∧ t.draws ≤ s.draws + 1

/-! ### SWAP (40_byteswap.md) -/

/-- R87, R88, R89, R90: what each SWAP command answers; nothing else changes. -/
def Obligations.SwapCommandsAnswerSwappedBytes : Prop :=
  ∀ (s : State) (v : Word),
    exec (.swap8 v) s = .next { s with rsp := some ⟨.ok, BitVec.ofNat 64 (v.toNat % 2 ^ 8)⟩ } ∧
    exec (.swap16 v) s = .next { s with rsp := some ⟨.ok, BitVec.ofNat 64 (beInt (leBytes 2 v.toNat))⟩ } ∧
    exec (.swap32 v) s = .next { s with rsp := some ⟨.ok, BitVec.ofNat 64 (beInt (leBytes 4 v.toNat))⟩ } ∧
    exec (.swap64 v) s = .next { s with rsp := some ⟨.ok, BitVec.ofNat 64 (beInt (leBytes 8 v.toNat))⟩ }

/-- R84: each swap is an involution, and the swap of a little-endian-loaded word is the big-endian number. -/
def Obligations.SwapIsInvolutionAndByteReversal : Prop :=
  (∀ v, bswap16 (bswap16 v) = v) ∧ (∀ v, bswap32 (bswap32 v) = v) ∧ (∀ v, bswap64 (bswap64 v) = v) ∧
  ∀ b : List Byte,
    (b.length = 2 → bswap16 (BitVec.ofNat 16 (leInt b)) = BitVec.ofNat 16 (beInt b)) ∧
    (b.length = 4 → bswap32 (BitVec.ofNat 32 (leInt b)) = BitVec.ofNat 32 (beInt b)) ∧
    (b.length = 8 → bswap64 (BitVec.ofNat 64 (leInt b)) = BitVec.ofNat 64 (beInt b))

/-! ### Zero and bit codecs (41_codecs.md) -/

/-- R116, R117, R118: on a zero-codec accessor every RD answers zero and every WR does nothing, whatever the buffer. -/
def Obligations.ZeroCodecReadsZeroWritesNothing : Prop :=
  ∀ (s : State) (base : Addr) (len : BitVec 64) (v : Word), s.acc.valid = true → s.acc.kind = .zero →
    (∀ p ∈ integerReads base len 0, exec p.1 s = .next { s with rsp := some ⟨.ok, 0⟩ }) ∧
    (∀ p ∈ truthWrites base len v, exec p.1 s = .next { s with rsp := some ⟨.ok, 0⟩ })

/-- R113: a bit-codec read answers 1 or, for a signed tag, -1 if buffer bit START is set, and 0 if it is clear. -/
def Obligations.BitReadAnswersBufferBit : Prop :=
  ∀ (s : State) (base : Addr) (len : BitVec 64), Ready s len → s.acc.kind = .bit →
    ∀ p ∈ integerReads base len
      (if bufferBit s.mem base s.acc.start.toNat then (if s.acc.signed then -1 else 1) else 0),
      exec p.1 s = .next { s with rsp := some ⟨.ok, p.2⟩ }

/-- R115, R167: a bit-codec write sets buffer bit START to the truth of the operand and changes no other bit of the
byte and no other byte. -/
def Obligations.BitWriteSetsOneBit : Prop :=
  ∀ (s : State) (base : Addr) (len : BitVec 64) (v : Word), Ready s len → s.acc.kind = .bit →
    ∀ p ∈ truthWrites base len v, ∃ t, exec p.1 s = .next t ∧
      t.acc = s.acc ∧ t.inputs = s.inputs ∧ t.draws = s.draws ∧ t.rsp = some ⟨.ok, 0⟩ ∧
      bufferBit t.mem base s.acc.start.toNat = p.2 ∧
      (∀ j < 8, j ≠ s.acc.start.toNat % 8 →
        (t.mem.read (fieldAddr s.acc base)).getLsbD j = (s.mem.read (fieldAddr s.acc base)).getLsbD j) ∧
      ∀ a, a ≠ fieldAddr s.acc base → t.mem.read a = s.mem.read a

/-! ### Integer fields, aligned and generic (41_codecs.md, 43_access.md) -/

/-- R126, R162: what every RD command answers for an integer field, from the closed form of the field. -/
def Obligations.IntegerReadsAnswerFieldValue : Prop :=
  ∀ (s : State) (base : Addr) (len : BitVec 64), Ready s len → IntegerField s.acc →
    ∀ p ∈ integerReads base len (fieldInt s.acc base s.mem),
      exec p.1 s = .next { s with rsp := some ⟨.ok, p.2⟩ }

/-- R126: where the bits of a field lie in the buffer, for each byte order. -/
def Obligations.FieldBitsLieWhereTheTagPutsThem : Prop :=
  ∀ (s : State) (base : Addr) (len : BitVec 64), Ready s len → IntegerField s.acc →
    ∃ d : Word, exec (.rdU64 base len) s = .next { s with rsp := some ⟨.ok, d⟩ } ∧
      (s.acc.bigend = false → ∀ i < s.acc.width.toNat,
        d.getLsbD i = bufferBit s.mem base (s.acc.start.toNat + i)) ∧
      (s.acc.bigend = true → ∀ i < s.acc.width.toNat,
        d.getLsbD i = (s.mem.read (bufferAddr base (s.acc.byteoff.toNat + s.acc.nbytes.toNat - 1
          - (s.acc.bitoff.toNat + i) / 8))).getLsbD ((s.acc.bitoff.toNat + i) % 8)) ∧
      (∀ i, s.acc.width.toNat ≤ i → i < 64 →
        d.getLsbD i = (s.acc.signed && d.getLsbD (s.acc.width.toNat - 1)))

/-- R109, R110, R165: an aligned write of an integer or a truth value replaces the bytes of the footprint, in the byte
order of the tag, and changes no other byte. -/
def Obligations.AlignedIntegerWriteReplacesBytes : Prop :=
  ∀ (s : State) (base : Addr) (len : BitVec 64) (v : Word), Ready s len → s.acc.kind = .aligned →
    s.acc.float = false → ∀ p ∈ integerWrites base len v, ∃ t, exec p.1 s = .next t ∧
      t.acc = s.acc ∧ t.inputs = s.inputs ∧ t.draws = s.draws ∧ t.rsp = some ⟨.ok, 0⟩ ∧
      memRead t.mem (fieldAddr s.acc base) (s.acc.width.toNat / 8) =
        (if s.acc.bigend then beBytes (s.acc.width.toNat / 8) (wrapTo s.acc.width.toNat p.2)
         else leBytes (s.acc.width.toNat / 8) (wrapTo s.acc.width.toNat p.2)) ∧
      ∀ a, a ∉ addrRange (fieldAddr s.acc base) (s.acc.width.toNat / 8) → t.mem.read a = s.mem.read a

/-- R130: a generic write of an integer or a truth value ORs the field's low bits into place: the field holds the OR of
old and new, no other bit of the footprint and no other byte changes. -/
def Obligations.GenericIntegerWriteOrsField : Prop :=
  ∀ (s : State) (base : Addr) (len : BitVec 64) (v : Word), Ready s len →
    (s.acc.kind = .gen32 ∨ s.acc.kind = .gen64) → s.acc.float = false →
    ∀ p ∈ integerWrites base len v, ∃ t, exec p.1 s = .next t ∧
      t.acc = s.acc ∧ t.inputs = s.inputs ∧ t.draws = s.draws ∧ t.rsp = some ⟨.ok, 0⟩ ∧
      spanInt s.acc base t.mem =
        spanInt s.acc base s.mem ||| (wrapTo s.acc.width.toNat p.2 <<< s.acc.bitoff.toNat) ∧
      fieldRaw s.acc base t.mem = fieldRaw s.acc base s.mem ||| wrapTo s.acc.width.toNat p.2 ∧
      ∀ a, a ∉ addrRange (fieldAddr s.acc base) s.acc.nbytes.toNat → t.mem.read a = s.mem.read a

/-- R128, R129: a WR command on a generic accessor, whatever its operand, clears no bit of memory. -/
def Obligations.GenericWriteClearsNoBit : Prop :=
  ∀ (i : Instr) (s t : State), s.acc.kind = .gen32 ∨ s.acc.kind = .gen64 → exec i s = .next t →
    ∀ (a : Addr) (k : Nat), (s.mem.read a).getLsbD k = true → (t.mem.read a).getLsbD k = true

/-- R110, R131: writing an integer through an aligned accessor, or through a generic one whose field bits are all zero,
and reading it back gives the integer wrapped to the field's width, with the sign of the tag. -/
def Obligations.IntegerFieldRoundTrip : Prop :=
  ∀ (s : State) (base : Addr) (len : BitVec 64) (v : Word), Ready s len → IntegerField s.acc →
    (s.acc.kind = .aligned ∨ fieldRaw s.acc base s.mem = 0) →
    ∀ p ∈ integerWrites base len v, ∃ t, exec p.1 s = .next t ∧
      ∀ q ∈ integerReads base len (asInteger s.acc.signed s.acc.width.toNat (wrapTo s.acc.width.toNat p.2)),
        exec q.1 t = .next { t with rsp := some ⟨.ok, q.2⟩ }

/-- R178: on an accessor whose tag is not a float tag, `WR.I64` and `WR.U64` of the same data do the same. -/
def Obligations.SignedAndUnsignedWritesAgree : Prop :=
  ∀ (s : State) (base : Addr) (len : BitVec 64) (v : Word), Ready s len → s.acc.float = false →
    ∃ t, exec (.wrI64 base len v) s = .next t ∧ exec (.wrU64 base len v) s = .next t

/-- R165: writing a finite float through an integer accessor, in range, is writing the float rounded toward zero.
Subnormal operands are read as IEEE-754 gives them (log 16). -/
def Obligations.FloatWriteToIntegerFieldTruncates : Prop :=
  ∀ (s : State) (base : Addr) (len : BitVec 64) (v : Word) (q : ℚ), Ready s len → IntegerField s.acc →
    (f32Value (v.setWidth 32) = some q → inRange s.acc.signed (towardZero q) →
      ∃ t, exec (.wrF32 base len v) s = .next t ∧
        exec (.wrI64 base len (BitVec.ofInt 64 (towardZero q))) s = .next t) ∧
    (f64Value v = some q → inRange s.acc.signed (towardZero q) →
      ∃ t, exec (.wrF64 base len v) s = .next t ∧
        exec (.wrI64 base len (BitVec.ofInt 64 (towardZero q))) s = .next t)

/-- R15, R165: writing a float that has no integer in range through an integer accessor completes and writes the draw
`F2I_INVALID`, whatever it is. -/
def Obligations.UnconvertibleFloatWriteIsADraw : Prop :=
  ∀ (s : State) (base : Addr) (len : BitVec 64) (v : Word), Ready s len → IntegerField s.acc →
    ((∀ q, f32Value (v.setWidth 32) = some q → ¬ inRange s.acc.signed (towardZero q)) →
      ∃ t, exec (.wrU64 base len (Config.f2iInvalid s.draws (.f32 (v.setWidth 32)) s.acc.signed)) s = .next t ∧
        exec (.wrF32 base len v) s = .next { t with draws := s.draws + 1 }) ∧
    ((∀ q, f64Value v = some q → ¬ inRange s.acc.signed (towardZero q)) →
      ∃ t, exec (.wrU64 base len (Config.f2iInvalid s.draws (.f64 v) s.acc.signed)) s = .next t ∧
        exec (.wrF64 base len v) s = .next { t with draws := s.draws + 1 })

/-! ### Float fields, aligned and generic -/

/-- R108, R125, R163: a read in the field's own format answers its bits, NaN payloads included, and `RD.BOOL` answers 0
exactly for the two zeros. -/
def Obligations.FloatReadInOwnFormatKeepsBits : Prop :=
  ∀ (s : State) (base : Addr) (len : BitVec 64), Ready s len →
    (FloatField s.acc 32 →
      exec (.rdF32 base len) s = .next { s with rsp := some ⟨.ok, BitVec.ofNat 64 (fieldRaw s.acc base s.mem)⟩ } ∧
      exec (.rdBool base len) s = .next { s with
        rsp := some ⟨.ok, if fieldRaw s.acc base s.mem % 2 ^ 31 = 0 then 0 else 1⟩ }) ∧
    (FloatField s.acc 64 →
      exec (.rdF64 base len) s = .next { s with rsp := some ⟨.ok, BitVec.ofNat 64 (fieldRaw s.acc base s.mem)⟩ } ∧
      exec (.rdBool base len) s = .next { s with
        rsp := some ⟨.ok, if fieldRaw s.acc base s.mem % 2 ^ 63 = 0 then 0 else 1⟩ })

/-- R163: an integer read of a float field answers the value rounded toward zero where that is in range, wrapped to the
command's width. Subnormals are read as IEEE-754 gives them (log 16). -/
def Obligations.IntegerReadOfFloatFieldTruncates : Prop :=
  ∀ (s : State) (base : Addr) (len : BitVec 64) (w : Nat) (q : ℚ), Ready s len → FloatField s.acc w →
    floatValue (fieldFloat s.acc base s.mem) = some q →
    (inRange false (towardZero q) →
      exec (.rdU64 base len) s = .next { s with rsp := some ⟨.ok, BitVec.ofInt 64 (towardZero q)⟩ } ∧
      exec (.rdU32 base len) s = .next { s with
        rsp := some ⟨.ok, BitVec.ofNat 64 (wrapTo 32 (towardZero q))⟩ }) ∧
    (inRange true (towardZero q) →
      exec (.rdI64 base len) s = .next { s with rsp := some ⟨.ok, BitVec.ofInt 64 (towardZero q)⟩ } ∧
      exec (.rdI32 base len) s = .next { s with
        rsp := some ⟨.ok, BitVec.ofNat 64 (wrapTo 32 (towardZero q))⟩ })

/-- R15, R163: an integer read of a float field whose value has no integer in range completes with the draw
`F2I_INVALID`, whatever it is, wrapped to the command's width. -/
def Obligations.UnconvertibleFloatReadIsADraw : Prop :=
  ∀ (s : State) (base : Addr) (len : BitVec 64) (w : Nat), Ready s len → FloatField s.acc w →
    ∀ signed : Bool,
    (∀ q, floatValue (fieldFloat s.acc base s.mem) = some q → ¬ inRange signed (towardZero q)) →
    exec (if signed then .rdI64 base len else .rdU64 base len) s = .next { s with
      draws := s.draws + 1
      rsp := some ⟨.ok, Config.f2iInvalid s.draws (fieldFloat s.acc base s.mem) signed⟩ } ∧
    exec (if signed then .rdI32 base len else .rdU32 base len) s = .next { s with
      draws := s.draws + 1
      rsp := some ⟨.ok, BitVec.ofNat 64
        ((Config.f2iInvalid s.draws (fieldFloat s.acc base s.mem) signed).toNat % 2 ^ 32)⟩ }

/-- R15, R163: a read in the other format completes: an F32 value widened keeps its value and sign, a NaN answers some
NaN of the format read, and an infinity the infinity of its sign. The values of subnormals and the signs of zeros and of
results rounded to zero are as IEEE-754 gives them, which is PRESUMED (log 16). -/
def Obligations.FloatReadInOtherFormatConverts : Prop :=
  ∀ (s : State) (base : Addr) (len : BitVec 64), Ready s len →
    (∀ f, FloatField s.acc 32 → fieldFloat s.acc base s.mem = .f32 f →
      ∃ d k, exec (.rdF64 base len) s = .next { s with draws := s.draws + k, rsp := some ⟨.ok, d⟩ } ∧
        (¬ isNan32 f → k = 0 ∧ f64Value d = f32Value f ∧ d.getLsbD 63 = f.getLsbD 31 ∧ ¬ isNan64 d) ∧
        (isNan32 f → k = 1 ∧ isNan64 d)) ∧
    (∀ f, FloatField s.acc 64 → fieldFloat s.acc base s.mem = .f64 f →
      ∃ (d : BitVec 32) (k : Nat),
        exec (.rdF32 base len) s = .next { s with draws := s.draws + k, rsp := some ⟨.ok, d.setWidth 64⟩ } ∧
        (¬ isNan64 f → k = 0 ∧ d = (f2f32 s.draws f).val ∧ d.getLsbD 31 = f.getLsbD 63 ∧ ¬ isNan32 d ∧
          (f64Value f = none → f32Value d = none)) ∧
        (isNan64 f → k = 1 ∧ isNan32 d))

/-- R109, R130, R166: a write in the field's own format places the pattern, NaN payloads included: an aligned field
holds it, a generic one the OR of old and new, and no other bit of the footprint and no byte outside it changes. -/
def Obligations.FloatWriteInOwnFormatPlacesBits : Prop :=
  ∀ (s : State) (base : Addr) (len : BitVec 64) (v : Word), Ready s len →
    ∀ w, FloatField s.acc w →
    ∃ t, exec (if w = 64 then .wrF64 base len v else .wrF32 base len v) s = .next t ∧
      t.acc = s.acc ∧ t.inputs = s.inputs ∧ t.draws = s.draws ∧ t.rsp = some ⟨.ok, 0⟩ ∧
      fieldRaw s.acc base t.mem =
        (if s.acc.kind = .aligned then v.toNat % 2 ^ w else fieldRaw s.acc base s.mem ||| v.toNat % 2 ^ w) ∧
      spanInt s.acc base t.mem =
        (if s.acc.kind = .aligned then v.toNat % 2 ^ w
         else spanInt s.acc base s.mem ||| ((v.toNat % 2 ^ w) <<< s.acc.bitoff.toNat)) ∧
      ∀ a, a ∉ addrRange (fieldAddr s.acc base) s.acc.nbytes.toNat → t.mem.read a = s.mem.read a

/-- R166: writing an integer or a truth value to a float field is writing the integer converted to its format. For the
truth false R166 gives the pattern of all zeros, so the statement takes `i2f(0)` to be +0, a sign of zero that R15 does
not fix: PRESUMED (log 16). -/
def Obligations.IntegerWriteToFloatFieldConverts : Prop :=
  ∀ (s : State) (base : Addr) (len : BitVec 64) (v : Word), Ready s len →
    ∀ p ∈ integerWrites base len v,
      (FloatField s.acc 32 → ∃ t, exec p.1 s = .next t ∧
        exec (.wrF32 base len (BitVec.ofNat 64 (i2f32 p.2).toNat)) s = .next t) ∧
      (FloatField s.acc 64 → ∃ t, exec p.1 s = .next t ∧ exec (.wrF64 base len (i2f64 p.2)) s = .next t)

/-- R166: writing a float to a field of the other format is writing the converted float: a value that is not a NaN goes
to an F32 field rounded and to an F64 field exactly, and a NaN becomes some NaN of the field's format, a draw. The
values of subnormals and the signs of zeros are as IEEE-754 gives them, which is PRESUMED (log 16). -/
def Obligations.FloatWriteInOtherFormatConverts : Prop :=
  ∀ (s : State) (base : Addr) (len : BitVec 64) (v : Word), Ready s len →
    (FloatField s.acc 32 → ∃ (g : BitVec 32) (k : Nat) (t : State),
      (isNan64 v → isNan32 g ∧ k = 1) ∧ (¬ isNan64 v → g = (f2f32 s.draws v).val ∧ k = 0) ∧
      exec (.wrF32 base len (g.setWidth 64)) s = .next t ∧
      exec (.wrF64 base len v) s = .next { t with draws := s.draws + k }) ∧
    (FloatField s.acc 64 → ∃ (d : BitVec 64) (k : Nat) (t : State),
      (isNan32 (v.setWidth 32) → isNan64 d ∧ k = 1) ∧
      (¬ isNan32 (v.setWidth 32) → f64Value d = f32Value (v.setWidth 32) ∧
        d.getLsbD 63 = (v.setWidth 32).getLsbD 31 ∧ ¬ isNan64 d ∧ k = 0) ∧
      exec (.wrF64 base len d) s = .next t ∧
      exec (.wrF32 base len v) s = .next { t with draws := s.draws + k })

/-- R131: a float written through an accessor of its own format, generic ones on zero field bits, reads back bit for
bit. -/
def Obligations.FloatFieldRoundTrip : Prop :=
  ∀ (s : State) (base : Addr) (len : BitVec 64) (v : Word), Ready s len →
    (s.acc.kind = .aligned ∨ fieldRaw s.acc base s.mem = 0) →
    (FloatField s.acc 32 → ∃ t, exec (.wrF32 base len v) s = .next t ∧
      exec (.rdF32 base len) t = .next { t with rsp := some ⟨.ok, BitVec.ofNat 64 (v.toNat % 2 ^ 32)⟩ }) ∧
    (FloatField s.acc 64 → ∃ t, exec (.wrF64 base len v) s = .next t ∧
      exec (.rdF64 base len) t = .next { t with rsp := some ⟨.ok, v⟩ })

/-! ### Conversions (00_scope.md R15) -/

/-- R15: `i2f_32` gives the representable value nearest the integer, and of two equally near the one whose fraction is
even. The values of the subnormals it is compared with are as IEEE-754 gives them (log 16). -/
def Obligations.IntegerToF32RoundsToNearestEven : Prop :=
  ∀ x : ℤ, |x| < 2 ^ 64 → ∃ q, f32Value (i2f32 x) = some q ∧
    ∀ g r, f32Value g = some r →
      |q - x| ≤ |r - x| ∧ (|q - x| = |r - x| → r ≠ q → (i2f32 x).getLsbD 0 = false)

/-- R15: `i2f_64` gives the representable value nearest the integer, and of two equally near the one whose fraction is
even. The values of the subnormals it is compared with are as IEEE-754 gives them (log 16). -/
def Obligations.IntegerToF64RoundsToNearestEven : Prop :=
  ∀ x : ℤ, |x| < 2 ^ 64 → ∃ q, f64Value (i2f64 x) = some q ∧
    ∀ g r, f64Value g = some r →
      |q - x| ≤ |r - x| ∧ (|q - x| = |r - x| → r ≠ q → (i2f64 x).getLsbD 0 = false)

/-- R15: `f2f_32` of a finite value is the nearest `F32`, ties to even, or from `2^128 - 2^103` upward in magnitude the
infinity of its sign. That threshold, and how subnormal results are rounded, are IEEE-754's (log 16). -/
def Obligations.NarrowingRoundsToNearestEven : Prop :=
  ∀ (n : Nat) (f : BitVec 64) (x : ℚ), f64Value f = some x →
    (f2f32 n f).drew = false ∧
    (2 ^ 128 - 2 ^ 103 ≤ |x| → (f2f32 n f).val.toNat = (if f.getLsbD 63 then 0xFF800000 else 0x7F800000)) ∧
    (|x| < 2 ^ 128 - 2 ^ 103 → ∃ q, f32Value (f2f32 n f).val = some q ∧
      ∀ g r, f32Value g = some r →
        |q - x| ≤ |r - x| ∧ (|q - x| = |r - x| → r ≠ q → (f2f32 n f).val.getLsbD 0 = false))

/-- R15: narrowing undoes widening on every pattern that is not a NaN, subnormals and both zeros included (log 16). -/
def Obligations.NarrowingUndoesWidening : Prop :=
  ∀ (n k : Nat) (f : BitVec 32), ¬ isNan32 f → (f2f32 n (f2f64 k f).val).val = f

/-! ### Invariants -/

/-- The invariant holds at reset, where ACC is not valid (R221). That no response stands there is the model's choice
(log 4). -/
def Obligations.InvariantHoldsAtReset : Prop :=
  BlockInv State.reset ∧ State.reset.acc.valid = false ∧ State.reset.rsp = none

/-- Every step keeps the invariant: memory in its canonical form, ACC as CFG writes it, the last response clean. -/
def Obligations.StepKeepsInvariant : Prop := ∀ s t : State, BlockInv s → step s = .next t → BlockInv t

/-- No run from a state that meets the invariant stops with a fault or a refusal, and the invariant holds all along. -/
def Obligations.EveryRunIsSafe : Prop := ∀ s : State, BlockInv s → SafeRun s

/-- R22: while VALID is 0 no step lets any other field of ACC be observed: with other contents of ACC the step answers
the same, and leaves ACC the same once it is valid. -/
def Obligations.UnspecifiedAccIsNotObservable : Prop :=
  ∀ (s t : State) (a : Acc), s.acc.valid = false → a.valid = false → step s = .next t →
    ∃ b : Acc, b.valid = t.acc.valid ∧ (t.acc.valid = true → b = t.acc) ∧
      step { s with acc := a } = .next { t with acc := b }
end

