-- ==== Sys2Proof/Laws/Bytes.lean ====
section
/-! SUPPORT. Byte sequences and numbers (00_scope.md R11): each direction undoes the other, and where a bit lies. -/

namespace Sys2Proof.Machine

@[simp] theorem leBytes_length (n x : Nat) : (leBytes n x).length = n := by
  induction n generalizing x with
  | zero => rfl
  | succ n ih => simp [leBytes, ih]

@[simp] theorem beBytes_length (n x : Nat) : (beBytes n x).length = n := by simp [beBytes]

theorem leInt_lt (bs : List Byte) : leInt bs < 2 ^ (8 * bs.length) := by
  induction bs with
  | nil => simp [leInt]
  | cons b bs ih =>
    have hb := b.isLt
    simp only [leInt, List.length_cons, Nat.mul_add, Nat.pow_add]
    omega

theorem leInt_append (as bs : List Byte) : leInt (as ++ bs) = leInt as + 2 ^ (8 * as.length) * leInt bs := by
  induction as with
  | nil => simp [leInt]
  | cons a as ih =>
    simp only [List.cons_append, leInt, ih, List.length_cons, Nat.mul_add, Nat.pow_add]
    ring

theorem beInt_eq_leInt_reverse (bs : List Byte) : beInt bs = leInt bs.reverse := by
  induction bs with
  | nil => rfl
  | cons b bs ih =>
    rw [beInt, List.reverse_cons, leInt_append, ih, List.length_reverse]
    simp [leInt, Nat.mul_comm, Nat.add_comm]

theorem beInt_lt (bs : List Byte) : beInt bs < 2 ^ (8 * bs.length) := by
  rw [beInt_eq_leInt_reverse, ← List.length_reverse]
  exact leInt_lt _

theorem leInt_leBytes (n x : Nat) : leInt (leBytes n x) = x % 2 ^ (8 * n) := by
  induction n generalizing x with
  | zero => simp [leBytes, leInt, Nat.mod_one]
  | succ n ih =>
    simp only [leBytes, leInt, ih, BitVec.toNat_ofNat]
    rw [show 2 ^ (8 * (n + 1)) = 2 ^ 8 * 2 ^ (8 * n) by rw [← Nat.pow_add]; ring_nf, Nat.mod_mul]

theorem leBytes_leInt (bs : List Byte) : leBytes bs.length (leInt bs) = bs := by
  induction bs with
  | nil => rfl
  | cons b bs ih =>
    have hb := b.isLt
    have h1 : (b.toNat + 2 ^ 8 * leInt bs) / 2 ^ 8 = leInt bs := by omega
    rw [List.length_cons, leBytes, leInt, h1, ih]
    congr 1
    apply BitVec.eq_of_toNat_eq
    simp only [BitVec.toNat_ofNat]
    omega

theorem beInt_beBytes (n x : Nat) : beInt (beBytes n x) = x % 2 ^ (8 * n) := by
  rw [beInt_eq_leInt_reverse, beBytes, List.reverse_reverse, leInt_leBytes]

theorem beBytes_beInt (bs : List Byte) : beBytes bs.length (beInt bs) = bs := by
  rw [beInt_eq_leInt_reverse, beBytes, ← List.length_reverse, leBytes_leInt, List.reverse_reverse]

theorem leBytes_mod (n x : Nat) : leBytes n (x % 2 ^ (8 * n)) = leBytes n x := by
  have h := leBytes_leInt (leBytes n x)
  rwa [leInt_leBytes, leBytes_length] at h

theorem leBytes_take (k n x : Nat) (h : k ≤ n) : (leBytes n x).take k = leBytes k x := by
  induction k generalizing n x with
  | zero => simp [leBytes]
  | succ k ih =>
    cases n with
    | zero => omega
    | succ n => simp [leBytes, ih n _ (by omega)]

/-- Bit `i` of a little-endian number is bit `i mod 8` of byte `i div 8`. -/
theorem leInt_testBit (bs : List Byte) (i : Nat) :
    (leInt bs).testBit i = (bs[i / 8]?.getD 0).getLsbD (i % 8) := by
  induction bs generalizing i with
  | nil => simp [leInt]
  | cons b bs ih =>
    have hb : b.toNat < 2 ^ 8 := b.isLt
    rw [leInt, Nat.add_comm, Nat.testBit_two_pow_mul_add _ hb]
    by_cases hi : i < 8
    · simp [hi, Nat.div_eq_of_lt hi, Nat.mod_eq_of_lt hi, BitVec.getLsbD]
    · have h1 : i / 8 = (i - 8) / 8 + 1 := by omega
      have h2 : (i - 8) % 8 = i % 8 := by omega
      simp [hi, ih, h1, h2]

/-- The number of a byte-wise OR is the OR of the numbers. -/
theorem leInt_zipWith_or (as bs : List Byte) (h : as.length = bs.length) :
    leInt (List.zipWith (fun x y => x ||| y) as bs) = leInt as ||| leInt bs := by
  apply Nat.eq_of_testBit_eq
  intro i
  rw [Nat.testBit_or, leInt_testBit, leInt_testBit, leInt_testBit, List.getElem?_zipWith]
  by_cases hi : i / 8 < as.length
  · rw [List.getElem?_eq_getElem hi, List.getElem?_eq_getElem (h ▸ hi)]
    simp
  · rw [List.getElem?_eq_none (by omega), List.getElem?_eq_none (by omega)]
    simp

end Sys2Proof.Machine
end

