-- ==== Sys2Proof/Laws/Cfg.lean ====
section
/-! SUPPORT. What the factory gives (42_dispatch.md), and what holds of an accessor that CFG wrote. -/

namespace Sys2Proof.Machine

/-- The ways `selectKind` answers, with the condition of the row that matched (R145). -/
theorem selectKind_eq_some {fl : Bool} {bo w : Nat} {k : Kind} (h : selectKind fl bo w = some k) :
    w ≤ 64 ∧
    ((k = .zero ∧ w = 0) ∨ (k = .bit ∧ w = 1) ∨
     (2 ≤ w ∧ (fl = true → w = 32 ∨ w = 64) ∧
      ((k = .aligned ∧ (w = 8 ∨ w = 16 ∨ w = 32 ∨ w = 64) ∧ bo = 0) ∨
       (¬ ((w = 8 ∨ w = 16 ∨ w = 32 ∨ w = 64) ∧ bo = 0) ∧
        ((k = .gen32 ∧ w + bo ≤ 32) ∨ (k = .gen64 ∧ 32 < w + bo ∧ w + bo ≤ 64)))))) := by
  unfold selectKind at h
  by_cases h0 : 64 < w
  · rw [if_pos h0] at h
    exact absurd h (by simp)
  rw [if_neg h0] at h
  refine ⟨by omega, ?_⟩
  by_cases h1 : w = 0
  · rw [if_pos h1] at h
    exact .inl ⟨by simpa using h.symm, h1⟩
  rw [if_neg h1] at h
  by_cases h2 : w = 1
  · rw [if_pos h2] at h
    exact .inr (.inl ⟨by simpa using h.symm, h2⟩)
  rw [if_neg h2] at h
  refine .inr (.inr ⟨by omega, ?_⟩)
  by_cases h3 : fl = true ∧ ¬ (w = 32 ∨ w = 64)
  · rw [if_pos h3] at h
    exact absurd h (by simp)
  rw [if_neg h3] at h
  refine ⟨fun hf => by by_contra hc; exact h3 ⟨hf, hc⟩, ?_⟩
  by_cases h4 : (w = 8 ∨ w = 16 ∨ w = 32 ∨ w = 64) ∧ bo = 0
  · rw [if_pos h4] at h
    exact .inl ⟨by simpa using h.symm, h4⟩
  rw [if_neg h4] at h
  refine .inr ⟨h4, ?_⟩
  by_cases h5 : w + bo ≤ 32
  · rw [if_pos h5] at h
    exact .inl ⟨by simpa using h.symm, h5⟩
  rw [if_neg h5] at h
  by_cases h6 : w + bo ≤ 64
  · rw [if_pos h6] at h
    exact .inr ⟨by simpa using h.symm, by omega, h6⟩
  rw [if_neg h6] at h
  exact absurd h (by simp)

/-- What a factory that answers has checked (R140). -/
theorem factory_eq_some {start width : BitVec 32} {tag : BitVec 8} {acc : Acc} (h : factory start width tag = some acc) :
    ∃ g k, tagOfCode tag = some g ∧ selectKind (tagFloat g) (start.toNat % 8) width.toNat = some k ∧
      acc = configuredAcc k g start width := by
  unfold factory at h
  cases hg : tagOfCode tag with
  | none => rw [hg] at h; exact absurd h (by simp)
  | some g =>
    rw [hg] at h
    cases hk : selectKind (tagFloat g) (start.toNat % 8) width.toNat with
    | none => simp [hk] at h
    | some k =>
      simp only [hk, Option.some.injEq] at h
      exact ⟨g, k, rfl, hk, h.symm⟩

/-- An accessor the factory answers is a configured one. -/
theorem factory_configured {start width : BitVec 32} {tag : BitVec 8} {acc : Acc}
    (h : factory start width tag = some acc) : acc.valid = true ∧ acc.start = start ∧ acc.configured = true := by
  obtain ⟨g, k, -, hk, rfl⟩ := factory_eq_some h
  have hw := (selectKind_eq_some hk).1
  have h1 : ((width.setWidth 7).setWidth 32) = width := by
    apply BitVec.eq_of_toNat_eq
    simp only [BitVec.toNat_setWidth]
    omega
  have h2 : (width.setWidth 7).toNat = width.toNat := by
    simp only [BitVec.toNat_setWidth]
    omega
  refine ⟨rfl, rfl, ?_⟩
  simp [Acc.configured, configuredAcc, h1, h2, hk]

/-- What an accessor that CFG wrote holds, field by field (R27, R29, R147 to R149). -/
structure ConfiguredFacts (acc : Acc) : Prop where
  valid : acc.valid = true
  width : acc.width.toNat ≤ 64
  kind : selectKind (tagFloat acc.tag) acc.bitoff.toNat acc.width.toNat = some acc.kind
  byteoff : acc.byteoff.toNat = acc.start.toNat / 8
  bitoff : acc.bitoff.toNat = acc.start.toNat % 8
  nbytes : acc.nbytes.toNat = nbytesOf acc.kind acc.width.toNat acc.bitoff.toNat
  sw : acc.sw.toNat = swOf acc.kind
  mask : acc.mask.toNat = 2 ^ acc.width.toNat - 1
  shift : acc.shift.toNat = shiftOf acc.kind acc.bigend acc.width.toNat acc.bitoff.toNat
  signed : acc.signed = tagSigned acc.tag
  bigend : acc.bigend = tagBigend acc.tag
  float : acc.float = tagFloat acc.tag
  readmask : acc.readmask = 1#8 <<< acc.bitoff.toNat
  clearmask : acc.clearmask = ~~~ (1#8 <<< acc.bitoff.toNat)

theorem maskOf_toNat {w : Nat} (h : w ≤ 64) : (maskOf w).toNat = 2 ^ w - 1 := by
  unfold maskOf
  split
  · next hw =>
    have : 2 ^ w < 2 ^ 64 := Nat.pow_lt_pow_right (by omega) hw
    rw [BitVec.toNat_ofNat, Nat.mod_eq_of_lt (by omega)]
  · have : w = 64 := by omega
    subst this
    rfl

theorem nbytesOf_le {fl : Bool} {bo w : Nat} {k : Kind} (h : selectKind fl bo w = some k) : nbytesOf k w bo ≤ 8 := by
  obtain ⟨hw, h | h | ⟨-, -, h | ⟨-, h | h⟩⟩⟩ := selectKind_eq_some h
  · rw [h.1]; simp [nbytesOf]
  · rw [h.1]; simp [nbytesOf]
  · rw [h.1]; simp only [nbytesOf]; omega
  · rw [h.1]; simp only [nbytesOf, spanBytes]; omega
  · rw [h.1]; simp only [nbytesOf, spanBytes]; omega

theorem shiftOf_lt {fl big : Bool} {bo w : Nat} {k : Kind} (hb : bo < 8) (h : selectKind fl bo w = some k) :
    shiftOf k big w bo < 64 := by
  obtain ⟨hw, h | h | ⟨-, -, h | ⟨-, h | h⟩⟩⟩ := selectKind_eq_some h
  · rw [h.1]; simp [shiftOf]
  · rw [h.1]; simp [shiftOf]
  · rw [h.1]; simp [shiftOf]
  · rw [h.1]; simp only [shiftOf, genericShift, spanBytes]; split <;> omega
  · rw [h.1]; simp only [shiftOf, genericShift, spanBytes]; split <;> omega

theorem configured_facts {acc : Acc} (h : acc.configured = true) : ConfiguredFacts acc := by
  simp only [Acc.configured, Bool.and_eq_true, decide_eq_true_eq] at h
  obtain ⟨hk, he⟩ := h
  have hwle := (selectKind_eq_some hk).1
  have hw : (acc.width.setWidth 32).toNat = acc.width.toNat := by
    simp only [BitVec.toNat_setWidth]
    have := acc.width.isLt
    omega
  have hbo : acc.bitoff.toNat = acc.start.toNat % 8 := by
    have := congrArg (fun a => a.bitoff.toNat) he
    simpa [configuredAcc, Nat.mod_mod_of_dvd] using this
  have hlt : acc.start.toNat % 8 < 8 := Nat.mod_lt _ (by omega)
  have hbig : acc.bigend = tagBigend acc.tag := by simpa [configuredAcc] using congrArg Acc.bigend he
  refine ⟨?_, hwle, hbo ▸ hk, ?_, hbo, ?_, ?_, ?_, ?_, ?_, hbig, ?_, ?_, ?_⟩
  · simpa [configuredAcc] using congrArg Acc.valid he
  · have := congrArg (fun a => a.byteoff.toNat) he
    simp only [configuredAcc, BitVec.toNat_ofNat] at this
    have hs := acc.start.isLt
    rw [this]
    exact Nat.mod_eq_of_lt (by omega)
  · have := congrArg (fun a => a.nbytes.toNat) he
    simp only [configuredAcc, BitVec.toNat_ofNat, hw] at this
    have hn := nbytesOf_le hk
    rw [this, Nat.mod_eq_of_lt (by omega), hbo]
  · have := congrArg (fun a => a.sw.toNat) he
    simp only [configuredAcc, BitVec.toNat_ofNat] at this
    rw [this, Nat.mod_eq_of_lt (by cases acc.kind <;> simp [swOf])]
  · have := congrArg (fun a => a.mask.toNat) he
    simp only [configuredAcc, hw] at this
    rw [this, maskOf_toNat hwle]
  · have := congrArg (fun a => a.shift.toNat) he
    simp only [configuredAcc, BitVec.toNat_ofNat, hw] at this
    rw [this, Nat.mod_eq_of_lt (shiftOf_lt hlt hk), hbo, hbig]
  · simpa [configuredAcc] using congrArg Acc.signed he
  · simpa [configuredAcc] using congrArg Acc.float he
  · rw [hbo]; simpa [configuredAcc] using congrArg Acc.readmask he
  · rw [hbo]; simpa [configuredAcc] using congrArg Acc.clearmask he

/-- What CFG can do (R140, R152): load a configured accessor, or report UnsupportedFieldShape. -/
theorem execCfg_cases (start width : BitVec 32) (tag : BitVec 8) (s : State) :
    (∃ acc, factory start width tag = some acc ∧
      execCfg start width tag s = .next (State.complete { s with acc := acc } 0)) ∨
    (factory start width tag = none ∧ execCfg start width tag s = .next (s.raise .unsupportedFieldShape)) := by
  unfold execCfg
  cases h : factory start width tag with
  | none => exact .inr ⟨rfl, rfl⟩
  | some acc => exact .inl ⟨acc, rfl, rfl⟩

end Sys2Proof.Machine
end

