-- ==== Sys2Proof/Laws/Memory.lean ====
section
/-! SUPPORT. What the memory operations do: a read after a write, the canonical form, the two primitives. -/

namespace Sys2Proof.Machine

/-! ### Cells -/

theorem cellsGet_dropWhile_le (a c : Nat) (l : List Host.Cell) (h : a < c) :
    cellsGet c (l.dropWhile (fun x => decide (x.1 ≤ a))) = cellsGet c l := by
  induction l with
  | nil => rfl
  | cons x rest ih =>
    obtain ⟨b, u⟩ := x
    by_cases hb : b ≤ a
    · rw [List.dropWhile_cons_of_pos (by simpa using hb), ih]
      simp [cellsGet, show ¬ c < b by omega, show ¬ c = b by omega]
    · rw [List.dropWhile_cons_of_neg (by simpa using hb)]

theorem cellsGet_dropWhile_of_le (a c : Nat) (l : List Host.Cell) (h : c ≤ a) :
    cellsGet c (l.dropWhile (fun x => decide (x.1 ≤ a))) = Config.unlistedByte := by
  induction l with
  | nil => rfl
  | cons x rest ih =>
    obtain ⟨b, u⟩ := x
    by_cases hb : b ≤ a
    · rw [List.dropWhile_cons_of_pos (by simpa using hb), ih]
    · rw [List.dropWhile_cons_of_neg (by simpa using hb)]
      simp [cellsGet, show c < b by omega]

theorem cellsGet_cellsPut_same (a : Nat) (v : Byte) (l : List Host.Cell) : cellsGet a (cellsPut a v l) = v := by
  induction l with
  | nil => by_cases hv : v = Config.unlistedByte <;> simp [cellsPut, cellsGet, hv]
  | cons x rest ih =>
    obtain ⟨b, u⟩ := x
    rcases Nat.lt_trichotomy a b with hab | rfl | hab
    · by_cases hv : v = Config.unlistedByte <;> simp [cellsPut, cellsGet, hv, hab]
    · by_cases hv : v = Config.unlistedByte
      · simp [cellsPut, hv, cellsGet_dropWhile_of_le]
      · simp [cellsPut, hv, cellsGet]
    · have h1 : ¬ a < b := by omega
      have h2 : ¬ a = b := by omega
      simp [cellsPut, cellsGet, h1, h2, ih]

theorem cellsGet_cellsPut_ne (a c : Nat) (v : Byte) (l : List Host.Cell) (h : c ≠ a) :
    cellsGet c (cellsPut a v l) = cellsGet c l := by
  induction l with
  | nil => by_cases hv : v = Config.unlistedByte <;> simp [cellsPut, cellsGet, hv, h]
  | cons x rest ih =>
    obtain ⟨b, u⟩ := x
    rcases Nat.lt_trichotomy a b with hab | rfl | hab
    · by_cases hv : v = Config.unlistedByte
      · simp [cellsPut, hv, hab]
      · rcases Nat.lt_or_gt_of_ne h with hc | hc
        · simp [cellsPut, cellsGet, hv, hab, hc, show c < b by omega]
        · simp [cellsPut, cellsGet, hv, hab, h, show ¬ c < a by omega]
    · by_cases hv : v = Config.unlistedByte
      · rcases Nat.lt_or_gt_of_ne h with hc | hc
        · simp [cellsPut, hv, cellsGet, hc, cellsGet_dropWhile_of_le a c rest (by omega)]
        · simp [cellsPut, hv, cellsGet, h, show ¬ c < a by omega, cellsGet_dropWhile_le a c rest hc]
      · simp [cellsPut, hv, cellsGet, h]
    · have h1 : ¬ a < b := by omega
      have h2 : ¬ a = b := by omega
      simp [cellsPut, cellsGet, h1, h2, ih]

theorem cellsWf_mono {lo lo' : Nat} {l : List Host.Cell} (h : lo ≤ lo') (hw : cellsWf lo' l = true) :
    cellsWf lo l = true := by
  cases l with
  | nil => rfl
  | cons x rest =>
    obtain ⟨b, u⟩ := x
    simp only [cellsWf, Bool.and_eq_true, decide_eq_true_eq] at hw ⊢
    exact ⟨⟨⟨by omega, hw.1.1.2⟩, hw.1.2⟩, hw.2⟩

theorem dropWhile_le_of_cellsWf {a : Nat} {l : List Host.Cell} (h : cellsWf (a + 1) l = true) :
    l.dropWhile (fun x => decide (x.1 ≤ a)) = l := by
  cases l with
  | nil => rfl
  | cons x rest =>
    simp only [cellsWf, Bool.and_eq_true, decide_eq_true_eq] at h
    exact List.dropWhile_cons_of_neg (by simp; omega)

theorem cellsWf_cellsPut {lo a : Nat} (v : Byte) {l : List Host.Cell} (hl : lo ≤ a) (ha : a < 2 ^ 64)
    (hw : cellsWf lo l = true) : cellsWf lo (cellsPut a v l) = true := by
  induction l generalizing lo with
  | nil => by_cases hv : v = Config.unlistedByte <;> simp [cellsPut, cellsWf, hv]; omega
  | cons x rest ih =>
    obtain ⟨b, u⟩ := x
    have hw' := hw
    simp only [cellsWf, Bool.and_eq_true, decide_eq_true_eq] at hw'
    obtain ⟨⟨⟨hlb, hb⟩, hu⟩, hr⟩ := hw'
    rcases Nat.lt_trichotomy a b with hab | rfl | hab
    · by_cases hv : v = Config.unlistedByte
      · simpa [cellsPut, hv, hab] using hw
      · have : a + 1 ≤ b := hab
        simp only [cellsPut, hab, hv, if_true, if_false, cellsWf, Bool.and_eq_true, decide_eq_true_eq]
        exact ⟨⟨⟨hl, ha⟩, hv⟩, ⟨⟨this, hb⟩, hu⟩, hr⟩
    · by_cases hv : v = Config.unlistedByte
      · simp only [cellsPut, hv, lt_irrefl, if_false, if_true]
        rw [dropWhile_le_of_cellsWf hr]
        exact cellsWf_mono (by omega) hr
      · simp only [cellsPut, hv, lt_irrefl, if_false, if_true, cellsWf, Bool.and_eq_true, decide_eq_true_eq]
        exact ⟨⟨⟨hl, ha⟩, hv⟩, hr⟩
    · have h1 : ¬ a < b := by omega
      have h2 : ¬ a = b := by omega
      simp only [cellsPut, h1, h2, if_false, cellsWf, Bool.and_eq_true, decide_eq_true_eq]
      exact ⟨⟨⟨hlb, hb⟩, hu⟩, ih (by omega) hr⟩

theorem cellsGet_of_lt {lo c : Nat} {l : List Host.Cell} (h : c < lo) (hw : cellsWf lo l = true) :
    cellsGet c l = Config.unlistedByte := by
  cases l with
  | nil => rfl
  | cons x rest =>
    obtain ⟨b, u⟩ := x
    simp only [cellsWf, Bool.and_eq_true, decide_eq_true_eq] at hw
    simp [cellsGet, show c < b by omega]

/-- Two lists of cells in canonical form that read the same at every address are equal. -/
theorem cells_ext {lo lo' : Nat} {l l' : List Host.Cell} (hw : cellsWf lo l = true) (hw' : cellsWf lo' l' = true)
    (h : ∀ a, a < 2 ^ 64 → cellsGet a l = cellsGet a l') : l = l' := by
  induction l generalizing lo lo' l' with
  | nil =>
    cases l' with
    | nil => rfl
    | cons y rest' =>
      obtain ⟨b, u⟩ := y
      simp only [cellsWf, Bool.and_eq_true, decide_eq_true_eq] at hw'
      have := h b hw'.1.1.2
      simp [cellsGet] at this
      exact absurd this.symm hw'.1.2
  | cons x rest ih =>
    obtain ⟨b, u⟩ := x
    have hx := hw
    simp only [cellsWf, Bool.and_eq_true, decide_eq_true_eq] at hx
    cases l' with
    | nil =>
      have := h b hx.1.1.2
      simp [cellsGet] at this
      exact absurd this hx.1.2
    | cons y rest' =>
      obtain ⟨b', u'⟩ := y
      have hy := hw'
      simp only [cellsWf, Bool.and_eq_true, decide_eq_true_eq] at hy
      rcases Nat.lt_trichotomy b b' with hb | rfl | hb
      · have := h b hx.1.1.2
        simp [cellsGet, hb] at this
        exact absurd this hx.1.2
      · have hu : u = u' := by simpa [cellsGet] using h b hx.1.1.2
        have hrest : rest = rest' := by
          refine ih hx.2 hy.2 (fun a ha => ?_)
          have hab := h a ha
          rcases Nat.lt_trichotomy a b with hlt | rfl | hgt
          · rw [cellsGet_of_lt (show a < b + 1 by omega) hx.2, cellsGet_of_lt (show a < b + 1 by omega) hy.2]
          · rw [cellsGet_of_lt (Nat.lt_succ_self a) hx.2, cellsGet_of_lt (Nat.lt_succ_self a) hy.2]
          · simpa [cellsGet, show ¬ a < b by omega, show ¬ a = b by omega] using hab
        rw [hu, hrest]
      · have := h b' hy.1.1.2
        simp [cellsGet, hb] at this
        exact absurd this.symm hy.1.2

/-! ### One byte -/

@[simp] theorem read_write_same (m : Memory) (a : Addr) (v : Byte) : (m.write a v).read a = v :=
  cellsGet_cellsPut_same _ _ _

theorem read_write_ne (m : Memory) {a b : Addr} (v : Byte) (h : b ≠ a) : (m.write a v).read b = m.read b :=
  cellsGet_cellsPut_ne _ _ _ _ (fun he => h (BitVec.eq_of_toNat_eq he))

theorem read_write (m : Memory) (a b : Addr) (v : Byte) :
    (m.write a v).read b = if b = a then v else m.read b := by
  split
  · next h => rw [h, read_write_same]
  · next h => exact read_write_ne m v h

theorem write_wf {m : Memory} (a : Addr) (v : Byte) (h : m.wf = true) : (m.write a v).wf = true :=
  cellsWf_cellsPut v (Nat.zero_le _) a.isLt h

theorem empty_wf : (Memory.mk []).wf = true := rfl

/-- Memories in canonical form that read the same everywhere are equal. -/
theorem memory_ext {m m' : Memory} (h : m.wf = true) (h' : m'.wf = true) (hr : ∀ a, m.read a = m'.read a) :
    m = m' := by
  have : m.cells = m'.cells := by
    refine cells_ext h h' (fun a ha => ?_)
    have := hr (BitVec.ofNat 64 a)
    simp only [Memory.read, BitVec.toNat_ofNat, Nat.mod_eq_of_lt ha] at this
    exact this
  cases m; cases m'; simp_all

/-! ### The addresses of a range -/

@[simp] theorem addrRange_length (addr : Addr) (n : Nat) : (addrRange addr n).length = n := by
  induction n generalizing addr with
  | zero => rfl
  | succ n ih => simp [addrRange, ih]

theorem mem_addrRange {a addr : Addr} {n : Nat} :
    a ∈ addrRange addr n ↔ ∃ j < n, a = addr + BitVec.ofNat 64 j := by
  induction n generalizing addr with
  | zero => simp [addrRange]
  | succ n ih =>
    simp only [addrRange, List.mem_cons, ih]
    constructor
    · rintro (rfl | ⟨j, hj, rfl⟩)
      · exact ⟨0, by omega, by simp⟩
      · refine ⟨j + 1, by omega, ?_⟩
        rw [BitVec.add_assoc, BitVec.add_comm 1]
        congr 1
        simp [BitVec.ofNat_add]
    · rintro ⟨j, hj, rfl⟩
      cases j with
      | zero => left; simp
      | succ j =>
        right
        refine ⟨j, by omega, ?_⟩
        rw [BitVec.add_assoc, BitVec.add_comm 1]
        congr 1
        simp [BitVec.ofNat_add]

/-- An address is not in the range above it that does not go all the way round. -/
theorem notMem_addrRange_succ {addr : Addr} {n : Nat} (h : n < 2 ^ 64) : addr ∉ addrRange (addr + 1) n := by
  rw [mem_addrRange]
  rintro ⟨j, hj, he⟩
  have := congrArg BitVec.toNat he
  simp [BitVec.toNat_add] at this
  have := addr.isLt
  omega

/-! ### The primitives -/

@[simp] theorem memRead_length (m : Memory) (addr : Addr) (n : Nat) : (memRead m addr n).length = n := by
  induction n generalizing addr with
  | zero => rfl
  | succ n ih => simp [memRead, ih]

theorem memRead_eq_map (m : Memory) (addr : Addr) (n : Nat) : memRead m addr n = (addrRange addr n).map m.read := by
  induction n generalizing addr with
  | zero => rfl
  | succ n ih => simp [memRead, addrRange, ih]

/-- Byte `j` of what is read is the byte `j` places above the start. -/
theorem memRead_getElem (m : Memory) (addr : Addr) (n j : Nat) (h : j < (memRead m addr n).length) :
    (memRead m addr n)[j] = m.read (addr + BitVec.ofNat 64 j) := by
  induction n generalizing addr j with
  | zero => simp [memRead] at h
  | succ n ih =>
    cases j with
    | zero => simp [memRead]
    | succ j =>
      simp only [memRead, List.getElem_cons_succ]
      rw [ih, BitVec.add_assoc, BitVec.add_comm 1]
      congr 2
      simp [BitVec.ofNat_add]

theorem memRead_congr {m m' : Memory} {addr : Addr} {n : Nat} (h : ∀ a ∈ addrRange addr n, m.read a = m'.read a) :
    memRead m addr n = memRead m' addr n := by
  rw [memRead_eq_map, memRead_eq_map]
  exact List.map_congr_left h

/-- A write leaves every byte outside its range as it was. -/
theorem read_memWrite_of_notMem (m : Memory) (addr : Addr) (bs : List Byte) {a : Addr}
    (h : a ∉ addrRange addr bs.length) : (memWrite m addr bs).read a = m.read a := by
  induction bs generalizing m addr with
  | nil => rfl
  | cons b bs ih =>
    simp only [addrRange, List.length_cons, List.mem_cons, not_or] at h
    rw [memWrite, ih _ _ h.2, read_write_ne _ _ h.1]

/-- Reading what was written gives it back. -/
theorem memRead_memWrite (m : Memory) (addr : Addr) (bs : List Byte) (h : bs.length < 2 ^ 64) :
    memRead (memWrite m addr bs) addr bs.length = bs := by
  induction bs generalizing m addr with
  | nil => rfl
  | cons b bs ih =>
    simp only [List.length_cons] at h
    rw [List.length_cons, memRead, memWrite, ih _ _ (by omega),
      read_memWrite_of_notMem _ _ _ (notMem_addrRange_succ (by omega)), read_write_same]

theorem memWrite_wf {m : Memory} (addr : Addr) (bs : List Byte) (h : m.wf = true) : (memWrite m addr bs).wf = true := by
  induction bs generalizing m addr with
  | nil => exact h
  | cons b bs ih => exact ih _ (write_wf _ _ h)

end Sys2Proof.Machine
end

