-- ==== Sys2Proof/Laws/State.lean ====
section
/-! SUPPORT. One lemma per field per update of the state. -/

namespace Sys2Proof.Machine

variable (s : State) (v : Word) (st : Status) (d : Bool) (n w : Nat)

@[simp] theorem complete_acc : (s.complete v).acc = s.acc := rfl
@[simp] theorem complete_mem : (s.complete v).mem = s.mem := rfl
@[simp] theorem complete_inputs : (s.complete v).inputs = s.inputs := rfl
@[simp] theorem complete_rsp : (s.complete v).rsp = some ⟨.ok, v⟩ := rfl
@[simp] theorem complete_draws : (s.complete v).draws = s.draws := rfl

@[simp] theorem raise_acc : (s.raise st).acc = s.acc := rfl
@[simp] theorem raise_mem : (s.raise st).mem = s.mem := rfl
@[simp] theorem raise_inputs : (s.raise st).inputs = s.inputs := rfl
@[simp] theorem raise_rsp : (s.raise st).rsp = some ⟨st, 0⟩ := rfl
@[simp] theorem raise_draws : (s.raise st).draws = s.draws := rfl

@[simp] theorem spend_acc : (s.spend d).acc = s.acc := rfl
@[simp] theorem spend_mem : (s.spend d).mem = s.mem := rfl
@[simp] theorem spend_inputs : (s.spend d).inputs = s.inputs := rfl
@[simp] theorem spend_rsp : (s.spend d).rsp = s.rsp := rfl
@[simp] theorem spend_draws : (s.spend d).draws = s.draws + d.toNat := rfl

@[simp] theorem resetBlock_acc : s.resetBlock.acc = Acc.reset := rfl
@[simp] theorem resetBlock_mem : s.resetBlock.mem = s.mem := rfl
@[simp] theorem resetBlock_inputs : s.resetBlock.inputs = s.inputs := rfl
@[simp] theorem resetBlock_rsp : s.resetBlock.rsp = none := rfl
@[simp] theorem resetBlock_draws : s.resetBlock.draws = s.draws := rfl

@[simp] theorem withFetchWord_acc : (s.withFetchWord n w).acc = s.acc := rfl
@[simp] theorem withFetchWord_mem : (s.withFetchWord n w).mem = s.mem := rfl
@[simp] theorem withFetchWord_inputs :
    (s.withFetchWord n w).inputs = .command (Request.ofBits (w % 2 ^ n)) :: s.inputs := rfl
@[simp] theorem withFetchWord_rsp : (s.withFetchWord n w).rsp = s.rsp := rfl
@[simp] theorem withFetchWord_draws : (s.withFetchWord n w).draws = s.draws := rfl

@[simp] theorem drawn_pure_val {α : Type} (x : α) : (Drawn.pure x).val = x := rfl
@[simp] theorem drawn_pure_drew {α : Type} (x : α) : (Drawn.pure x).drew = false := rfl
@[simp] theorem drawn_map_val {α β : Type} (f : α → β) (x : Drawn α) : (x.map f).val = f x.val := rfl
@[simp] theorem drawn_map_drew {α β : Type} (f : α → β) (x : Drawn α) : (x.map f).drew = x.drew := rfl

/-- A draw that was not made leaves the state as it is. -/
@[simp] theorem spend_false : s.spend false = s := rfl

end Sys2Proof.Machine
end

