-- ==== Sys2Proof/Laws/Access.lean ====
section
/-! SUPPORT. What the read and write sequences can do (43_access.md R160, R161), and what one command can do. -/

namespace Sys2Proof.Machine

/-! ### The checks (60_exceptions.md R206) -/

theorem accessError_eq_none {acc : Acc} {len : BitVec 64} :
    accessError acc len = none ↔ acc.valid = true ∧ (acc.kind = .zero ∨ inBounds acc len = true) := by
  unfold accessError
  cases hv : acc.valid <;> cases hb : inBounds acc len <;> by_cases hk : acc.kind = .zero <;> simp [hk]

theorem accessError_eq_notConfigured {acc : Acc} {len : BitVec 64} :
    accessError acc len = some .notConfigured ↔ acc.valid = false := by
  unfold accessError
  cases hv : acc.valid <;> cases hb : inBounds acc len <;> by_cases hk : acc.kind = .zero <;> simp [hk]

theorem accessError_eq_bufferTooSmall {acc : Acc} {len : BitVec 64} :
    accessError acc len = some .bufferTooSmall ↔
      acc.valid = true ∧ acc.kind ≠ .zero ∧ inBounds acc len = false := by
  unfold accessError
  cases hv : acc.valid <;> cases hb : inBounds acc len <;> by_cases hk : acc.kind = .zero <;> simp [hk]

/-- The statuses the checks can give. -/
theorem accessError_cases (acc : Acc) (len : BitVec 64) :
    accessError acc len = none ∨ accessError acc len = some .notConfigured ∨
      accessError acc len = some .bufferTooSmall := by
  unfold accessError
  cases hv : acc.valid <;> cases hb : inBounds acc len <;> by_cases hk : acc.kind = .zero <;> simp [hk]

theorem Ready.access {s : State} {len : BitVec 64} (h : Ready s len) : accessError s.acc len = none :=
  accessError_eq_none.2 ⟨h.valid, .inr (by simpa [inBounds] using h.bounds)⟩

theorem Ready.facts {s : State} {len : BitVec 64} (h : Ready s len) : ConfiguredFacts s.acc :=
  configured_facts h.configured

/-! ### The sequences -/

theorem runRead_of_error {s : State} {base : Addr} {len : BitVec 64} {st : Status}
    (adapt : Nat → Natural → Drawn Word) (h : accessError s.acc len = some st) :
    runRead base len adapt s = s.raise st := by
  unfold runRead; rw [h]

/-- A read that passes the checks answers the adapted natural value; only the response and the draw counter change. -/
theorem runRead_of_ok {s : State} {base : Addr} {len : BitVec 64} (adapt : Nat → Natural → Drawn Word)
    (h : accessError s.acc len = none) :
    runRead base len adapt s =
      (s.spend (adapt s.draws (naturalRead s.acc base s.mem)).drew).complete
        (adapt s.draws (naturalRead s.acc base s.mem)).val := by
  unfold runRead; rw [h]

theorem runWrite_of_error {s : State} {base : Addr} {len : BitVec 64} {st : Status} (v : Operand)
    (h : accessError s.acc len = some st) : runWrite base len v s = s.raise st := by
  unfold runWrite; rw [h]

/-- A write that passes the checks stores through the codec; only memory, the response and the draw counter change. -/
theorem runWrite_of_ok {s : State} {base : Addr} {len : BitVec 64} (v : Operand)
    (h : accessError s.acc len = none) :
    runWrite base len v s =
      State.complete (State.spend { s with mem := (naturalWrite s.draws s.acc base s.mem v).val }
        (naturalWrite s.draws s.acc base s.mem v).drew) 0 := by
  unfold runWrite; rw [h]

/-! ### What a write leaves alone -/

theorem genericWrite_length_le (W : Nat) (acc : Acc) (base : Addr) (m : Memory) (p : BitVec W) :
    (List.zipWith (fun old c => old ||| c) (memRead m (fieldAddr acc base) acc.nbytes.toNat)
      (genericBytes W acc p)).length ≤ acc.nbytes.toNat := by
  rw [List.length_zipWith, memRead_length]
  exact Nat.min_le_left _ _

theorem addrRange_mono {a addr : Addr} {k n : Nat} (h : k ≤ n) (ha : a ∈ addrRange addr k) : a ∈ addrRange addr n := by
  rw [mem_addrRange] at *
  obtain ⟨j, hj, rfl⟩ := ha
  exact ⟨j, by omega, rfl⟩

/-- A write through the codec of a configured accessor changes no byte outside its footprint (20_memory.md R46). -/
theorem naturalWrite_frame {acc : Acc} (hc : acc.configured = true) (n : Nat) (base : Addr) (m : Memory) (v : Operand)
    {a : Addr} (ha : a ∉ fieldRange acc base) : (naturalWrite n acc base m v).val.read a = m.read a := by
  have hf := configured_facts hc
  have hn := hf.nbytes
  unfold fieldRange at ha
  unfold naturalWrite
  cases hk : acc.kind with
  | zero => rfl
  | bit =>
    simp only [hk, nbytesOf] at hn
    rw [hn] at ha
    simp only [addrRange, List.mem_singleton] at ha
    exact read_write_ne _ _ ha
  | aligned =>
    simp only [hk, nbytesOf] at hn
    rw [hn] at ha
    exact read_memWrite_of_notMem _ _ _ (by rwa [leBytes_length])
  | gen32 => exact read_memWrite_of_notMem _ _ _ (fun h => ha (addrRange_mono (genericWrite_length_le _ _ _ _ _) h))
  | gen64 => exact read_memWrite_of_notMem _ _ _ (fun h => ha (addrRange_mono (genericWrite_length_le _ _ _ _ _) h))

/-- A write through a codec keeps the canonical form of memory. -/
theorem naturalWrite_wf {m : Memory} (h : m.wf = true) (n : Nat) (acc : Acc) (base : Addr) (v : Operand) :
    (naturalWrite n acc base m v).val.wf = true := by
  unfold naturalWrite
  cases acc.kind with
  | zero => exact h
  | bit => exact write_wf _ _ h
  | aligned => exact memWrite_wf _ _ h
  | gen32 => exact memWrite_wf _ _ h
  | gen64 => exact memWrite_wf _ _ h

/-! ### One command -/

/-- The forms a command's next state can have: an error of CFG, an error of the checks, an accessor loaded, a swap, a
read, a write. -/
inductive CommandEffect (i : Instr) (s : State) : State → Prop
  | rejected (start width : BitVec 32) (tag : BitVec 8) (hi : i = .cfg start width tag)
      (hf : factory start width tag = none) : CommandEffect i s (s.raise .unsupportedFieldShape)
  | refused (base : Addr) (len : BitVec 64) (st : Status) (hi : accessOf i = .read base len ∨ accessOf i = .write base len)
      (he : accessError s.acc len = some st) : CommandEffect i s (s.raise st)
  | loaded (start width : BitVec 32) (tag : BitVec 8) (acc : Acc) (hi : i = .cfg start width tag)
      (hf : factory start width tag = some acc) : CommandEffect i s (State.complete { s with acc := acc } 0)
  | swapped (d : Word) (hi : accessOf i = .none) (hn : ∀ start width tag, i ≠ .cfg start width tag) :
      CommandEffect i s (s.complete d)
  | read (base : Addr) (len : BitVec 64) (adapt : Nat → Natural → Drawn Word) (hi : accessOf i = .read base len)
      (he : accessError s.acc len = none) :
      CommandEffect i s ((s.spend (adapt s.draws (naturalRead s.acc base s.mem)).drew).complete
        (adapt s.draws (naturalRead s.acc base s.mem)).val)
  | written (base : Addr) (len : BitVec 64) (v : Operand) (hi : accessOf i = .write base len)
      (he : accessError s.acc len = none) :
      CommandEffect i s (State.complete (State.spend { s with mem := (naturalWrite s.draws s.acc base s.mem v).val }
        (naturalWrite s.draws s.acc base s.mem v).drew) 0)

theorem runRead_effect {i : Instr} {base : Addr} {len : BitVec 64} (adapt : Nat → Natural → Drawn Word) (s : State)
    (hi : accessOf i = .read base len) : CommandEffect i s (runRead base len adapt s) := by
  cases h : accessError s.acc len with
  | none => rw [runRead_of_ok adapt h]; exact .read base len adapt hi h
  | some st => rw [runRead_of_error adapt h]; exact .refused base len st (.inl hi) h

theorem runWrite_effect {i : Instr} {base : Addr} {len : BitVec 64} (v : Operand) (s : State)
    (hi : accessOf i = .write base len) : CommandEffect i s (runWrite base len v s) := by
  cases h : accessError s.acc len with
  | none => rw [runWrite_of_ok v h]; exact .written base len v hi h
  | some st => rw [runWrite_of_error v h]; exact .refused base len st (.inr hi) h

/-- Everything a command can do: it always answers a next state, of one of the forms of `CommandEffect`. -/
theorem exec_effect (i : Instr) (s : State) : ∃ t, exec i s = .next t ∧ CommandEffect i s t := by
  cases i with
  | cfg start width tag =>
    rcases execCfg_cases start width tag s with ⟨acc, h, he⟩ | ⟨h, he⟩
    · exact ⟨_, he, .loaded start width tag acc rfl h⟩
    · exact ⟨_, he, .rejected start width tag rfl h⟩
  | rdU64 base len => exact ⟨_, rfl, runRead_effect _ s rfl⟩
  | rdI64 base len => exact ⟨_, rfl, runRead_effect _ s rfl⟩
  | rdU32 base len => exact ⟨_, rfl, runRead_effect _ s rfl⟩
  | rdI32 base len => exact ⟨_, rfl, runRead_effect _ s rfl⟩
  | rdF32 base len => exact ⟨_, rfl, runRead_effect _ s rfl⟩
  | rdF64 base len => exact ⟨_, rfl, runRead_effect _ s rfl⟩
  | rdBool base len => exact ⟨_, rfl, runRead_effect _ s rfl⟩
  | wrU64 base len v => exact ⟨_, rfl, runWrite_effect _ s rfl⟩
  | wrI64 base len v => exact ⟨_, rfl, runWrite_effect _ s rfl⟩
  | wrU32 base len v => exact ⟨_, rfl, runWrite_effect _ s rfl⟩
  | wrI32 base len v => exact ⟨_, rfl, runWrite_effect _ s rfl⟩
  | wrF32 base len v => exact ⟨_, rfl, runWrite_effect _ s rfl⟩
  | wrF64 base len v => exact ⟨_, rfl, runWrite_effect _ s rfl⟩
  | wrBool base len v => exact ⟨_, rfl, runWrite_effect _ s rfl⟩
  | swap8 v => exact ⟨_, rfl, .swapped _ rfl (by simp)⟩
  | swap16 v => exact ⟨_, rfl, .swapped _ rfl (by simp)⟩
  | swap32 v => exact ⟨_, rfl, .swapped _ rfl (by simp)⟩
  | swap64 v => exact ⟨_, rfl, .swapped _ rfl (by simp)⟩

/-- The inversion of `exec`. -/
theorem effect_of_exec {i : Instr} {s t : State} (h : exec i s = .next t) : CommandEffect i s t := by
  obtain ⟨u, hu, he⟩ := exec_effect i s
  rw [hu] at h
  cases h
  exact he

/-- A command that the checks stop only reports their status. -/
theorem exec_of_accessError {i : Instr} {s : State} {base : Addr} {len : BitVec 64} {st : Status}
    (hi : accessOf i = .read base len ∨ accessOf i = .write base len) (he : accessError s.acc len = some st) :
    exec i s = .next (s.raise st) := by
  obtain ⟨t, ht, hc⟩ := exec_effect i s
  rw [ht]
  have hlen : ∀ {b l}, accessOf i = .read b l ∨ accessOf i = .write b l → l = len := by
    intro b l h
    rcases hi with hi | hi <;> rw [hi] at h <;> simp at h <;> exact h.2.symm
  cases hc with
  | rejected _ _ _ h _ => subst h; simp [accessOf] at hi
  | refused b l st' h he' =>
    rw [hlen h, he] at he'
    cases he'
    rfl
  | loaded _ _ _ _ h _ => subst h; simp [accessOf] at hi
  | swapped _ h _ => rw [h] at hi; simp at hi
  | read b l _ h he' => rw [hlen (.inl h), he] at he'; simp at he'
  | written b l _ h he' => rw [hlen (.inr h), he] at he'; simp at he'

end Sys2Proof.Machine
end

