-- ==== Sys2Proof/Laws/Swap.lean ====
section
/-! SUPPORT. The byte-swap primitives as the reversal of byte sequences (40_byteswap.md R84). -/

namespace Sys2Proof.Machine

/-- The four widths that have a swap. -/
def swapWidth (N : Nat) : Prop := N = 8 ∨ N = 16 ∨ N = 32 ∨ N = 64

theorem bswap8_toNat (v : BitVec 8) : (bswap8 v).toNat = beInt (leBytes 1 v.toNat) := by
  simp [bswap8, beInt, leBytes]

theorem append_toNat {n k : Nat} (x : BitVec n) (y : BitVec k) : (x ++ y).toNat = x.toNat * 2 ^ k + y.toNat := by
  rw [BitVec.toNat_append, ← Nat.shiftLeft_add_eq_or_of_lt y.isLt, Nat.shiftLeft_eq]

theorem bswap16_toNat (v : BitVec 16) : (bswap16 v).toNat = beInt (leBytes 2 v.toNat) := by
  unfold bswap16
  erw [append_toNat]
  simp [beInt, leBytes, Nat.shiftRight_eq_div_pow]

theorem bswap32_toNat (v : BitVec 32) : (bswap32 v).toNat = beInt (leBytes 4 v.toNat) := by
  unfold bswap32
  erw [append_toNat, append_toNat, append_toNat]
  simp [beInt, leBytes, Nat.shiftRight_eq_div_pow, Nat.div_div_eq_div_mul]
  ring

theorem bswap64_toNat (v : BitVec 64) : (bswap64 v).toNat = beInt (leBytes 8 v.toNat) := by
  unfold bswap64
  erw [append_toNat, append_toNat, append_toNat, append_toNat, append_toNat, append_toNat, append_toNat]
  simp [beInt, leBytes, Nat.shiftRight_eq_div_pow, Nat.div_div_eq_div_mul]
  ring

/-- A swap reads the bytes of the word the other way round. -/
theorem bswapN_toNat {N : Nat} (h : swapWidth N) (v : BitVec N) :
    (bswapN N v).toNat = beInt (leBytes (N / 8) v.toNat) := by
  rcases h with rfl | rfl | rfl | rfl
  · exact bswap8_toNat v
  · exact bswap16_toNat v
  · exact bswap32_toNat v
  · exact bswap64_toNat v

/-- The swap policy, on the number of a word. -/
theorem swapPol_toNat {N : Nat} (h : swapWidth N) (big : Bool) (v : BitVec N) :
    (swapPol big N v).toNat = if big then beInt (leBytes (N / 8) v.toNat) else v.toNat := by
  unfold swapPol
  cases big
  · rfl
  · exact bswapN_toNat h v

/-- The swap policy on a word loaded from its bytes, low byte first, is the number in the byte order of the tag. -/
theorem swapPol_load {N : Nat} (h : swapWidth N) (big : Bool) {b : List Byte} (hb : b.length = N / 8) :
    (swapPol big N (BitVec.ofNat N (leInt b))).toNat = if big then beInt b else leInt b := by
  have h8 : 8 * b.length = N := by rcases h with rfl | rfl | rfl | rfl <;> omega
  have hlt : leInt b < 2 ^ N := h8 ▸ leInt_lt b
  rw [swapPol_toNat h, BitVec.toNat_ofNat, Nat.mod_eq_of_lt hlt, ← hb, leBytes_leInt]

/-- The bytes of a word under the swap policy are those of the word in the byte order of the tag. -/
theorem swapPol_store {N : Nat} (h : swapWidth N) (big : Bool) (v : BitVec N) :
    leBytes (N / 8) (swapPol big N v).toNat = if big then beBytes (N / 8) v.toNat else leBytes (N / 8) v.toNat := by
  rw [swapPol_toNat h]
  cases big
  · rfl
  · simp only [if_true]
    rw [beInt_eq_leInt_reverse, beBytes]
    have h1 := leBytes_leInt (leBytes (N / 8) v.toNat).reverse
    rwa [List.length_reverse, leBytes_length] at h1

end Sys2Proof.Machine
end

