-- ==== Sys2Proof/Laws/Codecs.lean ====
section
/-! SUPPORT. The closed forms of the codec datapaths (41_codecs.md R107, R109, R126, R130) on an accessor CFG wrote. -/

namespace Sys2Proof.Machine

/-- What CFG fixes of a generic accessor (41_codecs.md R119, R120). -/
theorem generic_facts {acc : Acc} (h : ConfiguredFacts acc) (hk : acc.kind = .gen32 ∨ acc.kind = .gen64) :
    (stagingWidth acc = 32 ∨ stagingWidth acc = 64) ∧ stagingWidth acc = 8 * acc.sw.toNat ∧
      2 ≤ acc.width.toNat ∧ acc.width.toNat < stagingWidth acc ∧
      acc.bitoff.toNat < 8 ∧ acc.nbytes.toNat = (acc.width.toNat + acc.bitoff.toNat + 7) / 8 ∧
      acc.width.toNat + acc.bitoff.toNat ≤ 8 * acc.nbytes.toNat ∧ acc.nbytes.toNat ≤ acc.sw.toNat ∧
      acc.shift.toNat = (if acc.bigend then (acc.sw.toNat - acc.nbytes.toNat) * 8 + acc.bitoff.toNat
        else acc.bitoff.toNat) := by
  have hsk := selectKind_eq_some h.kind
  have hbo : acc.bitoff.toNat < 8 := acc.bitoff.isLt
  have hn := h.nbytes
  have hs := h.sw
  have hsh := h.shift
  unfold stagingWidth
  rcases hk with hk | hk <;> rw [hk] at hn hs hsh hsk <;>
    simp only [nbytesOf, spanBytes, swOf, shiftOf, genericShift] at hn hs hsh <;>
    simp only [reduceCtorEq, false_and, or_false, false_or, true_and] at hsk <;>
    refine ⟨by omega, rfl, by omega, by omega, hbo, hn, by omega, by omega, ?_⟩ <;>
    rw [hsh, hn, hs]

/-- What CFG fixes of an aligned accessor (41_codecs.md R105). -/
theorem aligned_facts {acc : Acc} (h : ConfiguredFacts acc) (hk : acc.kind = .aligned) :
    swapWidth acc.width.toNat ∧ acc.bitoff.toNat = 0 ∧ acc.nbytes.toNat = acc.width.toNat / 8 := by
  have hsk := selectKind_eq_some h.kind
  have hn := h.nbytes
  rw [hk] at hn hsk
  simp only [nbytesOf] at hn
  simp only [reduceCtorEq, false_and, or_false, false_or, true_and, and_false] at hsk
  exact ⟨hsk.2.2.2.1, hsk.2.2.2.2, hn⟩

theorem leInt_zeros (k : Nat) : leInt (List.replicate k 0#8) = 0 := by
  induction k with
  | zero => rfl
  | succ k ih => simp [List.replicate_succ, leInt, ih]

theorem leInt_append_zeros (b : List Byte) (k : Nat) : leInt (b ++ List.replicate k 0) = leInt b := by
  simp [leInt_append, leInt_zeros]

theorem beInt_append_zeros (b : List Byte) (k : Nat) :
    beInt (b ++ List.replicate k 0) = beInt b * 2 ^ (8 * k) := by
  rw [beInt_eq_leInt_reverse, beInt_eq_leInt_reverse, List.reverse_append, leInt_append]
  simp [leInt_zeros, Nat.mul_comm]

theorem leBytes_mul_pow (k n y : Nat) : leBytes (k + n) (y * 2 ^ (8 * k)) = List.replicate k 0 ++ leBytes n y := by
  induction k with
  | zero => simp
  | succ k ih =>
    rw [show k + 1 + n = (k + n) + 1 by omega, leBytes, List.replicate_succ, List.cons_append]
    have h : y * 2 ^ (8 * (k + 1)) = 2 ^ 8 * (y * 2 ^ (8 * k)) := by
      rw [show 8 * (k + 1) = 8 * k + 8 by omega, Nat.pow_add]; ring
    rw [h, Nat.mul_div_cancel_left _ (by norm_num), ih]
    congr 1
    apply BitVec.eq_of_toNat_eq
    simp

theorem mask_toNat {acc : Acc} (h : ConfiguredFacts acc) {W : Nat} (hw : acc.width.toNat ≤ W) :
    (acc.mask.setWidth W).toNat = 2 ^ acc.width.toNat - 1 := by
  have hle : 2 ^ acc.width.toNat ≤ 2 ^ W := Nat.pow_le_pow_right (by omega) hw
  have hp : 0 < 2 ^ acc.width.toNat := Nat.two_pow_pos _
  rw [BitVec.toNat_setWidth, h.mask, Nat.mod_eq_of_lt (by omega)]

/-- The field a generic read places in the low bits of the staging word, before sign extension (R126). -/
theorem placeR_toNat {acc : Acc} (h : ConfiguredFacts acc) (hk : acc.kind = .gen32 ∨ acc.kind = .gen64)
    {b : List Byte} (hb : b.length = acc.nbytes.toNat) :
    (placeR acc (stagingWidth acc) (BitVec.ofNat (stagingWidth acc) (leInt b))).toNat =
      (if acc.bigend then beInt b else leInt b) / 2 ^ acc.bitoff.toNat % 2 ^ acc.width.toNat := by
  obtain ⟨hW, hS, -, hwW, -, -, -, hnS, hsh⟩ := generic_facts h hk
  have hsw : swapWidth (stagingWidth acc) := by unfold swapWidth; omega
  have hlen : (b ++ List.replicate (acc.sw.toNat - acc.nbytes.toNat) 0).length = stagingWidth acc / 8 := by
    rw [List.length_append, List.length_replicate, hb, hS]
    omega
  unfold placeR
  rw [BitVec.toNat_and, mask_toNat h (by omega), Nat.and_two_pow_sub_one_eq_mod, BitVec.toNat_ushiftRight,
    ← leInt_append_zeros b (acc.sw.toNat - acc.nbytes.toNat), swapPol_load hsw _ hlen, Nat.shiftRight_eq_div_pow,
    hsh, leInt_append_zeros, beInt_append_zeros]
  cases acc.bigend
  · rfl
  · simp only [if_true]
    rw [Nat.mul_comm _ 8, Nat.pow_add, ← Nat.div_div_eq_div_mul, Nat.mul_div_cancel _ (Nat.two_pow_pos _)]

theorem toInt_eq_asInteger {w : Nat} (hw : 1 ≤ w) (x : BitVec w) : x.toInt = asInteger true w x.toNat := by
  have hp : 2 ^ w = 2 * 2 ^ (w - 1) := by
    rw [← Nat.pow_succ']; congr 1; omega
  unfold asInteger
  rw [BitVec.toInt_eq_toNat_cond]
  by_cases hx : 2 * x.toNat < 2 ^ w
  · rw [if_pos hx, if_neg (by omega)]
  · rw [if_neg hx, if_pos ⟨rfl, by omega⟩]
    push_cast
    rfl

/-- Sign extension of a word whose value sits in its low bits (R101). -/
theorem signext_eq {k W : Nat} (hk : 1 ≤ k) (hkW : k ≤ W) (x : BitVec W) (hx : x.toNat < 2 ^ k) :
    signext k W x = (x.setWidth k).signExtend W := by
  have hpow : (1#W <<< (k - 1) - 1#W) = BitVec.ofNat W (2 ^ (k - 1) - 1) := by
    have h1 : 2 ^ (k - 1) < 2 ^ W := Nat.pow_lt_pow_right (by omega) (by omega)
    have h2 : 0 < 2 ^ (k - 1) := Nat.two_pow_pos _
    have hone : 1 < 2 ^ W := Nat.one_lt_two_pow (by omega)
    apply BitVec.eq_of_toNat_eq
    rw [BitVec.toNat_sub, BitVec.toNat_shiftLeft, BitVec.toNat_ofNat, BitVec.toNat_ofNat, Nat.mod_eq_of_lt hone,
      Nat.one_shiftLeft, Nat.mod_eq_of_lt h1, Nat.mod_eq_of_lt (show 2 ^ (k - 1) - 1 < 2 ^ W by omega),
      show 2 ^ W - 1 + 2 ^ (k - 1) = 2 ^ (k - 1) - 1 + 2 ^ W by omega, Nat.add_mod_right,
      Nat.mod_eq_of_lt (by omega)]
  have hmsb : (x.setWidth k).msb = x.getLsbD (k - 1) := by
    rw [BitVec.msb_eq_getLsbD_last, BitVec.getLsbD_setWidth]
    simp [show k - 1 < k by omega]
  have hhi : ∀ i, k ≤ i → x.getLsbD i = false := by
    intro i hi
    exact Nat.testBit_lt_two_pow (Nat.lt_of_lt_of_le hx (Nat.pow_le_pow_right (by omega) hi))
  apply BitVec.eq_of_getLsbD_eq
  intro i hi
  rw [BitVec.getLsbD_signExtend, hmsb]
  unfold signext
  by_cases hs : x.getLsbD (k - 1) = true
  · simp only [hs, if_true, hpow, BitVec.getLsbD_or, BitVec.getLsbD_not, BitVec.getLsbD_ofNat,
      Nat.testBit_two_pow_sub_one, hi, decide_true, Bool.true_and, BitVec.getLsbD_setWidth]
    by_cases hik : i < k
    · by_cases hik1 : i < k - 1
      · simp [hik, hik1]
      · have : i = k - 1 := by omega
        subst this
        simp [hs]
    · simp [hik, show ¬ i < k - 1 by omega]
  · simp only [hs, if_false, Bool.false_eq_true, hi, decide_true, Bool.true_and, BitVec.getLsbD_setWidth]
    by_cases hik : i < k
    · simp [hik]
    · simp [hik, hhi i (by omega)]

/-- A number of `w` bits in a wider word, sign-extended and read as two's complement. -/
theorem signext_toInt {k W : Nat} (hk : 1 ≤ k) (hkW : k ≤ W) (x : BitVec W) (hx : x.toNat < 2 ^ k) :
    (signext k W x).toInt = asInteger true k x.toNat := by
  rw [signext_eq hk hkW x hx, BitVec.toInt_signExtend_of_le hkW, toInt_eq_asInteger hk, BitVec.toNat_setWidth,
    Nat.mod_eq_of_lt hx]

theorem fieldRaw_lt (acc : Acc) (base : Addr) (m : Memory) : fieldRaw acc base m < 2 ^ acc.width.toNat :=
  Nat.mod_lt _ (Nat.two_pow_pos _)

theorem spanInt_lt (acc : Acc) (base : Addr) (m : Memory) : spanInt acc base m < 2 ^ (8 * acc.nbytes.toNat) := by
  unfold spanInt
  split
  · have h := beInt_lt (memRead m (fieldAddr acc base) acc.nbytes.toNat)
    rwa [memRead_length] at h
  · have h := leInt_lt (memRead m (fieldAddr acc base) acc.nbytes.toNat)
    rwa [memRead_length] at h

/-- On an aligned accessor the field is the whole span. -/
theorem fieldRaw_aligned {acc : Acc} (h : ConfiguredFacts acc) (hk : acc.kind = .aligned) (base : Addr) (m : Memory) :
    fieldRaw acc base m = spanInt acc base m := by
  obtain ⟨hw, hbo, hn⟩ := aligned_facts h hk
  have hlt := spanInt_lt acc base m
  have h8 : 8 * acc.nbytes.toNat = acc.width.toNat := by
    rcases hw with hw | hw | hw | hw <;> omega
  rw [h8] at hlt
  rw [fieldRaw, hbo, Nat.pow_zero, Nat.div_one, Nat.mod_eq_of_lt hlt]

/-- What an integer read takes from the buffer, in both codecs (R107, R108, R122 to R124, R126). -/
theorem naturalRead_integer {acc : Acc} (h : ConfiguredFacts acc) (hi : IntegerField acc) (base : Addr) (m : Memory) :
    naturalRead acc base m = .int (fieldInt acc base m) := by
  have hgen : ∀ (_ : acc.kind = .gen32 ∨ acc.kind = .gen64),
      genericRead (stagingWidth acc) acc base m = .int (fieldInt acc base m) := by
    intro hk
    obtain ⟨-, -, h2, hwW, -⟩ := generic_facts h hk
    have hp : (placeR acc (stagingWidth acc) (BitVec.ofNat (stagingWidth acc)
        (leInt (memRead m (fieldAddr acc base) acc.nbytes.toNat)))).toNat = fieldRaw acc base m :=
      placeR_toNat h hk (memRead_length _ _ _)
    have hlt := fieldRaw_lt acc base m
    unfold genericRead fieldInt
    rw [← hp] at hlt ⊢
    simp only [hi.float, if_false, Bool.false_eq_true]
    cases acc.signed
    · simp [asInteger]
    · simp only [if_true]
      rw [signext_toInt (by omega) (by omega) _ hlt]
  unfold naturalRead
  rcases hi.kind with hk | hk | hk
  · obtain ⟨hw, -, hn⟩ := aligned_facts h hk
    have hx := swapPol_load hw acc.bigend (memRead_length m (fieldAddr acc base) (acc.width.toNat / 8))
    simp only [hk, alignedRead, hi.float, if_false, Bool.false_eq_true]
    have hf : fieldRaw acc base m = (swapPol acc.bigend acc.width.toNat (BitVec.ofNat acc.width.toNat
        (leInt (memRead m (fieldAddr acc base) (acc.width.toNat / 8))))).toNat := by
      rw [fieldRaw_aligned h hk, hx, spanInt, hn]
    unfold fieldInt
    rw [hf]
    cases acc.signed
    · simp [asInteger]
    · simp only [if_true]
      rw [toInt_eq_asInteger (by rcases hw with hw | hw | hw | hw <;> omega)]
  · simp only [hk]; exact hgen (.inl hk)
  · simp only [hk]; exact hgen (.inr hk)

/-- A configured float field has 32 or 64 bits, is not signed, and is aligned if it has 64 (42_dispatch.md R145, R148). -/
theorem float_facts {acc : Acc} {w : Nat} (h : ConfiguredFacts acc) (hf : FloatField acc w) :
    (w = 32 ∨ w = 64) ∧ acc.signed = false ∧ (w = 64 → acc.kind = .aligned) := by
  have hsk := selectKind_eq_some h.kind
  have hft : tagFloat acc.tag = true := h.float ▸ hf.float
  rw [hf.width, hft] at hsk
  refine ⟨?_, ?_, ?_⟩
  · rcases hf.kind with hk | hk | hk <;> rw [hk] at hsk <;>
      simp only [reduceCtorEq, false_and, or_false, false_or, true_and, forall_const] at hsk <;> exact hsk.2.2.1
  · rw [h.signed]
    cases hg : acc.tag <;> rw [hg] at hft <;> first | rfl | exact absurd hft (by decide)
  · rintro rfl
    rcases hf.kind with hk | hk | hk
    · exact hk
    · rw [hk] at hsk
      simp at hsk
      omega
    · rw [hk] at hsk
      simp at hsk
      omega

theorem isF64_iff {acc : Acc} {w : Nat} (h : ConfiguredFacts acc) (hf : FloatField acc w) : isF64 acc = decide (w = 64) := by
  unfold isF64
  rw [hf.width]
  by_cases hw : w = 64
  · simp [hw, (float_facts h hf).2.2 hw]
  · simp [hw]

/-- What a float read takes from the buffer, in both codecs (R107, R108, R124 to R126). -/
theorem naturalRead_float {acc : Acc} {w : Nat} (h : ConfiguredFacts acc) (hf : FloatField acc w) (base : Addr)
    (m : Memory) : naturalRead acc base m = .float (fieldFloat acc base m) := by
  obtain ⟨hw, hs, h64⟩ := float_facts h hf
  have hgen : ∀ (_ : acc.kind = .gen32 ∨ acc.kind = .gen64),
      genericRead (stagingWidth acc) acc base m = .float (fieldFloat acc base m) := by
    intro hk
    have hp : (placeR acc (stagingWidth acc) (BitVec.ofNat (stagingWidth acc)
        (leInt (memRead m (fieldAddr acc base) acc.nbytes.toNat)))).toNat = fieldRaw acc base m :=
      placeR_toNat h hk (memRead_length _ _ _)
    have hw32 : acc.width.toNat ≠ 64 := by
      intro hc
      have := h64 (hf.width ▸ hc)
      rw [this] at hk
      simp at hk
    unfold genericRead fieldFloat
    rw [← hp]
    simp only [hf.float, hs, if_true, if_false, Bool.false_eq_true, hw32, BitVec.ofNat_toNat]
  unfold naturalRead
  rcases hf.kind with hk | hk | hk
  · obtain ⟨hsw, -, hn⟩ := aligned_facts h hk
    have hx := swapPol_load hsw acc.bigend (memRead_length m (fieldAddr acc base) (acc.width.toNat / 8))
    have hr : fieldRaw acc base m = (swapPol acc.bigend acc.width.toNat (BitVec.ofNat acc.width.toNat
        (leInt (memRead m (fieldAddr acc base) (acc.width.toNat / 8))))).toNat := by
      rw [fieldRaw_aligned h hk, hx, spanInt, hn]
    have hi := isF64_iff h hf
    simp only [hk, alignedRead, hf.float, if_true, hi, fieldFloat, hr]
    rw [hf.width]
    rcases hw with rfl | rfl
    · simp only [decide_eq_true_eq, if_false, show ¬ (32 = 64) by omega, BitVec.ofNat_toNat]
    · simp only [decide_eq_true_eq, if_true, BitVec.ofNat_toNat]
  · simp only [hk]; exact hgen (.inl hk)
  · simp only [hk]; exact hgen (.inr hk)

/-! ### Writes -/

/-- The bytes a generic write ORs in (R130). -/
theorem genericBytes_eq {acc : Acc} (h : ConfiguredFacts acc) (hk : acc.kind = .gen32 ∨ acc.kind = .gen64)
    (p : BitVec (stagingWidth acc)) :
    genericBytes (stagingWidth acc) acc p =
      (if acc.bigend then beBytes acc.nbytes.toNat (p.toNat % 2 ^ acc.width.toNat * 2 ^ acc.bitoff.toNat)
       else leBytes acc.nbytes.toNat (p.toNat % 2 ^ acc.width.toNat * 2 ^ acc.bitoff.toNat)) := by
  obtain ⟨hW, hS, -, hwW, hbo, -, hfit, hnS, hsh⟩ := generic_facts h hk
  have hsw : swapWidth (stagingWidth acc) := by unfold swapWidth; omega
  have hP : p.toNat % 2 ^ acc.width.toNat < 2 ^ acc.width.toNat := Nat.mod_lt _ (Nat.two_pow_pos _)
  have hy : p.toNat % 2 ^ acc.width.toNat * 2 ^ acc.bitoff.toNat < 2 ^ (8 * acc.nbytes.toNat) := by
    calc p.toNat % 2 ^ acc.width.toNat * 2 ^ acc.bitoff.toNat
        < 2 ^ acc.width.toNat * 2 ^ acc.bitoff.toNat := Nat.mul_lt_mul_of_pos_right hP (Nat.two_pow_pos _)
      _ = 2 ^ (acc.width.toNat + acc.bitoff.toNat) := (Nat.pow_add _ _ _).symm
      _ ≤ _ := Nat.pow_le_pow_right (by omega) hfit
  unfold genericBytes placeW
  rw [swapPol_store hsw, BitVec.toNat_shiftLeft, BitVec.toNat_and, mask_toNat h (by omega),
    Nat.and_two_pow_sub_one_eq_mod, Nat.shiftLeft_eq, hsh, show stagingWidth acc / 8 = acc.sw.toNat by omega]
  cases acc.bigend
  · simp only [if_false, Bool.false_eq_true]
    have hle : 2 ^ (8 * acc.nbytes.toNat) ≤ 2 ^ stagingWidth acc := Nat.pow_le_pow_right (by omega) (by omega)
    rw [Nat.mod_eq_of_lt (by omega), leBytes_take _ _ _ hnS]
  · simp only [if_true]
    have he : p.toNat % 2 ^ acc.width.toNat * 2 ^ ((acc.sw.toNat - acc.nbytes.toNat) * 8 + acc.bitoff.toNat) =
        p.toNat % 2 ^ acc.width.toNat * 2 ^ acc.bitoff.toNat * 2 ^ (8 * (acc.sw.toNat - acc.nbytes.toNat)) := by
      rw [Nat.pow_add, Nat.mul_comm _ 8]; ring
    have hlt : p.toNat % 2 ^ acc.width.toNat * 2 ^ acc.bitoff.toNat * 2 ^ (8 * (acc.sw.toNat - acc.nbytes.toNat))
        < 2 ^ stagingWidth acc := by
      calc _ < 2 ^ (8 * acc.nbytes.toNat) * 2 ^ (8 * (acc.sw.toNat - acc.nbytes.toNat)) :=
            Nat.mul_lt_mul_of_pos_right hy (Nat.two_pow_pos _)
        _ = 2 ^ stagingWidth acc := by rw [← Nat.pow_add]; congr 1; omega
    have hsum : acc.sw.toNat = acc.sw.toNat - acc.nbytes.toNat + acc.nbytes.toNat := by omega
    rw [he, Nat.mod_eq_of_lt hlt, beBytes]
    nth_rewrite 1 [hsum]
    rw [leBytes_mul_pow, List.reverse_append, List.take_left' (by simp), beBytes]

theorem zipWith_or_span {big : Bool} {as bs : List Byte} (h : as.length = bs.length) :
    (if big then beInt (List.zipWith (fun x y => x ||| y) as bs) else leInt (List.zipWith (fun x y => x ||| y) as bs)) =
      (if big then beInt as else leInt as) ||| (if big then beInt bs else leInt bs) := by
  cases big
  · exact leInt_zipWith_or as bs h
  · simp only [if_true, beInt_eq_leInt_reverse]
    rw [List.reverse_zipWith h, leInt_zipWith_or _ _ (by simpa using h)]

/-- The span after a generic write (R130). -/
theorem genericWrite_span {acc : Acc} (h : ConfiguredFacts acc) (hk : acc.kind = .gen32 ∨ acc.kind = .gen64)
    (base : Addr) (m : Memory) (p : BitVec (stagingWidth acc)) :
    spanInt acc base (genericWrite (stagingWidth acc) acc base m p) =
      spanInt acc base m ||| (p.toNat % 2 ^ acc.width.toNat * 2 ^ acc.bitoff.toNat) := by
  obtain ⟨-, -, -, -, -, -, hfit, -, -⟩ := generic_facts h hk
  have hP : p.toNat % 2 ^ acc.width.toNat < 2 ^ acc.width.toNat := Nat.mod_lt _ (Nat.two_pow_pos _)
  have hy : p.toNat % 2 ^ acc.width.toNat * 2 ^ acc.bitoff.toNat < 2 ^ (8 * acc.nbytes.toNat) := by
    calc p.toNat % 2 ^ acc.width.toNat * 2 ^ acc.bitoff.toNat
        < 2 ^ acc.width.toNat * 2 ^ acc.bitoff.toNat := Nat.mul_lt_mul_of_pos_right hP (Nat.two_pow_pos _)
      _ = 2 ^ (acc.width.toNat + acc.bitoff.toNat) := (Nat.pow_add _ _ _).symm
      _ ≤ _ := Nat.pow_le_pow_right (by omega) hfit
  have hlen : (memRead m (fieldAddr acc base) acc.nbytes.toNat).length =
      (genericBytes (stagingWidth acc) acc p).length := by
    rw [genericBytes_eq h hk]; split <;> simp
  have hw := memRead_memWrite m (fieldAddr acc base) (List.zipWith (fun x y => x ||| y)
    (memRead m (fieldAddr acc base) acc.nbytes.toNat) (genericBytes (stagingWidth acc) acc p))
  rw [List.length_zipWith, ← hlen, memRead_length, Nat.min_self] at hw
  have hn := acc.nbytes.isLt
  unfold spanInt genericWrite
  rw [hw (by omega), zipWith_or_span hlen, genericBytes_eq h hk]
  cases acc.bigend
  · simp only [if_false, Bool.false_eq_true, leInt_leBytes, Nat.mod_eq_of_lt hy]
  · simp only [if_true, beInt_beBytes, Nat.mod_eq_of_lt hy]

/-- The field after a generic write (R130). -/
theorem genericWrite_field {acc : Acc} (h : ConfiguredFacts acc) (hk : acc.kind = .gen32 ∨ acc.kind = .gen64)
    (base : Addr) (m : Memory) (p : BitVec (stagingWidth acc)) :
    fieldRaw acc base (genericWrite (stagingWidth acc) acc base m p) =
      fieldRaw acc base m ||| p.toNat % 2 ^ acc.width.toNat := by
  have hP : p.toNat % 2 ^ acc.width.toNat < 2 ^ acc.width.toNat := Nat.mod_lt _ (Nat.two_pow_pos _)
  unfold fieldRaw
  rw [genericWrite_span h hk]
  apply Nat.eq_of_testBit_eq
  intro i
  simp only [Nat.testBit_mod_two_pow, Nat.testBit_div_two_pow, Nat.testBit_or, Nat.testBit_mul_two_pow]
  by_cases hi : i < acc.width.toNat <;> simp [hi]

/-- The bytes of the footprint after an aligned write (R109). -/
theorem alignedWrite_bytes {acc : Acc} (h : ConfiguredFacts acc) (hk : acc.kind = .aligned) (base : Addr) (m : Memory)
    (p : BitVec acc.width.toNat) :
    memRead (alignedWrite acc.width.toNat acc base m p) (fieldAddr acc base) (acc.width.toNat / 8) =
      if acc.bigend then beBytes (acc.width.toNat / 8) p.toNat else leBytes (acc.width.toNat / 8) p.toNat := by
  obtain ⟨hw, -, -⟩ := aligned_facts h hk
  have hl := h.width
  have hr := memRead_memWrite m (fieldAddr acc base)
    (leBytes (acc.width.toNat / 8) (swapPol acc.bigend acc.width.toNat p).toNat)
  rw [leBytes_length] at hr
  unfold alignedWrite
  rw [hr (by omega), swapPol_store hw]

/-- The field after an aligned write (R109, R110). -/
theorem alignedWrite_field {acc : Acc} (h : ConfiguredFacts acc) (hk : acc.kind = .aligned) (base : Addr) (m : Memory)
    (p : BitVec acc.width.toNat) : fieldRaw acc base (alignedWrite acc.width.toNat acc base m p) = p.toNat := by
  obtain ⟨hw, -, hn⟩ := aligned_facts h hk
  have h8 : 8 * (acc.width.toNat / 8) = acc.width.toNat := by rcases hw with hw | hw | hw | hw <;> omega
  rw [fieldRaw_aligned h hk, spanInt, hn, alignedWrite_bytes h hk]
  cases acc.bigend
  · simp only [if_false, Bool.false_eq_true, leInt_leBytes, h8, Nat.mod_eq_of_lt p.isLt]
  · simp only [if_true, beInt_beBytes, h8, Nat.mod_eq_of_lt p.isLt]

end Sys2Proof.Machine
end

