-- ==== Sys2Proof/Laws/Adapters.lean ====
section
/-! SUPPORT. The adapters (43_access.md): what each command reads and writes through an accessor CFG wrote. -/

namespace Sys2Proof.Machine

/-! ### Numbers -/

theorem ofInt_toNat (W : Nat) (x : Int) : (BitVec.ofInt W x).toNat = wrapTo W x := by
  simp [wrapTo]

/-- The low bits of the low bits. -/
theorem wrapTo_mod (w W : Nat) (x : Int) (h : w ≤ W) : wrapTo W x % 2^w = wrapTo w x := by
  unfold wrapTo
  have h1 : (2:Int)^w ∣ 2^W := pow_dvd_pow _ h
  have h2 : (0:Int) ≤ x % 2^W := Int.emod_nonneg _ (by positivity)
  have h3 : (0:Int) ≤ x % 2^w := Int.emod_nonneg _ (by positivity)
  zify
  rw [Int.toNat_of_nonneg h2, Int.toNat_of_nonneg h3, Int.emod_emod_of_dvd _ h1]

theorem ofInt_of_ofInt64 (W : Nat) (h : W ≤ 64) (x : Int) :
    BitVec.ofInt W (BitVec.ofInt 64 x).toInt = BitVec.ofInt W x := by
  apply BitVec.eq_of_toNat_eq
  rw [ofInt_toNat, ofInt_toNat, ← wrapTo_mod W 64 x h, ← wrapTo_mod W 64 _ h, BitVec.toInt_ofInt]
  congr 1
  unfold wrapTo
  congr 1
  exact Int.bmod_emod

theorem ofInt_of_toInt (W : Nat) (h : W ≤ 64) (v : BitVec 64) : BitVec.ofInt W v.toInt = v.setWidth W := by
  have : BitVec.ofInt 64 (v.toNat : Int) = v := by simp
  rw [← this, ofInt_of_ofInt64 W h]
  simp

theorem setWidth32_ofInt64 (x : Int) :
    ((BitVec.ofInt 64 x).setWidth 32).setWidth 64 = BitVec.ofNat 64 (wrapTo 32 x) := by
  apply BitVec.eq_of_toNat_eq
  have h := wrapTo_mod 32 64 x (by norm_num)
  rw [← ofInt_toNat] at h
  rw [BitVec.toNat_setWidth, BitVec.toNat_setWidth, h, BitVec.toNat_ofNat]

/-! ### Reads -/

/-- What each RD command answers for an integer natural value (R162). -/
theorem integerReads_of_natural {s : State} {base len} (ha : accessError s.acc len = none) (v : Int)
    (hn : naturalRead s.acc base s.mem = .int v) :
   ∀ p ∈ integerReads base len v, exec p.1 s = .next { s with rsp := some ⟨.ok, p.2⟩ } := by
  intro p hp
  have key : ∀ x : Int, (BitVec.ofInt 32 x).setWidth 64 = BitVec.ofNat 64 (wrapTo 32 x) := by
    intro x
    apply BitVec.eq_of_toNat_eq
    simp [wrapTo]
  simp only [integerReads, List.mem_cons, List.not_mem_nil, or_false] at hp
  rcases hp with rfl|rfl|rfl|rfl|rfl|rfl|rfl <;>
    simp only [exec, execRdU64, execRdI64, execRdU32, execRdI32, execRdF32, execRdF64, execRdBool,
        runRead_of_ok _ ha, hn, adaptU64, adaptI64, adaptU32, adaptI32, adaptF32, adaptF64, adaptBool, key] <;>
    simp [State.complete]

/-! ### Where the bits of a field lie (R126) -/

theorem read_eq_memRead_getElem (m addr n) (j : Nat) (h : j < n) :
    m.read (addr + BitVec.ofNat 64 j) = (memRead m addr n)[j]'(by simpa using h) := by
  rw [memRead_getElem]

theorem bufferAddr_add (base : Addr) (i j : Nat) :
    bufferAddr base (i + j) = bufferAddr base i + BitVec.ofNat 64 j := by
  unfold bufferAddr; rw [BitVec.add_assoc, BitVec.ofNat_add]

/-- Bit `k` of the span, low byte first. -/
theorem spanInt_testBit_le {acc : Acc} {base m} (h : acc.bigend = false) (k)
    (hk : k < 8 * acc.nbytes.toNat): (spanInt acc base m).testBit k =
      (m.read (bufferAddr base (acc.byteoff.toNat + k / 8))).getLsbD (k % 8) := by
  unfold spanInt
  rw [h]; simp only [if_false, Bool.false_eq_true]
  rw [leInt_testBit, bufferAddr_add, read_eq_memRead_getElem m _ acc.nbytes.toNat _ (by omega)]
  rw [List.getElem?_eq_getElem (by simp; omega)]; rfl

/-- Bit `k` of the span, high byte first. -/
theorem spanInt_testBit_be {acc : Acc} {base m} (h : acc.bigend = true) (k)
    (hk : k < 8 * acc.nbytes.toNat): (spanInt acc base m).testBit k =
      (m.read (bufferAddr base (acc.byteoff.toNat + acc.nbytes.toNat - 1 - k / 8))).getLsbD (k % 8) := by
  unfold spanInt
  rw [h]; simp only [if_true]
  rw [beInt_eq_leInt_reverse, leInt_testBit,
      show acc.byteoff.toNat + acc.nbytes.toNat - 1 - k / 8 =
        acc.byteoff.toNat + (acc.nbytes.toNat - 1 - k/8) by omega, bufferAddr_add,
        read_eq_memRead_getElem m _ acc.nbytes.toNat _ (by omega)]
  rw [List.getElem?_eq_getElem (by simp; omega), List.getElem_reverse];
  simp [fieldAddr]

/-- The width of an aligned or generic accessor, and that the field lies in its footprint. -/
theorem field_in_footprint {acc : Acc} (h : ConfiguredFacts acc)
    (hk : acc.kind = .aligned ∨ acc.kind = .gen32 ∨ acc.kind = .gen64) : 2 ≤ acc.width.toNat ∧ acc.width.toNat ≤ 64 ∧
    acc.width.toNat + acc.bitoff.toNat ≤ 8 * acc.nbytes.toNat ∧ acc.bitoff.toNat < 8 := by
  have hb := acc.bitoff.isLt
  rcases hk with hk | hk
  · obtain ⟨h1, h2, h3⟩ := aligned_facts h hk
    rcases h1 with h1 | h1 | h1 | h1 <;> omega
  · obtain ⟨-, -, h1, -, h2, -, h3, -, -⟩ := generic_facts h hk
    exact ⟨h1, h.width, h3, h2⟩

/-- The bits of an integer on the 64-bit port. -/
theorem asInteger_getLsbD {sg w x} (hw : 1 ≤ w) (hx : x < 2^w) (hw64 : w ≤ 64) (i : Nat) (hi : i < 64) :
    (BitVec.ofInt 64 (asInteger sg w x)).getLsbD i = if i < w then x.testBit i else (sg && x.testBit (w-1)) := by
  have hxb : (BitVec.ofNat w x).toNat = x := by simp [Nat.mod_eq_of_lt hx]
  cases sg with
  | false =>
    simp only [asInteger, Bool.false_eq_true, false_and, if_false, BitVec.ofInt_natCast, BitVec.getLsbD_ofNat,
        hi, decide_true, Bool.true_and]
    split
    · rfl
    · rename_i h; exact Nat.testBit_lt_two_pow (Nat.lt_of_lt_of_le hx (Nat.pow_le_pow_right (by omega) (by omega)))
  | true =>
    have := toInt_eq_asInteger hw (BitVec.ofNat w x)
    rw [hxb] at this
    rw [← this]
    have : BitVec.ofInt 64 (BitVec.ofNat w x).toInt = (BitVec.ofNat w x).signExtend 64 := rfl
    rw [this, BitVec.getLsbD_signExtend]
    simp only [hi, decide_true, Bool.true_and, BitVec.msb_eq_getLsbD_last, BitVec.getLsbD_ofNat]
    split
    · simp_all
    · simp; omega

/-! ### Writes -/

/-- A write that passes the checks, as one record. -/
theorem runWrite_ready {s : State} {base len} (o) (h : accessError s.acc len = none) :
    runWrite base len o s = { s with mem := (naturalWrite s.draws s.acc base s.mem o).val, draws :=
    s.draws + (naturalWrite s.draws s.acc base s.mem o).drew.toNat, rsp := some ⟨.ok, 0⟩ } := runWrite_of_ok o h

/-- The pattern of each integer or truth write for an integer codec (R165). -/
theorem integerWrites_pattern (acc : Acc) (hfl : acc.float = false) (base : Addr) (len v) :
   ∀ p ∈ integerWrites base len v, ∃ o, (∀ s, exec p.1 s = .next (runWrite base len o s)) ∧ (∀ W n,
       pattern W acc n o = .pure (BitVec.ofInt W p.2)) := by
  intro p hp
  simp only [integerWrites, List.mem_cons, List.not_mem_nil, or_false] at hp
  rcases hp with rfl|rfl|rfl|rfl|rfl
  · exact ⟨_, fun s => rfl, fun W n => by simp [pattern, hfl, intPattern, operandU64]⟩
  · refine ⟨_, fun s => rfl, fun W n => ?_⟩
    simp only [pattern, hfl, intPattern, operandI64]
    simp only [Bool.false_eq_true, if_false]
    congr
    rw [BitVec.toInt]
    split <;> split <;> first | rfl | omega
  · refine ⟨_, fun s => rfl, fun W n => ?_⟩
    simp [pattern, hfl, intPattern, operandU32]
  · refine ⟨_, fun s => rfl, fun W n => ?_⟩
    simp only [pattern, hfl, intPattern, operandI32]
    simp only [Bool.false_eq_true, if_false]
    congr
    rw [BitVec.toInt, BitVec.toNat_setWidth]
    split <;> split <;> first | rfl | omega
  · refine ⟨_, fun s => rfl, fun W n => ?_⟩
    simp only [pattern, hfl, intPattern, operandBool]
    simp only [Bool.false_eq_true, if_false]
    congr
    have h1 : v.getLsbD 0 = decide (v.toNat % 2 = 1) := by simp [BitVec.getLsbD, Nat.testBit_zero]
    rw [h1]
    by_cases h : v.toNat % 2 = 1
    · simp only [h, decide_true, if_true]; apply BitVec.eq_of_toNat_eq; simp
    · have : v.toNat % 2 = 0 := by omega
      simp only [this]; apply BitVec.eq_of_toNat_eq; simp

theorem pattern_operandI64 {acc : Acc} (hfl : acc.float = false) (n v) : ∀ W ≤ 64,
    pattern W acc n (operandI64 v) = .pure (v.setWidth W) := by
  intro W hW
  simp only [pattern, hfl, operandI64, intPattern, Bool.false_eq_true, if_false]
  rw [ofInt_of_toInt W hW]

theorem pattern_operandU64 {acc : Acc} (hfl : acc.float = false) (n v) : ∀ W ≤ 64,
    pattern W acc n (operandU64 v) = .pure (v.setWidth W) := by
  intro W hW
  simp only [pattern, hfl, operandU64, intPattern, Bool.false_eq_true, if_false]
  simp

theorem pattern_float32 {acc : Acc} (h : ConfiguredFacts acc) (hf : FloatField acc 32) (W n o) :
    pattern W acc n o = (floatPattern32 n o).map (fun p => p.setWidth W) := by
  unfold pattern; rw [isF64_iff h hf, hf.float]; simp

theorem pattern_float64 {acc : Acc} (h : ConfiguredFacts acc) (hf : FloatField acc 64) (W n o) :
    pattern W acc n o = (floatPattern64 n o).map (fun p => p.setWidth W) := by
  unfold pattern; rw [isF64_iff h hf, hf.float]; simp

theorem naturalWrite_generic {acc : Acc} (hk : acc.kind = .gen32 ∨ acc.kind = .gen64) (n base m o) :
    naturalWrite n acc base m o =
      (pattern (stagingWidth acc) acc n o).map (genericWrite (stagingWidth acc) acc base m) := by
  unfold naturalWrite
  rcases hk with hk | hk <;> rw [hk]

theorem codec_width_le {acc : Acc} (h : ConfiguredFacts acc)
    (hk : acc.kind = .aligned ∨ acc.kind = .gen32 ∨ acc.kind = .gen64) : acc.width.toNat ≤ 64 ∧
      stagingWidth acc ≤ 64 := by
  refine ⟨h.width, ?_⟩
  rcases hk with hk | hk
  · unfold stagingWidth; rw [h.sw, hk]; simp [swOf]
  · obtain ⟨h1, -⟩ := generic_facts h hk; omega

/-- The field after a write through an aligned or generic accessor, from the low bits of the pattern (R110, R130). -/
theorem naturalWrite_field {acc : Acc} (h : ConfiguredFacts acc)
    (hk : acc.kind = .aligned ∨ acc.kind = .gen32 ∨ acc.kind = .gen64) (n base m o) (P : Nat)
   (hP : ∀ W, acc.width.toNat ≤ W → W ≤ 64 → (pattern W acc n o).val.toNat % 2 ^ acc.width.toNat = P) :
       fieldRaw acc base (naturalWrite n acc base m o).val = if acc.kind =
         .aligned then P else fieldRaw acc base m ||| P := by
  rcases hk with hk | hk
  · have := hP acc.width.toNat le_rfl h.width
    rw [Nat.mod_eq_of_lt (BitVec.isLt _)] at this
    unfold naturalWrite; rw [hk]; simp only [drawn_map_val, if_true]
    rw [alignedWrite_field h hk, this]
  · obtain ⟨hW, -, -, hw, -⟩ := generic_facts h hk
    have := hP (stagingWidth acc) (by omega) (by omega)
    rw [naturalWrite_generic hk, drawn_map_val, genericWrite_field h hk, this, if_neg]
    rcases hk with hk | hk <;> rw [hk] <;> simp

/-- What a write of a pattern leaves of the footprint as one number: an aligned one the pattern, a generic one the OR of
what stood there and the pattern's field bits in their place (R109, R130). -/
theorem naturalWrite_span {acc : Acc} (h : ConfiguredFacts acc)
    (hk : acc.kind = .aligned ∨ acc.kind = .gen32 ∨ acc.kind = .gen64) (n base m o) (P : Nat)
    (hP : ∀ W, acc.width.toNat ≤ W → W ≤ 64 → (pattern W acc n o).val.toNat % 2 ^ acc.width.toNat = P) :
    spanInt acc base (naturalWrite n acc base m o).val =
      if acc.kind = .aligned then P else spanInt acc base m ||| P <<< acc.bitoff.toNat := by
  by_cases ha : acc.kind = .aligned
  · rw [← fieldRaw_aligned h ha, naturalWrite_field h hk n base m o P hP, if_pos ha, if_pos ha]
  · have hg := hk.resolve_left ha
    obtain ⟨hW, -, -, hw, -⟩ := generic_facts h hg
    rw [if_neg ha, naturalWrite_generic hg, drawn_map_val, genericWrite_span h hg, hP _ (by omega) (by omega),
      Nat.shiftLeft_eq]

theorem naturalWrite_drew {acc : Acc}
    (hk : acc.kind = .aligned ∨ acc.kind = .gen32 ∨ acc.kind = .gen64) (n base m o d)
   (hP : ∀ W, (pattern W acc n o).drew = d) : (naturalWrite n acc base m o).drew = d := by
  rcases hk with hk | hk
  · unfold naturalWrite; rw [hk]; exact hP _
  · rw [naturalWrite_generic hk]; exact hP _

/-- Operands with the same patterns write the same. -/
theorem naturalWrite_congr_pattern {acc : Acc} (hk : acc.width.toNat ≤ 64 ∧ stagingWidth acc ≤ 64)
    (hk : acc.kind = .aligned ∨ acc.kind = .gen32 ∨ acc.kind = .gen64) {n base m o o'} (h : ∀ W ≤ 64,
    pattern W acc n o = pattern W acc n o') : naturalWrite n acc base m o = naturalWrite n acc base m o' := by
  unfold naturalWrite
  rcases hk with hk | hk | hk <;> rw [hk] <;> simp only
  · rw [h _ (by omega)]
  · rw [h _ (by omega)]
  · rw [h _ (by omega)]

theorem naturalWrite_of_pattern {acc : Acc} (hw : acc.width.toNat ≤ 64 ∧ stagingWidth acc ≤ 64)
    (hk : acc.kind = .aligned ∨ acc.kind = .gen32 ∨ acc.kind = .gen64) {n base m o o' d} (h : ∀ W ≤ 64,
    pattern W acc n o = ⟨(pattern W acc n o').val, d⟩) :
    naturalWrite n acc base m o = ⟨(naturalWrite n acc base m o').val, d⟩ := by
  unfold naturalWrite
  rcases hk with hk | hk | hk <;> rw [hk] <;> simp only
  · rw [h _ (by omega)]; rfl
  · rw [h _ (by omega)]; rfl
  · rw [h _ (by omega)]; rfl

/-- An OR-write clears no bit (R128). -/
theorem memWrite_or_mono (m : Memory) (addr : Addr) (n : Nat) (cs : List Byte) (hn : n < 2^64): ∀ a k,
    (m.read a).getLsbD k = true →
   ((memWrite m addr (List.zipWith (fun o c => o ||| c) (memRead m addr n) cs)).read a).getLsbD k = true := by
  induction n generalizing m addr cs with
  | zero => intro a k h; simpa [memRead, memWrite] using h
  | succ n ih =>
    intro a k h
    cases cs with
    | nil => simpa [memWrite] using h
    | cons c cs =>
      simp only [memRead, List.zipWith_cons_cons, memWrite]
      have h1 : memRead m (addr + 1) n = memRead (m.write addr (m.read addr ||| c)) (addr + 1) n := by
        apply memRead_congr
        intro a ha
        rw [read_write_ne]
        rintro rfl
        exact notMem_addrRange_succ (by omega) ha
      rw [h1]
      apply ih (m.write addr (m.read addr ||| c)) (addr+1) cs
      · omega
      · rw [read_write]
        split
        · subst_vars; simp [h]
        · exact h

/-! ### The bit codec -/

theorem bit_facts {acc : Acc} (h : ConfiguredFacts acc) (hk : acc.kind = .bit) : acc.width.toNat = 1 ∧
    acc.nbytes.toNat = 1 := by
  have hsk := selectKind_eq_some h.kind
  have hn := h.nbytes
  rw [hk] at hn hsk
  simp at hsk
  exact ⟨hsk.2, hn⟩

theorem and_bit (b : Byte) (k : Nat) (h : k < 8) : (b &&& (1#8 <<< k) ≠ 0) ↔ b.getLsbD k = true := by
  have : ∀ b : Byte, ∀ k < 8, (b &&& (1#8 <<< k) ≠ 0) ↔ b.getLsbD k = true := by decide
  exact this b k h

theorem or_bit (b : Byte) (k j : Nat) (h : k < 8) (hj : j < 8) :
    (b ||| (1#8 <<< k)).getLsbD j = if j = k then true else b.getLsbD j := by
  rw [BitVec.getLsbD_or]
  have : ∀ k < 8, ∀ j < 8, (1#8 <<< k).getLsbD j = decide (j = k) := by decide
  rw [this k h j hj]; by_cases hjk : j = k <;> simp [hjk]

theorem and_not_bit (b : Byte) (k j : Nat) (h : k < 8) (hj : j < 8) :
    (b &&& ~~~ (1#8 <<< k)).getLsbD j = if j = k then false else b.getLsbD j := by
  rw [BitVec.getLsbD_and]
  have : ∀ k < 8, ∀ j < 8, (~~~(1#8 <<< k)).getLsbD j = !decide (j = k) := by decide
  rw [this k h j hj]; by_cases hjk : j = k <;> simp [hjk]

/-- Each WR command on a bit-codec accessor writes the truth of its operand (R167). -/
theorem truthWrites_bit (base : Addr) (len v) (s : State) (ha : accessError s.acc len = none)
    (hk : s.acc.kind = .bit) : ∀ p ∈ truthWrites base len v,
   exec p.1 s = .next (State.complete { s with mem := bitWrite s.acc base s.mem p.2 } 0) := by
  intro p hp
  have h64 : v ≠ 0 ↔ v.toNat ≠ 0 := by
    constructor
    · intro h hc; exact h (BitVec.eq_of_toNat_eq hc)
    · rintro h rfl; exact h rfl
  have hv := v.isLt
  simp only [truthWrites, List.mem_cons, List.not_mem_nil, or_false] at hp
  have hw : ∀ n o, naturalWrite n s.acc base s.mem o = .pure (bitWrite s.acc base s.mem (operandTruth o)) := by
    intro n o; unfold naturalWrite; rw [hk]
  have e2 : operandTruth (operandI64 v) = decide (v.toNat ≠ 0) := by
    simp only [operandTruth, operandI64, BitVec.toInt]
    split <;> simp only [decide_eq_decide] <;> omega
  have e3 : operandTruth (operandU32 v) = decide (v.toNat % 2^32 ≠ 0) := by
    simp only [operandTruth, operandU32, BitVec.toNat_setWidth]; simp only [decide_eq_decide]; omega
  have e4 : operandTruth (operandI32 v) = decide (v.toNat % 2^32 ≠ 0) := by
    simp only [operandTruth, operandI32, BitVec.toInt, BitVec.toNat_setWidth]
    split <;> simp only [decide_eq_decide] <;> omega
  have e5 : operandTruth (operandF32 v) = decide (v.toNat % 2^31 ≠ 0) := by
    have : (v.setWidth 32).extractLsb' 0 31 = 0#31 ↔ v.toNat % 2^31 = 0 := by
      rw [← BitVec.toNat_inj]; simp
    simp only [operandTruth, operandF32, fzero]
    rw [Bool.eq_iff_iff]; simp [this]
  have e6 : operandTruth (operandF64 v) = decide (v.toNat % 2^63 ≠ 0) := by
    have : v.extractLsb' 0 63 = 0#63 ↔ v.toNat % 2^63 = 0 := by
      rw [← BitVec.toNat_inj]; simp
    simp only [operandTruth, operandF64, fzero]
    rw [Bool.eq_iff_iff]; simp [this]
  have e7 : operandTruth (operandBool v) = decide (v.toNat % 2 = 1) := by
    simp [operandTruth, operandBool, BitVec.getLsbD, Nat.testBit_zero]
  rcases hp with rfl|rfl|rfl|rfl|rfl|rfl|rfl <;>
    simp only [exec, execWrU64, execWrI64, execWrU32, execWrI32, execWrF32, execWrF64, execWrBool,
        runWrite_of_ok _ ha, hw, drawn_pure_val, drawn_pure_drew, spend_false, e2, e3, e4, e5, e6, e7]
  simp [operandTruth, operandU64]

end Sys2Proof.Machine
end

