-- ==== Sys2Proof/Laws/Decode.lean ====
section
/-! SUPPORT. The command word and the bits of a request (30_encoding.md R60, R61, R64). -/

namespace Sys2Proof

/-- The command word is its two fields (R61). -/
theorem cmd_toNat (r : Request) : r.cmd.toNat = r.opc.toNat + 2 ^ 8 * r.rsvd.toNat := by
  simp only [Request.opc, Request.rsvd, BitVec.extractLsb'_toNat]
  have := r.cmd.isLt
  omega

/-- Reading back the bits of a request. -/
theorem ofBits_toBits (r : Request) : Request.ofBits r.toBits = r := by
  obtain ⟨c, st, wi, tg, ba, le, wd⟩ := r
  have h1 := c.isLt; have h2 := st.isLt; have h3 := wi.isLt; have h4 := tg.isLt; have h5 := ba.isLt
  have h6 := le.isLt; have h7 := wd.isLt
  simp only [Request.ofBits, Request.toBits, Request.mk.injEq]
  refine ⟨?_, ?_, ?_, ?_, ?_, ?_, ?_⟩ <;> apply BitVec.eq_of_toNat_eq <;> simp only [BitVec.toNat_ofNat] <;> omega

theorem toBits_lt (r : Request) : r.toBits < 2 ^ 296 := by
  obtain ⟨c, st, wi, tg, ba, le, wd⟩ := r
  have h1 := c.isLt; have h2 := st.isLt; have h3 := wi.isLt; have h4 := tg.isLt; have h5 := ba.isLt
  have h6 := le.isLt; have h7 := wd.isLt
  simp only [Request.toBits]
  omega

end Sys2Proof
end

