-- ==== Sys2Proof/Laws/Float.lean ====
section
/-! SUPPORT. What the conversion primitives give (00_scope.md R14, R15): values, truncation, rounding. -/

namespace Sys2Proof.Machine

/-- The rational value of an `F32` pattern, from its classification (R14). -/
theorem value_classify32 (f : BitVec 32) :
    f32Value f = match classify32 f with
      | .finite neg m e => some ((if neg then -1 else 1) * ((m:ℚ) * 2 ^ e))
      | _ => none := by
  have h1 : (f.extractLsb' 23 8).toNat = exponent32 f := by simp [exponent32, Nat.shiftRight_eq_div_pow]
  have h2 : (f.extractLsb' 0 23).toNat = fraction32 f := by simp [fraction32]
  have h3 : f.getLsbD 31 = decide (2^31 ≤ f.toNat) := by
    have := BitVec.msb_eq_decide f
    rwa [BitVec.msb_eq_getLsbD_last] at this
  unfold f32Value classify32 classifyFields
  rw [h1, h2, h3]
  clear h1 h2 h3
  by_cases hs : 2^31 ≤ f.toNat <;> by_cases he : exponent32 f = 255 <;> by_cases h0 :
      exponent32 f = 0 <;> by_cases hfr : fraction32 f = 0 <;> simp [he, h0, hfr] <;> ring_nf

/-- The rational value of an `F64` pattern, from its classification (R14). -/
theorem value_classify64 (f : BitVec 64) :
    f64Value f = match classify64 f with
      | .finite neg m e => some ((if neg then -1 else 1) * ((m:ℚ) * 2 ^ e))
      | _ => none := by
  have h1 : (f.extractLsb' 52 11).toNat = exponent64 f := by simp [exponent64, Nat.shiftRight_eq_div_pow]
  have h2 : (f.extractLsb' 0 52).toNat = fraction64 f := by simp [fraction64]
  have h3 : f.getLsbD 63 = decide (2^63 ≤ f.toNat) := by
    have := BitVec.msb_eq_decide f
    rwa [BitVec.msb_eq_getLsbD_last] at this
  unfold f64Value classify64 classifyFields
  rw [h1, h2, h3]
  clear h1 h2 h3
  by_cases hs : 2^63 ≤ f.toNat <;> by_cases he : exponent64 f = 2047 <;> by_cases h0 :
      exponent64 f = 0 <;> by_cases hfr : fraction64 f = 0 <;> simp [he, h0, hfr] <;> ring_nf

theorem isNan32_iff (f) : isNan32 f ↔ classify32 f = .nan := by
  have h1 : (f.extractLsb' 23 8).toNat = exponent32 f := by simp [exponent32, Nat.shiftRight_eq_div_pow]
  have h2 : (f.extractLsb' 0 23).toNat = fraction32 f := by simp [fraction32]
  unfold isNan32 classify32 classifyFields
  rw [h1, h2]
  norm_num
  by_cases he : exponent32 f = 255 <;> by_cases h0 : exponent32 f = 0 <;> by_cases hf :
      fraction32 f = 0 <;> simp [he, h0, hf]

theorem isNan64_iff (f) : isNan64 f ↔ classify64 f = .nan := by
  have h1 : (f.extractLsb' 52 11).toNat = exponent64 f := by simp [exponent64, Nat.shiftRight_eq_div_pow]
  have h2 : (f.extractLsb' 0 52).toNat = fraction64 f := by simp [fraction64]
  unfold isNan64 classify64 classifyFields
  rw [h1, h2]
  norm_num
  by_cases he : exponent64 f = 2047 <;> by_cases h0 : exponent64 f = 0 <;> by_cases hf :
      fraction64 f = 0 <;> simp [he, h0, hf]

/-- The sign of a classified value. -/
def signOf (neg : Bool) : ℚ := if neg then -1 else 1

theorem classify32_sign {f neg m e} (h : classify32 f = .finite neg m e) : f.getLsbD 31 = neg := by
  unfold classify32 classifyFields at h
  split at h
  · split at h <;> simp at h
  · split at h <;> cases h <;> rfl

theorem classify64_sign {f neg m e} (h : classify64 f = .finite neg m e) : f.getLsbD 63 = neg := by
  unfold classify64 classifyFields at h
  split at h
  · split at h <;> simp at h
  · split at h <;> cases h <;> rfl

theorem classify_of_value64 {f x} (h : f64Value f = some x) : ∃ neg m e, classify64 f = .finite neg m e ∧
    x = signOf neg * (m * 2 ^ e) ∧ f.getLsbD 63 = neg := by
  rw [value_classify64] at h
  split at h
  · rename_i neg m e hc
    cases h
    exact ⟨neg, m, e, hc, rfl, classify64_sign hc⟩
  · simp at h

theorem classify_of_value32 {f x} (h : f32Value f = some x) : ∃ neg m e, classify32 f = .finite neg m e ∧
    x = signOf neg * (m * 2 ^ e) ∧ f.getLsbD 31 = neg := by
  rw [value_classify32] at h
  split at h
  · rename_i neg m e hc
    cases h
    exact ⟨neg, m, e, hc, rfl, classify32_sign hc⟩
  · simp at h

/-- The significand and exponent of a finite `F32`. -/
theorem classify32_bounds {f neg m e} (h : classify32 f = .finite neg m e) : m < 2 ^ 24 ∧ -149 ≤ e ∧ e ≤ 104 := by
  have h1 := (f.extractLsb' 23 8).isLt
  have h2 := (f.extractLsb' 0 23).isLt
  unfold classify32 classifyFields at h
  generalize (f.extractLsb' 23 8).toNat = x at *
  generalize (f.extractLsb' 0 23).toNat = y at *
  split at h
  · split at h <;> simp at h
  · split at h <;> cases h <;> norm_num at * <;> omega

theorem classify64_inf_sign {f neg} (h : classify64 f = .inf neg) : f.getLsbD 63 = neg := by
  unfold classify64 classifyFields at h
  split at h
  · split at h <;> cases h; rfl
  · split at h <;> cases h

/-! ### Truncation (R15) -/

theorem truncMag_floor (m : Nat) (e : Int) : (truncMag m e : Int) = ⌊(m:ℚ) * 2 ^ e⌋ := by
  unfold truncMag
  split
  · rename_i h
    obtain ⟨k, rfl⟩ := Int.eq_ofNat_of_zero_le h
    simp
    have : ((m:ℚ) * 2^k) = ((m * 2^k : Int) : ℚ) := by push_cast; rfl
    rw [this, Int.floor_intCast]
  · rename_i h
    obtain ⟨k, hk⟩ : ∃ k : Nat, e = -k := ⟨(-e).toNat, by omega⟩
    subst hk
    simp only [neg_neg, Int.toNat_natCast, zpow_neg, zpow_natCast]
    rw [show (m:ℚ) * (2^k)⁻¹ = ((m : Nat) : ℚ) / ((2^k : Nat) : ℚ) by push_cast; rfl, Rat.floor_natCast_div_natCast]
    exact Int.natCast_ediv _ _

/-- Truncation is rounding toward zero. -/
theorem truncate_eq (neg m e) : truncate neg m e = towardZero ((if neg then -1 else 1) * ((m:ℚ) * 2 ^ e)) := by
  have h0 : (0:ℚ) ≤ (m:ℚ) * 2^e := by positivity
  unfold truncate towardZero
  rw [truncMag_floor]
  cases neg
  · simp [h0]
  · simp only [if_true]
    split
    · rename_i h
      have : (m:ℚ) * 2^e = 0 := by linarith
      rw [this]; simp
    · rw [neg_one_mul, Int.ceil_neg]

theorem inRange_iff (sg t) : inF2IRange sg t = true ↔ inRange sg t := by
  unfold inF2IRange inRange; cases sg <;> simp

/-- `F2I` where the truncated value is in range. -/
theorem f2i_ok {n f sg q} (hv : floatValue f = some q) (hr : inRange sg (towardZero q)) :
    f2i n f sg = .pure (BitVec.ofInt 64 (towardZero q)) := by
  have key : ∀ c : FloatClass, FloatVal.classify f = c → f2i n f sg = .pure (BitVec.ofInt 64 (towardZero q)) := by
    intro c hc
    cases f with
    | f32 f =>
      simp only [floatValue, value_classify32] at hv
      simp only [FloatVal.classify] at hc
      rw [hc] at hv
      cases c <;> simp only [Option.some.injEq, reduceCtorEq] at hv
      unfold f2i; simp only [FloatVal.classify, hc]
      subst hv
      rw [truncate_eq, if_pos ((inRange_iff _ _).2 hr)]
    | f64 f =>
      simp only [floatValue, value_classify64] at hv
      simp only [FloatVal.classify] at hc
      rw [hc] at hv
      cases c <;> simp only [Option.some.injEq, reduceCtorEq] at hv
      unfold f2i; simp only [FloatVal.classify, hc]
      subst hv
      rw [truncate_eq, if_pos ((inRange_iff _ _).2 hr)]
  exact key _ rfl

/-- `F2I` where there is no integer in range: a draw, of any value. -/
theorem f2i_bad {n f sg} (h : ∀ q, floatValue f = some q → ¬ inRange sg (towardZero q)) :
    f2i n f sg = ⟨Config.f2iInvalid n f sg, true⟩ := by
  have key : ∀ c : FloatClass, FloatVal.classify f = c → f2i n f sg = ⟨Config.f2iInvalid n f sg, true⟩ := by
    intro c hc
    unfold f2i
    rw [hc]
    cases c with
    | nan => rfl
    | inf => rfl
    | finite neg m e =>
      simp only
      rw [if_neg]
      rw [inRange_iff, truncate_eq]
      apply h
      cases f with
      | f32 f => simp only [floatValue, value_classify32]; simp only [FloatVal.classify] at hc; rw [hc]
      | f64 f => simp only [floatValue, value_classify64]; simp only [FloatVal.classify] at hc; rw [hc]
  exact key _ rfl

/-! ### Rounding (R15) -/

/-- The exponent of the last place of the subnormals. -/
def emin (eb fb : Nat) : Int := 2 - 2 ^ (eb - 1) - fb

/-- The magnitude that the exponent and fraction fields, as one number, stand for. -/
def magValue (eb fb N : Nat) : ℚ :=
  if N / 2 ^ fb = 0 then ((N % 2 ^ fb : Nat) : ℚ) * 2 ^ emin eb fb
  else ((2 ^ fb + N % 2 ^ fb : Nat) : ℚ) * 2 ^ ((N / 2 ^ fb : Nat) - 1 + emin eb fb)

theorem two_zpow_add_nat (q : Int) (k : Nat) : (2:ℚ) ^ (q + k) = 2 ^ k * 2 ^ q := by
  rw [zpow_add₀ (by norm_num), zpow_natCast, mul_comm]

theorem magValue_place_eq (eb fb d r : Nat) (h : d = 0 ∨ 2 ^ fb ≤ r) (hr : r ≤ 2 ^ (fb + 1)) :
    magValue eb fb (d * 2 ^ fb + r) = r * 2 ^ (emin eb fb + d) := by
  have hp : 0 < 2 ^ fb := Nat.two_pow_pos _
  have hp2 : 2 ^ (fb + 1) = 2 * 2 ^ fb := by rw [Nat.pow_succ]; ring
  unfold magValue
  rcases Nat.lt_or_ge r (2 ^ fb) with h1 | h1
  · obtain rfl : d = 0 := by omega
    simp [Nat.div_eq_of_lt h1, Nat.mod_eq_of_lt h1]
  · rcases Nat.lt_or_ge r (2 ^ (fb + 1)) with h2 | h2
    · obtain ⟨f, rfl⟩ : ∃ f, r = 2 ^ fb + f := ⟨r - 2 ^ fb, by omega⟩
      have hf : f < 2 ^ fb := by omega
      have e1 : (d * 2 ^ fb + (2 ^ fb + f)) = (d + 1) * 2 ^ fb + f := by ring
      rw [e1, Nat.mul_comm, Nat.mul_add_div hp, Nat.mul_add_mod, Nat.div_eq_of_lt hf, Nat.mod_eq_of_lt hf]
      rw [if_neg (by omega)]
      congr 2; push_cast; ring
    · obtain rfl : r = 2 ^ (fb + 1) := by omega
      have e1 : d * 2 ^ fb + 2 ^ (fb + 1) = (d + 2) * 2 ^ fb := by rw [hp2]; ring
      rw [e1, Nat.mul_div_cancel _ hp, Nat.mul_mod_left, if_neg (by omega)]
      rw [show ((d + 2 : Nat) : Int) - 1 + emin eb fb = (emin eb fb + d) + (1 : Nat) by push_cast; ring,
          two_zpow_add_nat]
      push_cast; ring

/-- Every magnitude is an integer of at most `fb + 1` bits times a power of two. -/
theorem magValue_place (eb fb N : Nat) : ∃ d k : Nat, k < 2 ^ (fb + 1) ∧
    magValue eb fb N = k * 2 ^ (emin eb fb + d) := by
  have hp : 0 < 2 ^ fb := Nat.two_pow_pos _
  have hp2 : 2 ^ (fb + 1) = 2 * 2 ^ fb := by rw [Nat.pow_succ]; ring
  have hm := Nat.mod_lt N hp
  unfold magValue
  split
  · exact ⟨0, N % 2 ^ fb, by omega, by simp⟩
  · rename_i h
    refine ⟨N / 2 ^ fb - 1, 2 ^ fb + N % 2 ^ fb, by omega, ?_⟩
    have := Nat.pos_of_ne_zero h
    congr 2; omega

theorem magValue_strictMono (eb fb : Nat) : StrictMono (magValue eb fb) := by
  apply strictMono_nat_of_lt_succ
  intro N
  have hp : 0 < 2 ^ fb := Nat.two_pow_pos _
  have hp2 : 2 ^ (fb + 1) = 2 * 2 ^ fb := by rw [Nat.pow_succ]; ring
  have hm := Nat.mod_lt N hp
  have hd := Nat.div_add_mod N (2 ^ fb)
  obtain ⟨d, r, hN, h1, h2⟩ : ∃ d r, N = d * 2 ^ fb + r ∧ (d = 0 ∨ 2 ^ fb ≤ r) ∧ r < 2 ^ (fb + 1) := by
    by_cases h : N / 2 ^ fb = 0
    · exact ⟨0, N % 2 ^ fb, by rw [h] at hd; omega, .inl rfl, by omega⟩
    · obtain ⟨d, hd'⟩ : ∃ d, N / 2 ^ fb = d + 1 := Nat.exists_eq_succ_of_ne_zero h
      refine ⟨d, 2 ^ fb + N % 2 ^ fb, ?_, .inr (by omega), by omega⟩
      rw [hd'] at hd
      have : 2 ^ fb * (d + 1) = d * 2 ^ fb + 2 ^ fb := by ring
      omega
  rw [hN, Nat.add_assoc, magValue_place_eq _ _ _ _ h1 h2.le, magValue_place_eq _ _ _ (r+1) (by omega) (by omega)]
  have : (0:ℚ) < 2 ^ (emin eb fb + d) := by positivity
  push_cast
  nlinarith

/-- `roundShift` gives a nearest integer, and of two equally near the even one. -/
theorem roundShift_nearest (m k : Nat) (j : Int) :
    |(roundShift m k : Int) * 2 ^ k - m| ≤ |j * 2 ^ k - m| ∧
    (|(roundShift m k : Int) * 2 ^ k - m| = |j * 2 ^ k - m| → j ≠ roundShift m k → roundShift m k % 2 = 0) := by
  have hp : 0 < 2 ^ k := Nat.two_pow_pos k
  have hd := Nat.div_add_mod m (2 ^ k)
  have hlt := Nat.mod_lt m hp
  unfold roundShift
  simp only
  generalize m / 2 ^ k = q at *
  generalize m % 2 ^ k = r at *
  generalize hP : 2 ^ k = P at *
  have hPz : (2:Int) ^ k = P := by rw [← hP]; push_cast; rfl
  rw [hPz]
  have hm : (m : Int) = P * q + r := by rw [← hd]; push_cast; ring
  rw [hm]
  have key : ∀ a : Int, |(q + a) * (P:Int) - (P * q + r)| = |a * P - r| := by intro a; congr 1; ring
  obtain ⟨a, rfl⟩ : ∃ a : Int, j = q + a := ⟨j - q, by ring⟩
  rw [key a]
  have hfar : ∀ a : Int, 2 ≤ a ∨ a ≤ -1 → (P : Int) + r ≤ |a * P - r| ∨ 2 * (P:Int) - r ≤ |a * P - r| := by
    intro a ha
    rcases ha with ha | ha
    · right
      rw [abs_of_nonneg] <;> nlinarith
    · left
      rw [abs_of_nonpos] <;> nlinarith
  have h0 : |(0:Int) * P - r| = r := by rw [zero_mul, zero_sub, abs_neg, abs_of_nonneg (by omega)]
  have h1 : |(1:Int) * P - r| = P - r := by rw [one_mul, abs_of_nonneg (by omega)]
  have ha : a = 0 ∨ a = 1 ∨ (2 ≤ a ∨ a ≤ -1) := by omega
  split
  · rename_i hc
    have := key 1
    push_cast
    rw [this, h1]
    rcases ha with rfl | rfl | ha
    · rw [h0]; constructor
      · omega
      · intro h _; omega
    · rw [h1]; constructor
      · omega
      · intro _ h; omega
    · have := hfar a ha
      constructor
      · omega
      · intro h _; omega
  · rename_i hc
    have := key 0
    rw [add_zero] at this
    rw [this, h0]
    rcases ha with rfl | rfl | ha
    · rw [h0]; constructor
      · omega
      · intro _ h; omega
    · rw [h1]; constructor
      · omega
      · intro h _; omega
    · have := hfar a ha
      constructor
      · omega
      · intro h _; omega

/-- The rounded significand. -/
def significand (eb fb m : Nat) (e : Int) : Nat :=
  if lastPlace eb fb m e ≤ e then m * 2 ^ (e - lastPlace eb fb m e).toNat
  else roundShift m (lastPlace eb fb m e - e).toNat

theorem sig_nearest (eb fb m : Nat) (e : Int) (j : Int) :
    |(significand eb fb m e : ℚ) * 2 ^ lastPlace eb fb m e - m * 2 ^ e| ≤ |(j:ℚ) * 2 ^ lastPlace eb fb m e - m * 2 ^ e| ∧
    (|(significand eb fb m e : ℚ) * 2 ^ lastPlace eb fb m e - m * 2 ^ e| =
          |(j:ℚ) * 2 ^ lastPlace eb fb m e - m * 2 ^ e| →
        j ≠ significand eb fb m e → significand eb fb m e % 2 = 0) := by
  unfold significand
  generalize lastPlace eb fb m e = q
  split
  · rename_i h
    obtain ⟨k, rfl⟩ : ∃ k : Nat, e = q + k := ⟨(e - q).toNat, by omega⟩
    have h2 : (2:ℚ)^q ≠ 0 := by positivity
    have : ((m * 2 ^ (q + k - q).toNat : Nat) : ℚ) * 2 ^ q - m * 2 ^ (q + k) = 0 := by
      rw [two_zpow_add_nat, show (q + k - q).toNat = k by omega]; push_cast; ring
    rw [this]
    constructor
    · simp
    · intro h hj
      exfalso; apply hj
      rw [abs_zero] at h
      have := abs_eq_zero.1 h.symm
      rw [two_zpow_add_nat, show (q + k - q).toNat = k by omega] at *
      have h3 : ((j:ℚ) - m * 2 ^ k) * 2 ^ q = 0 := by rw [← this]; ring
      rcases mul_eq_zero.1 h3 with h4 | h4
      · have : (j:ℚ) = ((m * 2 ^ k : Nat):Int) := by push_cast; linarith
        exact_mod_cast this
      · exact absurd h4 h2
  · rename_i h
    obtain ⟨k, rfl⟩ : ∃ k : Nat, q = e + k := ⟨(q - e).toNat, by omega⟩
    rw [show (e + k - e).toNat = k by omega]
    have hpos : (0:ℚ) < 2 ^ e := by positivity
    have hs : ∀ i : Int, |(i:ℚ) * 2 ^ (e + k) - m * 2 ^ e| = ((|i * 2 ^ k - m| : Int) : ℚ) * 2 ^ e := by
      intro i
      rw [two_zpow_add_nat, show (i:ℚ) * (2 ^ k * 2 ^ e) - m * 2 ^ e = (i * 2 ^ k - m) * 2 ^ e by ring, abs_mul,
          abs_of_pos hpos]
      congr 1
      push_cast; rfl
    have := roundShift_nearest m k j
    have h1 := hs (roundShift m k)
    rw [show (((roundShift m k : Nat):Int):ℚ) = (roundShift m k : ℚ) by push_cast; rfl] at h1
    rw [h1, hs j]
    constructor
    · have := this.1
      gcongr
    · intro h hj
      apply this.2 _ hj
      have := mul_right_cancel₀ hpos.ne' h
      exact_mod_cast this

theorem roundShift_le (m k B : Nat) (h : m < (B + 1) * 2 ^ k) : roundShift m k ≤ B + 1 := by
  unfold roundShift
  have : m / 2 ^ k < B + 1 := Nat.div_lt_of_lt_mul (by rwa [Nat.mul_comm] )
  simp only; split <;> omega

theorem roundShift_ge (m k B : Nat) (h : B * 2 ^ k ≤ m) : B ≤ roundShift m k := by
  unfold roundShift
  have : B ≤ m / 2 ^ k := (Nat.le_div_iff_mul_le (Nat.two_pow_pos k)).2 h
  simp only; split <;> omega

theorem sig_bounds (eb fb m : Nat) (e : Int) (hm : m ≠ 0) : significand eb fb m e ≤ 2 ^ (fb + 1) ∧
    (lastPlace eb fb m e = emin eb fb ∨
   (2 ^ fb ≤ significand eb fb m e ∧ (2:ℚ) ^ fb * 2 ^ lastPlace eb fb m e ≤ m * 2 ^ e)) ∧
       emin eb fb ≤ lastPlace eb fb m e := by
  have hl1 : 2 ^ m.log2 ≤ m := Nat.log2_self_le hm
  have hl2 : m < 2 ^ (m.log2 + 1) := Nat.lt_log2_self
  have hmin : emin eb fb ≤ lastPlace eb fb m e := le_max_right _ _
  have hge : e + m.log2 - fb ≤ lastPlace eb fb m e := le_max_left _ _
  have hcase : lastPlace eb fb m e = emin eb fb ∨ lastPlace eb fb m e = e + m.log2 - fb := by
    unfold lastPlace emin; rcases max_choice (e + m.log2 - fb : Int) (2 - 2 ^ (eb - 1) - fb) with h | h <;> simp [h]
  refine ⟨?_, ?_, hmin⟩
  · unfold significand
    generalize lastPlace eb fb m e = q at *
    split
    · rename_i h
      have h1 : m.log2 + 1 + (e - q).toNat ≤ fb + 1 := by omega
      calc m * 2 ^ (e - q).toNat ≤ 2 ^ (m.log2 + 1) * 2 ^ (e - q).toNat := Nat.mul_le_mul_right _ hl2.le
        _ = 2 ^ (m.log2 + 1 + (e - q).toNat) := (Nat.pow_add _ _ _).symm
        _ ≤ _ := Nat.pow_le_pow_right (by omega) h1
    · rename_i h
      have h1 : m.log2 + 1 ≤ fb + 1 + (q - e).toNat := by omega
      have h2 : m < 2 ^ (fb + 1) * 2 ^ (q - e).toNat := by
        rw [← Nat.pow_add]; exact lt_of_lt_of_le hl2 (Nat.pow_le_pow_right (by omega) h1)
      have hp : 0 < 2 ^ (fb + 1) := Nat.two_pow_pos _
      have := roundShift_le m (q - e).toNat (2 ^ (fb + 1) - 1) (by rwa [Nat.sub_add_cancel hp])
      omega
  · rcases hcase with h | h
    · exact .inl h
    · right
      constructor
      · unfold significand
        rw [h]
        split
        · rename_i h3
          have h1 : fb = m.log2 + (e - (e + m.log2 - fb)).toNat := by omega
          calc 2 ^ fb = 2 ^ m.log2 * 2 ^ (e - (e + m.log2 - fb)).toNat := by rw [← Nat.pow_add, ← h1]
            _ ≤ _ := Nat.mul_le_mul_right _ hl1
        · rename_i h3
          apply roundShift_ge
          rw [← Nat.pow_add, show fb + (e + m.log2 - fb - e).toNat = m.log2 by omega]
          exact hl1
      · rw [h]
        have : (2:ℚ) ^ fb * 2 ^ (e + m.log2 - fb) = 2 ^ m.log2 * 2 ^ e := by
          rw [← two_zpow_add_nat, ← two_zpow_add_nat]; congr 1; omega
        rw [this]
        have : ((2 ^ m.log2 : Nat) : ℚ) ≤ m := by exact_mod_cast hl1
        push_cast at this
        have hpos : (0:ℚ) < 2 ^ e := by positivity
        nlinarith

/-- The fields before the clamp to infinity. -/
def rawFields (eb fb m : Nat) (e : Int) : Nat :=
    (lastPlace eb fb m e - emin eb fb).toNat * 2 ^ fb + significand eb fb m e

theorem roundFields_eq (eb fb m : Nat) (e : Int) (hm : m ≠ 0) :
    roundFields eb fb m e = min (rawFields eb fb m e) ((2 ^ eb - 1) * 2 ^ fb) := by
  unfold roundFields rawFields significand emin
  rw [if_neg hm]

theorem rawFields_value (eb fb m : Nat) (e : Int) (hm : m ≠ 0) :
    magValue eb fb (rawFields eb fb m e) = significand eb fb m e * 2 ^ lastPlace eb fb m e := by
  obtain ⟨h1, h2, h3⟩ := sig_bounds eb fb m e hm
  unfold rawFields
  rw [magValue_place_eq _ _ _ _ (by rcases h2 with h2 | h2; left; omega; right; exact h2.1) h1]
  congr 2; omega

/-- The rounded fields stand for a nearest representable value, and on a tie they are even. -/
theorem rawFields_nearest (eb fb m : Nat) (e : Int) (hm : m ≠ 0) (hfb : 1 ≤ fb) (N : Nat) (g : ℚ)
    (hg : g = magValue eb fb N ∨ g = - magValue eb fb N) :
   |magValue eb fb (rawFields eb fb m e) - m * 2 ^ e| ≤ |g - m * 2 ^ e| ∧
   (|magValue eb fb (rawFields eb fb m e) - m * 2 ^ e| = |g - m * 2 ^ e| →
       g ≠ magValue eb fb (rawFields eb fb m e) → rawFields eb fb m e % 2 = 0) := by
  obtain ⟨h1, h2, h3⟩ := sig_bounds eb fb m e hm
  have heven : significand eb fb m e % 2 = 0 → rawFields eb fb m e % 2 = 0 := by
    intro h
    obtain ⟨f, rfl⟩ : ∃ f, fb = f + 1 := ⟨fb - 1, by omega⟩
    unfold rawFields
    rw [Nat.pow_succ, ← Nat.mul_assoc, Nat.add_mod, Nat.mul_mod_left, h]
  rw [rawFields_value _ _ _ _ hm]
  set x : ℚ := m * 2 ^ e with hx
  set q := lastPlace eb fb m e
  have hxpos : 0 < x := by have : (0:ℚ) < m := by exact_mod_cast Nat.pos_of_ne_zero hm
                           positivity
  have hq : (0:ℚ) < 2 ^ q := by positivity
  have hnear := fun j => sig_nearest eb fb m e j
  have hint : ∀ j : Int, g = j * 2 ^ q → |(significand eb fb m e : ℚ) * 2 ^ q - x| ≤ |g - x| ∧
      (|(significand eb fb m e : ℚ) * 2 ^ q - x| = |g - x| → g ≠ (significand eb fb m e : ℚ) * 2 ^ q →
      rawFields eb fb m e % 2 = 0) := by
    rintro j rfl
    refine ⟨(hnear j).1, fun h hne => heven ((hnear j).2 h ?_)⟩
    rintro rfl
    exact hne (by push_cast; rfl)
  have hstrict : (∃ j : Int, |(j:ℚ) * 2 ^ q - x| < |g - x|) →
      |(significand eb fb m e : ℚ) * 2 ^ q - x| ≤ |g - x| ∧
        (|(significand eb fb m e : ℚ) * 2 ^ q - x| = |g - x| →
      g ≠ (significand eb fb m e : ℚ) * 2 ^ q → rawFields eb fb m e % 2 = 0) := by
    rintro ⟨j, hj⟩
    have := lt_of_le_of_lt (hnear j).1 hj
    exact ⟨this.le, fun h => absurd h this.ne⟩
  obtain ⟨d, k, hk, hv⟩ := magValue_place eb fb N
  rw [hv] at hg
  rcases hg with hg | hg
  · by_cases hd : q ≤ emin eb fb + d
    · obtain ⟨t, ht⟩ : ∃ t : Nat, emin eb fb + d = q + t := ⟨(emin eb fb + d - q).toNat, by omega⟩
      apply hint (k * 2 ^ t)
      rw [hg, ht, two_zpow_add_nat]; push_cast; ring
    · apply hstrict
      refine ⟨2 ^ fb, ?_⟩
      rcases h2 with h2 | h2
      · omega
      · have hle : g < 2 ^ fb * 2 ^ q := by
          rw [hg]
          have hk' : (k:ℚ) < 2 ^ (fb + 1) := by exact_mod_cast hk
          calc (k:ℚ) * 2 ^ (emin eb fb + d) < 2 ^ (fb + 1) * 2 ^ (emin eb fb + d) := by
                  have : (0:ℚ) < 2 ^ (emin eb fb + d) := by positivity
                  nlinarith
            _ ≤ 2 ^ (fb + 1) * 2 ^ (q - 1) := by gcongr; norm_num; omega
            _ = 2 ^ fb * 2 ^ q := by
                  rw [pow_succ, mul_assoc,
                      show (2:ℚ) * 2 ^ (q - 1) = 2 ^ q by rw [← zpow_one_add₀ (by norm_num)]; congr 1; ring]
        have h22 := h2.2
        push_cast
        rw [abs_of_nonpos (by linarith), abs_of_nonpos (by linarith)]
        linarith
  · by_cases hk0 : k = 0
    · apply hint 0
      rw [hg, hk0]; simp
    · apply hstrict
      refine ⟨0, ?_⟩
      have : (0:ℚ) < k := by exact_mod_cast Nat.pos_of_ne_zero hk0
      have : 0 < (k:ℚ) * 2 ^ (emin eb fb + d) := by positivity
      rw [hg, abs_of_nonpos (by push_cast; linarith), abs_of_nonpos (by linarith)]
      push_cast; linarith

/-- The fields reach those of infinity exactly from half a last place above the largest finite value. -/
theorem rawFields_overflow (eb fb m : Nat) (e : Int) (hm : m ≠ 0) (hfb : 1 ≤ fb) (heb : 2 ≤ eb) :
   (2 ^ eb - 1) * 2 ^ fb ≤ rawFields eb fb m e ↔ ((2:ℚ) ^ (fb + 1) - 1 / 2) * 2 ^ (emin eb fb + ((2 ^ eb - 3 :
       Nat) : Int)) ≤ m * 2 ^ e := by
  obtain ⟨h1, h2, h3⟩ := sig_bounds eb fb m e hm
  have hpow : 4 ≤ 2 ^ eb := Nat.pow_le_pow_right (n := 2) (i := 2) (by omega) heb
  have hnear := fun j => sig_nearest eb fb m e j
  obtain ⟨Dm, hDm⟩ : ∃ Dm, 2 ^ eb = Dm + 3 := ⟨2 ^ eb - 3, by omega⟩
  rw [hDm, show Dm + 3 - 3 = Dm by omega, show Dm + 3 - 1 = Dm + 2 by omega]
  unfold rawFields
  obtain ⟨D, hD⟩ : ∃ D : Nat, lastPlace eb fb m e = emin eb fb + D := ⟨(lastPlace eb fb m e - emin eb fb).toNat,
      by omega⟩
  rw [hD] at h2 hnear h3 ⊢
  rw [show (emin eb fb + D - emin eb fb).toNat = D by omega]
  generalize significand eb fb m e = r at *
  generalize hx : (m:ℚ) * 2 ^ e = x at *
  rw [two_zpow_add_nat] at h2 ⊢
  simp only [two_zpow_add_nat] at hnear
  have hE : (0:ℚ) < 2 ^ emin eb fb := by positivity
  generalize (2:ℚ) ^ emin eb fb = E at *
  have hF2 : 2 ^ (fb + 1) = 2 * 2 ^ fb := by rw [Nat.pow_succ]; ring
  have hF2q : (2:ℚ) ^ (fb + 1) = 2 * 2 ^ fb := by rw [pow_succ]; ring
  have hF : 2 ≤ 2 ^ fb := Nat.pow_le_pow_right (n := 2) (i := 1) (by omega) hfb
  have hFq : (2:ℚ) ≤ 2 ^ fb := by exact_mod_cast hF
  rw [hF2] at h1
  rw [hF2q]
  have hup : x ≤ (r + 1/2) * (2 ^ D * E) := by
    have := (hnear (r + 1)).1
    push_cast at this
    have hp : (0:ℚ) < 2 ^ D * E := by positivity
    by_contra hc
    rw [abs_of_nonpos (by nlinarith)] at this
    rcases le_or_gt x ((r+1) * (2 ^ D * E)) with h | h
    · rw [abs_of_nonneg (by linarith)] at this; linarith
    · rw [abs_of_nonpos (by linarith)] at this; linarith
  constructor
  · intro h
    rcases Nat.lt_trichotomy D Dm with hlt | rfl | hgt
    · exfalso
      have : (D + 1) * 2 ^ fb ≤ Dm * 2 ^ fb := Nat.mul_le_mul_right _ hlt
      have h5 : (Dm + 2) * 2 ^ fb = Dm * 2 ^ fb + 2 * 2 ^ fb := by ring
      have h6 : (D + 1) * 2 ^ fb = D * 2 ^ fb + 2 ^ fb := by ring
      omega
    · have h5 : (D + 2) * 2 ^ fb = D * 2 ^ fb + 2 * 2 ^ fb := by ring
      have hr : r = 2 * 2 ^ fb := by omega
      have := (hnear (2 * 2 ^ fb - 1)).1
      push_cast at this
      rw [hr] at this
      push_cast at this
      have hp : (0:ℚ) < 2 ^ D * E := by positivity
      by_contra hc
      push Not at hc
      rw [abs_of_nonneg (by nlinarith)] at this
      rcases le_or_gt x ((2 * 2 ^ fb - 1) * (2 ^ D * E)) with h | h
      · rw [abs_of_nonneg (by linarith)] at this; linarith
      · rw [abs_of_nonpos (by linarith)] at this; linarith
    · have h4 : (2:ℚ) ^ fb * (2 ^ D * E) ≤ x := by
        rcases h2 with h2 | h2
        · omega
        · exact h2.2
      have : (2:ℚ) * 2 ^ Dm ≤ 2 ^ D := by
        rw [← pow_succ']; exact pow_le_pow_right₀ (by norm_num) hgt
      have : (2:ℚ) * 2 ^ Dm * E ≤ 2 ^ D * E := by nlinarith
      have h7 : (0:ℚ) < 2 ^ Dm * E := by positivity
      nlinarith
  · intro h
    by_contra hc
    push Not at hc
    rcases Nat.lt_trichotomy D Dm with hlt | rfl | hgt
    · have : (2:ℚ) * 2 ^ D ≤ 2 ^ Dm := by
        rw [← pow_succ']; exact pow_le_pow_right₀ (by norm_num) hlt
      have : (2:ℚ) * (2 ^ D * E) ≤ 2 ^ Dm * E := by nlinarith
      have hr : (r:ℚ) ≤ 2 * 2 ^ fb := by exact_mod_cast h1
      have hp : (0:ℚ) < 2 ^ D * E := by positivity
      nlinarith
    · have h5 : (D + 2) * 2 ^ fb = D * 2 ^ fb + 2 * 2 ^ fb := by ring
      have hr : r + 1 ≤ 2 * 2 ^ fb := by omega
      have hrq : (r:ℚ) + 1 ≤ 2 * 2 ^ fb := by exact_mod_cast hr
      have hp : (0:ℚ) < 2 ^ D * E := by positivity
      have hr1 : (r:ℚ) + 1 = 2 * 2 ^ fb := by
        by_contra hne
        have : r + 2 ≤ 2 * 2 ^ fb := by
          have : r + 1 ≠ 2 * 2 ^ fb := fun h => hne (by exact_mod_cast h)
          omega
        have hrq2 : (r:ℚ) + 2 ≤ 2 * 2 ^ fb := by exact_mod_cast this
        nlinarith
      have hx2 : x = (r + 1/2) * (2 ^ D * E) := le_antisymm hup (by rw [← hr1] at h; linarith)
      have := (hnear (r + 1)).2 (by
        rw [hx2]; push_cast
        rw [abs_of_nonpos (by nlinarith), abs_of_nonneg (by nlinarith)]; ring) (by omega)
      have : r + 1 = 2 * 2 ^ fb := by exact_mod_cast hr1
      omega
    · have h5 : (Dm + 2) * 2 ^ fb = (Dm + 1) * 2 ^ fb + 2 ^ fb := by ring
      have h6 : (Dm + 1) * 2 ^ fb ≤ D * 2 ^ fb := Nat.mul_le_mul_right _ hgt
      rcases h2 with h2 | h2
      · omega
      · omega

/-! ### The two formats -/

theorem f32Value_mag (neg : Bool) (N : Nat) (h : N < 255 * 2 ^ 23) :
    f32Value (BitVec.ofNat 32 (neg.toNat * 2 ^ 31 + N)) = some ((if neg then -1 else 1) * magValue 8 23 N) := by
  have hb : neg.toNat ≤ 1 := by cases neg <;> simp
  have ht : (BitVec.ofNat 32 (neg.toNat * 2 ^ 31 + N)).toNat = neg.toNat * 2 ^ 31 + N := by
    rw [BitVec.toNat_ofNat, Nat.mod_eq_of_lt]; omega
  unfold f32Value exponent32 fraction32
  rw [ht]
  have h1 : (neg.toNat * 2 ^ 31 + N) / 2 ^ 23 % 2 ^ 8 = N / 2 ^ 23 := by omega
  have h2 : (neg.toNat * 2 ^ 31 + N) % 2 ^ 23 = N % 2 ^ 23 := by omega
  have h3 : 2 ^ 31 ≤ neg.toNat * 2 ^ 31 + N ↔ neg = true := by
    cases neg
    · simp; omega
    · simp
  rw [h1, h2, if_neg (by omega)]
  simp only [h3]
  congr 2
  unfold magValue emin
  norm_num
  split <;> [rfl; skip]
  congr 2; ring

theorem f64Value_mag (neg : Bool) (N : Nat) (h : N < 2047 * 2 ^ 52) :
    f64Value (BitVec.ofNat 64 (neg.toNat * 2 ^ 63 + N)) = some ((if neg then -1 else 1) * magValue 11 52 N) := by
  have hb : neg.toNat ≤ 1 := by cases neg <;> simp
  have ht : (BitVec.ofNat 64 (neg.toNat * 2 ^ 63 + N)).toNat = neg.toNat * 2 ^ 63 + N := by
    rw [BitVec.toNat_ofNat, Nat.mod_eq_of_lt]; omega
  unfold f64Value exponent64 fraction64
  rw [ht]
  have h1 : (neg.toNat * 2 ^ 63 + N) / 2 ^ 52 % 2 ^ 11 = N / 2 ^ 52 := by omega
  have h2 : (neg.toNat * 2 ^ 63 + N) % 2 ^ 52 = N % 2 ^ 52 := by omega
  have h3 : 2 ^ 63 ≤ neg.toNat * 2 ^ 63 + N ↔ neg = true := by
    cases neg
    · simp; omega
    · simp
  rw [h1, h2, if_neg (by omega)]
  simp only [h3]
  congr 2
  unfold magValue emin
  norm_num
  split <;> [rfl; skip]
  congr 2; ring

theorem f32Value_cases {g : BitVec 32} {r : ℚ} (h : f32Value g = some r) : ∃ N,
    r = magValue 8 23 N ∨ r = - magValue 8 23 N := by
  have := g.isLt
  refine ⟨g.toNat % 2^31, ?_⟩
  have hd : g = BitVec.ofNat 32 ((decide (2 ^ 31 ≤ g.toNat)).toNat * 2 ^ 31 + g.toNat % 2 ^ 31) := by
    apply BitVec.eq_of_toNat_eq
    rw [BitVec.toNat_ofNat]
    by_cases h : 2 ^ 31 ≤ g.toNat
    · rw [decide_eq_true h, Bool.toNat_true]; omega
    · rw [decide_eq_false h, Bool.toNat_false]; omega
  have hlt : g.toNat % 2 ^ 31 < 255 * 2 ^ 23 := by
    unfold f32Value exponent32 at h
    split at h
    · simp at h
    · omega
  rw [hd, f32Value_mag _ _ hlt] at h
  cases h
  split <;> simp

theorem f64Value_cases {g : BitVec 64} {r : ℚ} (h : f64Value g = some r) : ∃ N,
    r = magValue 11 52 N ∨ r = - magValue 11 52 N := by
  have := g.isLt
  refine ⟨g.toNat % 2^63, ?_⟩
  have hd : g = BitVec.ofNat 64 ((decide (2 ^ 63 ≤ g.toNat)).toNat * 2 ^ 63 + g.toNat % 2 ^ 63) := by
    apply BitVec.eq_of_toNat_eq
    rw [BitVec.toNat_ofNat]
    by_cases h : 2 ^ 63 ≤ g.toNat
    · rw [decide_eq_true h, Bool.toNat_true]; omega
    · rw [decide_eq_false h, Bool.toNat_false]; omega
  have hlt : g.toNat % 2 ^ 63 < 2047 * 2 ^ 52 := by
    unfold f64Value exponent64 at h
    split at h
    · simp at h
    · omega
  rw [hd, f64Value_mag _ _ hlt] at h
  cases h
  split <;> simp

theorem pack32_eq (neg m e) : pack32 neg m e = BitVec.ofNat 32 (neg.toNat * 2 ^ 31 + roundFields 8 23 m e) := by
  unfold pack32; cases neg <;> simp

theorem pack64_eq (neg m e) : pack64 neg m e = BitVec.ofNat 64 (neg.toNat * 2 ^ 63 + roundFields 11 52 m e) := by
  unfold pack64; cases neg <;> simp

theorem pack32_inf {neg m e} (hm : m ≠ 0) (h : 255 * 2 ^ 23 ≤ rawFields 8 23 m e) : pack32 neg m e = inf32 neg := by
  rw [pack32_eq, roundFields_eq _ _ _ _ hm, Nat.min_eq_right (by omega)]; cases neg <;> rfl

theorem pack32_fin {neg m e} (hm : m ≠ 0) (h : rawFields 8 23 m e < 255 * 2 ^ 23) :
    f32Value (pack32 neg m e) = some (signOf neg * magValue 8 23 (rawFields 8 23 m e)) ∧
    (pack32 neg m e).getLsbD 0 = decide (rawFields 8 23 m e % 2 = 1) := by
  rw [pack32_eq, roundFields_eq _ _ _ _ hm, Nat.min_eq_left (by omega)]
  refine ⟨f32Value_mag _ _ h, ?_⟩
  simp [BitVec.getLsbD, Nat.testBit_zero, Nat.add_mod, Nat.mul_mod]

theorem pack64_fin {neg m e} (hm : m ≠ 0) (h : rawFields 11 52 m e < 2047 * 2 ^ 52) :
    f64Value (pack64 neg m e) = some (signOf neg * magValue 11 52 (rawFields 11 52 m e)) ∧
    (pack64 neg m e).getLsbD 0 = decide (rawFields 11 52 m e % 2 = 1) := by
  rw [pack64_eq, roundFields_eq _ _ _ _ hm, Nat.min_eq_left (by omega)]
  refine ⟨f64Value_mag _ _ h, ?_⟩
  simp [BitVec.getLsbD, Nat.testBit_zero, Nat.add_mod, Nat.mul_mod]

theorem sgn_abs (neg) (a b : ℚ) : |signOf neg * a - signOf neg * b| = |a - b| := by
  unfold signOf; cases neg
  · simp
  · simp only [if_true]; rw [show -1 * a - -1 * b = -(a - b) by ring, abs_neg]

theorem sgn_sgn (neg) (a : ℚ) : signOf neg * (signOf neg * a) = a := by unfold signOf; cases neg <;> simp

theorem abs_sgn (neg) (a : ℚ) (h : 0 ≤ a): |signOf neg * a| = a := by
  unfold signOf; cases neg <;> simp [abs_of_nonneg h]

theorem pack32_zero (neg : Bool) (e : Int) : f32Value (pack32 neg 0 e) = some 0 := by
  rw [pack32_eq, show roundFields 8 23 0 e = 0 from rfl, f32Value_mag neg 0 (by norm_num)]
  simp [magValue]

theorem pack64_zero (neg : Bool) (e : Int) : f64Value (pack64 neg 0 e) = some 0 := by
  rw [pack64_eq, show roundFields 11 52 0 e = 0 from rfl, f64Value_mag neg 0 (by norm_num)]
  simp [magValue]

/-- What packing gives short of overflow: a nearest value of the format, ties to even. -/
theorem pack32_nearest (neg m e) (h : m ≠ 0 → rawFields 8 23 m e < 255 * 2 ^ 23) : ∃ q,
    f32Value (pack32 neg m e) = some q ∧
    ∀ g r, f32Value g = some r → |q - signOf neg * (m * 2 ^ e)| ≤ |r - signOf neg * (m * 2 ^ e)| ∧
        (|q - signOf neg * (m * 2 ^ e)| = |r - signOf neg * (m * 2 ^ e)| → r ≠ q →
        (pack32 neg m e).getLsbD 0 = false) := by
  by_cases hm : m = 0
  · subst hm
    refine ⟨0, pack32_zero _ _, ?_⟩
    intro g r _
    simp
    intro h1 h2; exact absurd (abs_eq_zero.1 h1.symm) h2
  · obtain ⟨h1, h2⟩ := pack32_fin (neg := neg) hm (h hm)
    refine ⟨_, h1, ?_⟩
    intro g r hg
    obtain ⟨N, hN⟩ := f32Value_cases hg
    have := rawFields_nearest 8 23 m e hm (by norm_num) N (signOf neg * r) (by
      unfold signOf; rcases hN with rfl | rfl <;> cases neg <;> simp)
    rw [← sgn_sgn neg r, sgn_abs, sgn_abs]
    refine ⟨this.1, fun h3 h4 => ?_⟩
    rw [h2]
    have := this.2 h3 (fun hc => h4 (by rw [hc]))
    simp [this]

/-- What packing gives short of overflow: a nearest value of the format, ties to even. -/
theorem pack64_nearest (neg m e) (h : m ≠ 0 → rawFields 11 52 m e < 2047 * 2 ^ 52) : ∃ q,
    f64Value (pack64 neg m e) = some q ∧
    ∀ g r, f64Value g = some r → |q - signOf neg * (m * 2 ^ e)| ≤ |r - signOf neg * (m * 2 ^ e)| ∧
        (|q - signOf neg * (m * 2 ^ e)| = |r - signOf neg * (m * 2 ^ e)| → r ≠ q →
        (pack64 neg m e).getLsbD 0 = false) := by
  by_cases hm : m = 0
  · subst hm
    refine ⟨0, pack64_zero _ _, ?_⟩
    intro g r _
    simp
    intro h1 h2; exact absurd (abs_eq_zero.1 h1.symm) h2
  · obtain ⟨h1, h2⟩ := pack64_fin (neg := neg) hm (h hm)
    refine ⟨_, h1, ?_⟩
    intro g r hg
    obtain ⟨N, hN⟩ := f64Value_cases hg
    have := rawFields_nearest 11 52 m e hm (by norm_num) N (signOf neg * r) (by
      unfold signOf; rcases hN with rfl | rfl <;> cases neg <;> simp)
    rw [← sgn_sgn neg r, sgn_abs, sgn_abs]
    refine ⟨this.1, fun h3 h4 => ?_⟩
    rw [h2]
    have := this.2 h3 (fun hc => h4 (by rw [hc]))
    simp [this]

theorem sgn_int (x : Int) : signOf (decide (x < 0)) * ((x.natAbs : ℚ) * 2 ^ (0:Int)) = x := by
  unfold signOf
  have : (x.natAbs : ℚ) = |(x:ℚ)| := by rw [Nat.cast_natAbs]; push_cast; rfl
  rw [this]
  by_cases h : x < 0
  · have : (x:ℚ) < 0 := by exact_mod_cast h
    simp [h, abs_of_neg this]
  · have : (0:ℚ) ≤ x := by exact_mod_cast (not_lt.1 h)
    simp [h, abs_of_nonneg this]

/-- When packing to `F32` stays finite. -/
theorem rawFields_lt_inf32 {m e} (hm : m ≠ 0) : rawFields 8 23 m e < 255 * 2 ^ 23 ↔
    (m:ℚ) * 2 ^ e < 2 ^ 128 - 2 ^ 103 := by
  have := rawFields_overflow 8 23 m e hm (by norm_num) (by norm_num)
  have h2 : ((2:ℚ) ^ (23 + 1) - 1 / 2) * 2 ^ (emin 8 23 + ((2 ^ 8 - 3 : Nat) : Int)) = 2 ^ 128 - 2 ^ 103 := by
    unfold emin; norm_num
  rw [h2] at this
  have h3 := not_congr this
  push Not at h3
  exact h3

/-- When packing to `F64` stays finite. -/
theorem rawFields_lt_inf64 {m e} (hm : m ≠ 0) : rawFields 11 52 m e < 2047 * 2 ^ 52 ↔
    (m:ℚ) * 2 ^ e < 2 ^ 1024 - 2 ^ 970 := by
  have := rawFields_overflow 11 52 m e hm (by norm_num) (by norm_num)
  have h2 : ((2:ℚ) ^ (52 + 1) - 1 / 2) * 2 ^ (emin 11 52 + ((2 ^ 11 - 3 : Nat) : Int)) = 2 ^ 1024 - 2 ^ 970 := by
    unfold emin; norm_num
    rw [show (2:ℚ) ^ 1024 = 2 ^ 54 * 2 ^ 970 by rw [← pow_add], show (2:ℚ)^971 = 2 * 2 ^ 970 by rw [← pow_succ']]
    generalize (2:ℚ)^970 = y
    ring
  rw [h2] at this
  have h3 := not_congr this
  push Not at h3
  exact h3

theorem pack64_sign (neg m e) : (pack64 neg m e).getLsbD 63 = neg := by
  have : ∀ N, N < 2 ^ 63 → (BitVec.ofNat 64 (neg.toNat * 2 ^ 63 + N)).getLsbD 63 = neg := by
    intro N hN
    have h3 := BitVec.msb_eq_decide (BitVec.ofNat 64 (neg.toNat * 2 ^ 63 + N))
    rw [BitVec.msb_eq_getLsbD_last] at h3
    rw [h3, BitVec.toNat_ofNat]
    cases neg <;> simp <;> omega
  rw [pack64_eq]
  apply this
  unfold roundFields
  split
  · norm_num
  · exact lt_of_le_of_lt (Nat.min_le_right _ _) (by norm_num)

theorem pack32_sign (neg m e) : (pack32 neg m e).getLsbD 31 = neg := by
  have : ∀ N, N < 2 ^ 31 → (BitVec.ofNat 32 (neg.toNat * 2 ^ 31 + N)).getLsbD 31 = neg := by
    intro N hN
    have h3 := BitVec.msb_eq_decide (BitVec.ofNat 32 (neg.toNat * 2 ^ 31 + N))
    rw [BitVec.msb_eq_getLsbD_last] at h3
    rw [h3, BitVec.toNat_ofNat]
    cases neg <;> simp <;> omega
  rw [pack32_eq]
  apply this
  unfold roundFields
  split
  · norm_num
  · exact lt_of_le_of_lt (Nat.min_le_right _ _) (by norm_num)

theorem pack32_notNan (neg m e) : ¬ isNan32 (pack32 neg m e) := by
  have hb : ∀ N, N ≤ 255 * 2 ^ 23 → ¬ isNan32 (BitVec.ofNat 32 (neg.toNat * 2 ^ 31 + N)) := by
    intro N hN
    unfold isNan32 exponent32 fraction32
    rw [BitVec.toNat_ofNat]
    cases neg <;> simp <;> omega
  rw [pack32_eq]; apply hb
  unfold roundFields
  split
  · norm_num
  · exact Nat.min_le_right _ _

/-- Packing to `F64` is exact on every finite `F32` value. -/
theorem pack64_exact {neg m} {e : Int} (hm : m < 2 ^ 24) (he : -149 ≤ e) (he2 : e ≤ 104) :
    f64Value (pack64 neg m e) = some (signOf neg * (m * 2 ^ e)) := by
  by_cases h0 : m = 0
  · subst h0; rw [pack64_zero]; simp
  have hlog : m.log2 < 24 := (Nat.log2_lt h0).2 hm
  have hq : lastPlace 11 52 m e ≤ e := by unfold lastPlace; omega
  have hfin : rawFields 11 52 m e < 2047 * 2 ^ 52 := by
    rw [rawFields_lt_inf64 h0]
    have h1 : (m:ℚ) < 2 ^ 24 := by exact_mod_cast hm
    have h2 : (2:ℚ) ^ e ≤ 2 ^ (104:Int) := zpow_le_zpow_right₀ (by norm_num) he2
    rw [show (2:ℚ) ^ 1024 = 2 ^ 54 * 2 ^ 970 by rw [← pow_add]]
    have h3 : (2:ℚ)^128 ≤ 2 ^ 970 := pow_le_pow_right₀ (by norm_num) (by norm_num)
    have h4 : (2:ℚ)^(104:Int) = 2 ^ 104 := by rw [← zpow_natCast]; rfl
    rw [h4] at h2
    have h5 : (m:ℚ) * 2 ^ e ≤ 2 ^ 24 * 2 ^ 104 := by
      have : (0:ℚ) < 2 ^ e := by positivity
      have : (0:ℚ) ≤ m := by positivity
      nlinarith
    rw [← pow_add] at h5
    have h6 : (0:ℚ) < 2 ^ 128 := by positivity
    generalize (2:ℚ)^970 = y at *
    norm_num at *
    linarith
  rw [(pack64_fin h0 hfin).1, rawFields_value _ _ _ _ h0]
  congr 2
  unfold significand; rw [if_pos hq]
  generalize lastPlace 11 52 m e = q at *
  obtain ⟨k, rfl⟩ : ∃ k : Nat, e = q + k := ⟨(e - q).toNat, by omega⟩
  rw [two_zpow_add_nat, show (q + k - q).toNat = k by omega]; push_cast; ring

theorem finite32_lt {m : Nat} {e : Int} (hm : m < 2 ^ 24) (he2 : e ≤ 104) : (m:ℚ) * 2 ^ e < 2 ^ 128 - 2 ^ 103 := by
  have h1 : (m:ℚ) ≤ 2 ^ 24 - 1 := by
    have : m ≤ 2 ^ 24 - 1 := by omega
    have : (m:ℚ) ≤ ((2 ^ 24 - 1 : Nat) : ℚ) := by exact_mod_cast this
    push_cast at this; norm_num at *; linarith
  have h2 : (2:ℚ) ^ e ≤ 2 ^ (104:Int) := zpow_le_zpow_right₀ (by norm_num) he2
  have h4 : (2:ℚ)^(104:Int) = 2 ^ 104 := by rw [← zpow_natCast]; rfl
  rw [h4] at h2
  have h5 : (m:ℚ) * 2 ^ e ≤ (2 ^ 24 - 1) * 2 ^ 104 := by
    have : (0:ℚ) < 2 ^ e := by positivity
    have : (0:ℚ) ≤ m := by positivity
    nlinarith
  refine lt_of_le_of_lt h5 ?_
  norm_num

theorem f32_decomp (g : BitVec 32) : g = BitVec.ofNat 32 ((g.getLsbD 31).toNat * 2 ^ 31 + g.toNat % 2 ^ 31) := by
  have := g.isLt
  apply BitVec.eq_of_toNat_eq
  rw [BitVec.toNat_ofNat]
  have h3 : g.getLsbD 31 = decide (2^31 ≤ g.toNat) := by
    have := BitVec.msb_eq_decide g
    rwa [BitVec.msb_eq_getLsbD_last] at this
  rw [h3]
  by_cases h : 2 ^ 31 ≤ g.toNat
  · rw [decide_eq_true h, Bool.toNat_true]; omega
  · rw [decide_eq_false h, Bool.toNat_false]; omega

/-- A finite `F32` pattern is fixed by its value and its sign. -/
theorem f32Value_inj {f g : BitVec 32} {x} (hf : f32Value f = some x) (hg : f32Value g = some x)
    (hs : f.getLsbD 31 = g.getLsbD 31) : f = g := by
  have hlt : ∀ g : BitVec 32, ∀ x, f32Value g = some x → g.toNat % 2 ^ 31 < 255 * 2 ^ 23 := by
    intro g x h
    have := g.isLt
    unfold f32Value exponent32 at h
    split at h
    · simp at h
    · omega
  have h1 := hlt f x hf
  have h2 := hlt g x hg
  rw [f32_decomp f, f32Value_mag _ _ h1] at hf
  rw [f32_decomp g, f32Value_mag _ _ h2] at hg
  rw [f32_decomp f, f32_decomp g]
  rw [hs] at hf ⊢
  congr 2
  apply (magValue_strictMono 8 23).injective
  rw [← hg] at hf
  simp only [Option.some.injEq] at hf
  split at hf <;> linarith

theorem classify32_inf {f neg} (h : classify32 f = .inf neg) : f = inf32 neg := by
  have h1 : (f.extractLsb' 23 8).toNat = f.toNat / 2 ^ 23 % 2 ^ 8 := by simp [Nat.shiftRight_eq_div_pow]
  have h2 : (f.extractLsb' 0 23).toNat = f.toNat % 2 ^ 23 := by simp
  unfold classify32 classifyFields at h
  rw [h1, h2] at h
  split at h
  · split at h
    · rename_i h3 h4
      cases h
      have hi : ∀ b, inf32 b = BitVec.ofNat 32 (b.toNat * 2 ^ 31 + 255 * 2 ^ 23) := by decide
      rw [hi]
      nth_rewrite 1 [f32_decomp f]
      congr 2
      omega
    · simp at h
  · split at h <;> simp at h

theorem classify_inf64 (neg) : classify64 (inf64 neg) = .inf neg := by cases neg <;> decide

theorem nan32_isNan (r : BitVec 32) : isNan32 (nan32 r) := by
  have h1 : ∀ m : BitVec 32, m.extractLsb' 23 8 = BitVec.allOnes 8 →
      (r ||| m).extractLsb' 23 8 = BitVec.allOnes 8 := by
    intro m hm
    rw [BitVec.extractLsb'_or, hm, BitVec.or_allOnes]
  have key : ∀ f : BitVec 32, f.extractLsb' 23 8 = BitVec.allOnes 8 → f.extractLsb' 0 23 ≠ 0#23 →
      isNan32 f := by
    intro f he hf
    rw [isNan32_iff]
    unfold classify32 classifyFields
    rw [he, if_pos (by decide), if_neg (fun h => hf (BitVec.eq_of_toNat_eq (by rw [h]; rfl)))]
  unfold nan32
  split
  · next hr =>
    refine key _ (h1 _ (by decide)) ?_
    rw [BitVec.extractLsb'_or, hr]
    decide
  · next hr =>
    refine key _ (h1 _ (by decide)) ?_
    rw [BitVec.extractLsb'_or, show (0x7F800000 : BitVec 32).extractLsb' 0 23 = 0#23 by decide, BitVec.or_zero]
    exact hr

theorem nan64_isNan (r : BitVec 64) : isNan64 (nan64 r) := by
  have h1 : ∀ m : BitVec 64, m.extractLsb' 52 11 = BitVec.allOnes 11 →
      (r ||| m).extractLsb' 52 11 = BitVec.allOnes 11 := by
    intro m hm
    rw [BitVec.extractLsb'_or, hm, BitVec.or_allOnes]
  have key : ∀ f : BitVec 64, f.extractLsb' 52 11 = BitVec.allOnes 11 → f.extractLsb' 0 52 ≠ 0#52 →
      isNan64 f := by
    intro f he hf
    rw [isNan64_iff]
    unfold classify64 classifyFields
    rw [he, if_pos (by decide), if_neg (fun h => hf (BitVec.eq_of_toNat_eq (by rw [h]; rfl)))]
  unfold nan64
  split
  · next hr =>
    refine key _ (h1 _ (by decide)) ?_
    rw [BitVec.extractLsb'_or, hr]
    decide
  · next hr =>
    refine key _ (h1 _ (by decide)) ?_
    rw [BitVec.extractLsb'_or, show (0x7FF0000000000000 : BitVec 64).extractLsb' 0 52 = 0#52 by decide,
      BitVec.or_zero]
    exact hr

/-- Everything `f2f_64` can do. -/
theorem f2f64_spec (n f) : (¬ isNan32 f → (f2f64 n f).drew = false ∧ f64Value (f2f64 n f).val = f32Value f ∧
    (f2f64 n f).val.getLsbD 63 = f.getLsbD 31 ∧ ¬ isNan64 (f2f64 n f).val) ∧
   (isNan32 f → (f2f64 n f).drew = true ∧ isNan64 (f2f64 n f).val) := by
  constructor
  · intro hn
    rw [isNan32_iff] at hn
    cases hc : classify32 f with
    | nan => exact absurd hc hn
    | inf neg =>
      have : f2f64 n f = .pure (inf64 neg) := by unfold f2f64; rw [hc]
      rw [this, classify32_inf hc]
      simp only [drawn_pure_val, drawn_pure_drew, isNan64_iff, classify_inf64]
      refine ⟨trivial, ?_, ?_, by simp⟩
      · rw [value_classify64, value_classify32, ← classify32_inf hc, classify_inf64, hc]
      · cases neg <;> rfl
    | finite neg m e =>
      have : f2f64 n f = .pure (pack64 neg m e) := by unfold f2f64; rw [hc]
      obtain ⟨h1, h2, h3⟩ := classify32_bounds hc
      have hv := pack64_exact (neg := neg) h1 h2 h3
      rw [this]
      simp only [drawn_pure_val, drawn_pure_drew]
      refine ⟨trivial, ?_, ?_, ?_⟩
      · rw [hv, value_classify32, hc]; unfold signOf; simp
      · rw [pack64_sign, classify32_sign hc]
      · rw [isNan64_iff]; intro h; rw [value_classify64, h] at hv; simp at hv
  · intro hn
    rw [isNan32_iff] at hn
    have : f2f64 n f = ⟨nan64 (Config.nanBits64 n f), true⟩ := by unfold f2f64; rw [hn]
    rw [this]; exact ⟨rfl, nan64_isNan _⟩

/-- What `f2f_32` keeps; the value it rounds to is `pack32_nearest`. -/
theorem f2f32_spec (n f) : (¬ isNan64 f → (f2f32 n f).drew = false ∧ (f2f32 n f).val.getLsbD 31 = f.getLsbD 63 ∧
    ¬ isNan32 (f2f32 n f).val ∧ (f64Value f = none → f32Value (f2f32 n f).val = none)) ∧
   (isNan64 f → (f2f32 n f).drew = true ∧ isNan32 (f2f32 n f).val) := by
  constructor
  · intro hn
    rw [isNan64_iff] at hn
    cases hc : classify64 f with
    | nan => exact absurd hc hn
    | inf neg =>
      have : f2f32 n f = .pure (inf32 neg) := by unfold f2f32; rw [hc]
      rw [this, classify64_inf_sign hc]
      simp only [drawn_pure_val, drawn_pure_drew]
      have hi : classify32 (inf32 neg) = .inf neg := by cases neg <;> decide
      refine ⟨trivial, ?_, ?_, ?_⟩
      · cases neg <;> rfl
      · rw [isNan32_iff, hi]; simp
      · intro _; rw [value_classify32, hi]
    | finite neg m e =>
      have : f2f32 n f = .pure (pack32 neg m e) := by unfold f2f32; rw [hc]
      rw [this]
      simp only [drawn_pure_val, drawn_pure_drew]
      refine ⟨trivial, ?_, ?_, ?_⟩
      · rw [pack32_sign, classify64_sign hc]
      · exact pack32_notNan _ _ _
      · intro h; rw [value_classify64, hc] at h; simp at h
  · intro hn
    rw [isNan64_iff] at hn
    have : f2f32 n f = ⟨nan32 (Config.nanBits32 n f), true⟩ := by unfold f2f32; rw [hn]
    rw [this]; exact ⟨rfl, nan32_isNan _⟩

end Sys2Proof.Machine
end

