-- ==== Sys2Proof/Laws/PerInstr.lean ====
section
/-! SUPPORT. Statements made per command: the request that `encode` presents is well formed, carries the command's word
(30_encoding.md R61, R63), and decodes to the command. -/

namespace Sys2Proof.Laws.EncodedRequest

/-- The request of a command is well formed, has the command's word, and decodes to the command. -/
def Statement (i : Sys2Proof.Instr) : Prop :=
  (encode i).wellFormed = true ∧ (encode i).cmd = commandWord i ∧ decode (encode i) = .ok i

/-- A request decodes to what `decodeOpc` gives for it once its word is known. -/
theorem of_word {r : Request} {w : BitVec 32} {i : Sys2Proof.Instr} (hw : r.cmd = w)
    (hf : (⟨w, 0, 0, 0, 0, 0, 0⟩ : Request).wellFormed = true) (hc : w = commandWord i) (hd : decodeOpc r = .ok i) :
    r.wellFormed = true ∧ r.cmd = commandWord i ∧ decode r = .ok i := by
  have h1 : r.reservedZero = (⟨w, 0, 0, 0, 0, 0, 0⟩ : Request).reservedZero := by
    unfold Request.reservedZero Request.rsvd; rw [hw]
  have h2 : r.opcodeAssigned = (⟨w, 0, 0, 0, 0, 0, 0⟩ : Request).opcodeAssigned := by
    unfold Request.opcodeAssigned Request.opc; rw [hw]
  unfold Request.wellFormed at hf ⊢
  rw [← h1, ← h2] at hf
  refine ⟨hf, hw.trans hc, ?_⟩
  unfold decode
  rw [if_pos (by simpa using (Bool.and_eq_true _ _ ▸ hf).1), hd]

variable (start width : BitVec 32) (tag : BitVec 8) (base : Addr) (len : BitVec 64) (v : Word)

theorem cfg : Statement (.cfg start width tag) := of_word (w := 0x01) rfl (by decide) rfl rfl
theorem rdU64 : Statement (.rdU64 base len) := of_word (w := 0x10) rfl (by decide) rfl rfl
theorem rdI64 : Statement (.rdI64 base len) := of_word (w := 0x11) rfl (by decide) rfl rfl
theorem rdU32 : Statement (.rdU32 base len) := of_word (w := 0x12) rfl (by decide) rfl rfl
theorem rdI32 : Statement (.rdI32 base len) := of_word (w := 0x13) rfl (by decide) rfl rfl
theorem rdF32 : Statement (.rdF32 base len) := of_word (w := 0x14) rfl (by decide) rfl rfl
theorem rdF64 : Statement (.rdF64 base len) := of_word (w := 0x15) rfl (by decide) rfl rfl
theorem rdBool : Statement (.rdBool base len) := of_word (w := 0x16) rfl (by decide) rfl rfl
theorem wrU64 : Statement (.wrU64 base len v) := of_word (w := 0x20) rfl (by decide) rfl rfl
theorem wrI64 : Statement (.wrI64 base len v) := of_word (w := 0x21) rfl (by decide) rfl rfl
theorem wrU32 : Statement (.wrU32 base len v) := of_word (w := 0x22) rfl (by decide) rfl rfl
theorem wrI32 : Statement (.wrI32 base len v) := of_word (w := 0x23) rfl (by decide) rfl rfl
theorem wrF32 : Statement (.wrF32 base len v) := of_word (w := 0x24) rfl (by decide) rfl rfl
theorem wrF64 : Statement (.wrF64 base len v) := of_word (w := 0x25) rfl (by decide) rfl rfl
theorem wrBool : Statement (.wrBool base len v) := of_word (w := 0x26) rfl (by decide) rfl rfl
theorem swap8 : Statement (.swap8 v) := of_word (w := 0x30) rfl (by decide) rfl rfl
theorem swap16 : Statement (.swap16 v) := of_word (w := 0x31) rfl (by decide) rfl rfl
theorem swap32 : Statement (.swap32 v) := of_word (w := 0x32) rfl (by decide) rfl rfl
theorem swap64 : Statement (.swap64 v) := of_word (w := 0x33) rfl (by decide) rfl rfl

end Sys2Proof.Laws.EncodedRequest
end

