-- ==== Sys2Proof/Laws/Port.lean ====
section
/-! SUPPORT. What one input at the ports can do, and what the races and the cut commands leave in memory. -/

namespace Sys2Proof.Machine

/-- A request always answers a next state: that of its command, or IllegalCommand. -/
theorem runRequest_cases (r : Request) (s : State) :
    (∃ i t, decode r = .ok i ∧ exec i s = .next t ∧ runRequest r s = .next t) ∨
    (∃ e, decode r = .error e ∧ runRequest r s = .next (s.raise .illegalCommand)) := by
  unfold runRequest
  cases h : decode r with
  | ok i =>
    obtain ⟨t, ht, -⟩ := exec_effect i s
    exact .inl ⟨i, t, rfl, ht, ht⟩
  | error e => exact .inr ⟨e, rfl, rfl⟩

/-- No request changes what waits at the ports. -/
theorem runRequest_inputs {r : Request} {s t : State} (h : runRequest r s = .next t) : t.inputs = s.inputs := by
  rcases runRequest_cases r s with ⟨i, u, -, hu, hr⟩ | ⟨e, -, hr⟩
  · rw [hr] at h
    cases h
    cases effect_of_exec hu <;> rfl
  · rw [hr] at h
    cases h
    rfl

theorem racedView_read_of_notMem (n : Nat) (m : Memory) (others : List (Addr × Byte)) {a : Addr}
    (h : a ∉ others.map Prod.fst) : (racedView n m others).read a = m.read a := by
  induction others generalizing m with
  | nil => rfl
  | cons p rest ih =>
    obtain ⟨b, v⟩ := p
    simp only [List.map_cons, List.mem_cons, not_or] at h
    rw [racedView, ih _ h.2, read_write_ne _ _ h.1]

theorem racedView_wf (n : Nat) {m : Memory} (others : List (Addr × Byte)) (h : m.wf = true) :
    (racedView n m others).wf = true := by
  induction others generalizing m with
  | nil => exact h
  | cons p rest ih => exact ih (write_wf _ _ h)

theorem settleRace_read_of_notMem (n : Nat) (writes : List Addr) (m : Memory) (others : List (Addr × Byte)) {a : Addr}
    (h : a ∉ others.map Prod.fst) : (settleRace n writes m others).read a = m.read a := by
  induction others generalizing m with
  | nil => rfl
  | cons p rest ih =>
    obtain ⟨b, v⟩ := p
    simp only [List.map_cons, List.mem_cons, not_or] at h
    rw [settleRace, ih _ h.2]
    split
    · rfl
    · exact read_write_ne _ _ h.1

theorem settleRace_wf (n : Nat) (writes : List Addr) {m : Memory} (others : List (Addr × Byte)) (h : m.wf = true) :
    (settleRace n writes m others).wf = true := by
  induction others generalizing m with
  | nil => exact h
  | cons p rest ih =>
    obtain ⟨b, v⟩ := p
    rw [settleRace]
    split
    · exact ih h
    · exact ih (write_wf _ _ h)

/-- After a race a byte the other agent wrote holds that agent's value or, among the bytes the block wrote, the
block's. -/
theorem settleRace_read_of_mem (n : Nat) (writes : List Addr) (m : Memory) (others : List (Addr × Byte))
    (hn : (others.map Prod.fst).Nodup) (p : Addr × Byte) (hp : p ∈ others) :
    (settleRace n writes m others).read p.1 = p.2 ∨
      (p.1 ∈ writes ∧ (settleRace n writes m others).read p.1 = m.read p.1) := by
  induction others generalizing m with
  | nil => simp at hp
  | cons q rest ih =>
    obtain ⟨b, v⟩ := q
    simp only [List.map_cons, List.nodup_cons] at hn
    rw [settleRace]
    rcases List.mem_cons.1 hp with rfl | hp
    · rw [settleRace_read_of_notMem _ _ _ _ hn.1]
      split
      · next h => exact .inr ⟨h.1, rfl⟩
      · exact .inl (read_write_same _ _ _)
    · rcases ih _ hn.2 hp with h | h
      · exact .inl h
      · refine .inr ⟨h.1, h.2.trans ?_⟩
        have : p.1 ≠ b := fun he => hn.1 (he ▸ List.mem_map_of_mem hp)
        split
        · rfl
        · exact read_write_ne _ _ this

theorem mem_of_mem_performedWrites {n : Nat} {writes : List Addr} {a : Addr} (h : a ∈ performedWrites n writes) :
    a ∈ writes := List.mem_of_mem_filter h

theorem cutMemory_wf (new : Memory) {old : Memory} (performed : List Addr) (h : old.wf = true) :
    (cutMemory new old performed).wf = true := by
  induction performed generalizing old with
  | nil => exact h
  | cons a rest ih => exact ih (write_wf _ _ h)

/-- A cut command leaves the bytes it had written as the whole command would, and any other byte as it was. -/
theorem cutMemory_read (new old : Memory) (performed : List Addr) (a : Addr) :
    (cutMemory new old performed).read a = if a ∈ performed then new.read a else old.read a := by
  induction performed generalizing old with
  | nil => rfl
  | cons b rest ih =>
    rw [cutMemory, ih]
    by_cases hr : a ∈ rest
    · simp [hr]
    · rw [read_write]
      by_cases hab : a = b <;> simp [hr, hab]

end Sys2Proof.Machine
end

