-- ==== Sys2Proof/Laws/Step.lean ====
section
/-! SUPPORT. What one step can do, and a run as steps. -/

namespace Sys2Proof.Machine

/-- The inversion of `step`: nothing waits, or the next input is taken and does what `runInput` says. -/
theorem step_cases {s t : State} (h : step s = .next t) :
    (s.inputs = [] ∧ t = s) ∨
    (∃ i rest, s.inputs = i :: rest ∧ runInput i { s with inputs := rest } = .next t) := by
  unfold step at h
  cases hi : s.inputs with
  | nil => rw [hi] at h; cases h; exact .inl ⟨rfl, rfl⟩
  | cons i rest => rw [hi] at h; exact .inr ⟨i, rest, rfl, h⟩

/-- A request always answers a next state. -/
theorem runRequest_total (r : Request) (s : State) : ∃ t, runRequest r s = .next t := by
  rcases runRequest_cases r s with ⟨i, u, -, -, h⟩ | ⟨e, -, h⟩
  · exact ⟨u, h⟩
  · exact ⟨_, h⟩

theorem runRaced_of_next {r : Request} {others : List (Addr × Byte)} {s t : State}
    (h : runRequest r { s with mem := racedView s.draws s.mem others } = .next t) :
    runRaced r others s =
      .next { t with mem := settleRace s.draws (requestWrites r s) t.mem others, draws := t.draws + 1 } := by
  unfold runRaced; rw [h]

theorem runCut_of_next {r : Request} {others : List (Addr × Byte)} {s t : State}
    (h : runRequest r { s with mem := racedView s.draws s.mem others } = .next t) :
    runCut r others s = .next (State.resetBlock
      { s with
        mem := settleRace s.draws (performedWrites s.draws (requestWrites r s))
          (cutMemory t.mem s.mem (performedWrites s.draws (requestWrites r s))) others
        draws := t.draws + 1 }) := by
  unfold runCut; rw [h]

/-- Every input is answered with a next state. -/
theorem runInput_total (i : Input) (s : State) : ∃ t, runInput i s = .next t := by
  cases i with
  | command r => exact runRequest_total r s
  | commandRaced r others =>
    obtain ⟨t, h⟩ := runRequest_total r { s with mem := racedView s.draws s.mem others }
    exact ⟨_, runRaced_of_next h⟩
  | commandCut r others =>
    obtain ⟨t, h⟩ := runRequest_total r { s with mem := racedView s.draws s.mem others }
    exact ⟨_, runCut_of_next h⟩
  | reset => exact ⟨_, rfl⟩
  | agentWrite a v => exact ⟨_, rfl⟩

/-- Every step answers a next state. -/
theorem step_total (s : State) : ∃ t, step s = .next t := by
  unfold step
  cases s.inputs with
  | nil => exact ⟨s, rfl⟩
  | cons i rest => exact runInput_total i _

theorem run_zero (s : State) : Host.Core.run Sys2Proof.core 0 s = .next s := rfl

/-- A run of one more step is that step and the run from where it leads. -/
theorem run_succ {s t : State} (k : Nat) (h : step s = .next t) :
    Host.Core.run Sys2Proof.core (k + 1) s = Host.Core.run Sys2Proof.core k t := by
  have h' : Sys2Proof.core.step s = .next t := h
  exact (Host.Core.run.eq_2 Sys2Proof.core s k).trans (by rw [h'])

end Sys2Proof.Machine
end

