-- ==== Sys2Proof/Tests/Slice0.lean ====
section
/-! SUPPORT. Tests of the model against the spec's own vectors (95_test_vectors.md), and a witness for the hypotheses of
each obligation that has some. Expected values are the vectors', or are worked out from the rule named. -/

open Sys2Proof Sys2Proof.Machine

namespace Sys2Proof.Tests

/-! ### Helpers -/

/-- The state a step leads to. -/
def after (o : Host.Outcome State Fault Refusal) : State :=
  match o with
  | .next t => t
  | .fault _ => State.reset
  | .refused _ => State.reset

/-- Memory holding the bytes from 0x1000 upward. -/
def bytes (bs : List Byte) : Memory := memWrite ⟨[]⟩ 0x1000 bs

/-- The accessor CFG loads for a shape. -/
def shape (start width : BitVec 32) (tag : BitVec 8) : Acc := (factory start width tag).getD Acc.reset

/-- A state after CFG of a shape, over the bytes. -/
def placed (start width : BitVec 32) (tag : BitVec 8) (bs : List Byte) : State :=
  { State.reset with acc := shape start width tag, mem := bytes bs }

/-- The response of a command. -/
def answer (i : Instr) (s : State) : Option Response := (after (exec i s)).rsp

/-- The `n` bytes from 0x1000 upward after a command. -/
def bytesAfter (n : Nat) (i : Instr) (s : State) : List Byte := memRead (after (exec i s)).mem 0x1000 n

/-- A state with one input waiting. -/
def waiting (i : Input) : State := { State.reset with inputs := [i] }

/-! ### WellFormed: an ill-formed request for each check -/

/-- E9: `RSVD` is not zero. -/
theorem test_wellFormed_refuses_reserved :
    (bareRequest 0x00000110).reservedZero = false ∧ (bareRequest 0x00000110).wellFormed = false ∧
      decode (bareRequest 0x00000110) = .error .reservedNotZero := by decide

/-- E8, E10: `OPC` is not one of the nineteen values. -/
theorem test_wellFormed_refuses_opcode :
    (bareRequest 0x000000FF).opcodeAssigned = false ∧ (bareRequest 0x000000FF).wellFormed = false ∧
      decode (bareRequest 0x000000FF) = .error .unknownOpcode ∧
      (bareRequest 0x00000000).wellFormed = false ∧ (bareRequest 0x00000017).wellFormed = false := by decide

/-! ### Decode: each word written out from R60, R61, R63 -/

theorem test_decode_cfg :
    decodeTableWord 32 0b00000000000000000000000000000001 = some (.cfg 0 0 0) ∧
    decode { bareRequest 0b00000000000000000000000000000001 with opStart := 3, opWidth := 8, opTag := 3 } =
      .ok (.cfg 3 8 3) := by decide

theorem test_decode_rd :
    decode (readRequest 0b00000000000000000000000000010000 0x1000 4) = .ok (.rdU64 0x1000 4) ∧
    decode (readRequest 0b00000000000000000000000000010001 0x1000 4) = .ok (.rdI64 0x1000 4) ∧
    decode (readRequest 0b00000000000000000000000000010010 0x1000 4) = .ok (.rdU32 0x1000 4) ∧
    decode (readRequest 0b00000000000000000000000000010011 0x1000 4) = .ok (.rdI32 0x1000 4) ∧
    decode (readRequest 0b00000000000000000000000000010100 0x1000 4) = .ok (.rdF32 0x1000 4) ∧
    decode (readRequest 0b00000000000000000000000000010101 0x1000 4) = .ok (.rdF64 0x1000 4) ∧
    decode (readRequest 0b00000000000000000000000000010110 0x1000 4) = .ok (.rdBool 0x1000 4) := by decide

theorem test_decode_wr :
    decode (writeRequest 0b00000000000000000000000000100000 0x1000 4 5) = .ok (.wrU64 0x1000 4 5) ∧
    decode (writeRequest 0b00000000000000000000000000100001 0x1000 4 5) = .ok (.wrI64 0x1000 4 5) ∧
    decode (writeRequest 0b00000000000000000000000000100010 0x1000 4 5) = .ok (.wrU32 0x1000 4 5) ∧
    decode (writeRequest 0b00000000000000000000000000100011 0x1000 4 5) = .ok (.wrI32 0x1000 4 5) ∧
    decode (writeRequest 0b00000000000000000000000000100100 0x1000 4 5) = .ok (.wrF32 0x1000 4 5) ∧
    decode (writeRequest 0b00000000000000000000000000100101 0x1000 4 5) = .ok (.wrF64 0x1000 4 5) ∧
    decode (writeRequest 0b00000000000000000000000000100110 0x1000 4 5) = .ok (.wrBool 0x1000 4 5) := by decide

theorem test_decode_swap :
    decode (swapRequest 0b00000000000000000000000000110000 0xAB) = .ok (.swap8 0xAB) ∧
    decode (swapRequest 0b00000000000000000000000000110001 0xAB) = .ok (.swap16 0xAB) ∧
    decode (swapRequest 0b00000000000000000000000000110010 0xAB) = .ok (.swap32 0xAB) ∧
    decode (swapRequest 0b00000000000000000000000000110011 0xAB) = .ok (.swap64 0xAB) := by decide

/-- `step` runs the word that `withFetchWord` places: E1, NotConfigured right after reset. -/
theorem test_fetch : (after (step (State.reset.withFetchWord 32 0x10))).rsp = some ⟨.notConfigured, 0⟩ := by decide

/-! ### One step per command -/

/-- D12. -/
theorem test_cfg_loads :
    (after (exec (.cfg 3 8 3) State.reset)).acc =
      { valid := true, kind := .gen32, tag := .ube, start := 3, width := 8, byteoff := 0, bitoff := 3, nbytes := 2,
        sw := 4, mask := 0xFF, shift := 19, signed := false, bigend := true, float := false, readmask := 0x08,
        clearmask := 0xF7 } := by decide

/-- D27, D34, D36: a rejected shape leaves ACC alone, and the tag is checked first. -/
theorem test_cfg_rejects :
    answer (.cfg 7 58 1) State.reset = some ⟨.unsupportedFieldShape, 0⟩ ∧
    answer (.cfg 0 0 6) State.reset = some ⟨.unsupportedFieldShape, 0⟩ ∧
    (after (exec (.cfg 0 7 4) (placed 0 32 1 []))).acc = shape 0 32 1 := by decide

/-- G3: big-endian, not byte-aligned. -/
theorem test_rdU64 : answer (.rdU64 0x1000 2) (placed 3 8 3 [0xB5, 0x3C]) = some ⟨.ok, 0xA7⟩ := by decide

/-- E4: one byte too short. -/
theorem test_rdU64_bounds :
    answer (.rdU64 0x1000 1) (placed 8 8 1 [0x12, 0x34]) = some ⟨.bufferTooSmall, 0⟩ ∧
    answer (.rdU64 0x1000 2) (placed 8 8 1 [0x12, 0x34]) = some ⟨.ok, 0x34⟩ := by decide

/-- G9: the sign boundary of a 15-bit field. -/
theorem test_rdI64 : answer (.rdI64 0x1000 2) (placed 0 15 0 [0x00, 0x40]) = some ⟨.ok, 0xFFFFFFFFFFFFC000⟩ := by
  decide

/-- G7: the low word of a 60-bit big-endian field. -/
theorem test_rdU32 :
    answer (.rdU32 0x1000 8) (placed 4 60 3 [0x10, 0x32, 0x54, 0x76, 0x98, 0xBA, 0xDC, 0xFE]) =
      some ⟨.ok, 0x698BADCF⟩ := by decide

/-- G2: sign-extended to 32 bits, zero-extended to the port. -/
theorem test_rdI32 : answer (.rdI32 0x1000 2) (placed 3 8 0 [0xB5, 0x3C]) = some ⟨.ok, 0xFFFFFF96⟩ := by decide

/-- A5: an integer converted. -/
theorem test_rdF32 : answer (.rdF32 0x1000 2) (placed 0 16 0 [0x00, 0x80]) = some ⟨.ok, 0xC7000000⟩ := by decide

/-- A9: a NaN payload kept. -/
theorem test_rdF32_nan :
    answer (.rdF32 0x1000 4) (placed 0 32 4 [0x01, 0x00, 0xC0, 0x7F]) = some ⟨.ok, 0x7FC00001⟩ := by decide

/-- A12: 2^64 - 1 rounds to 2^64. -/
theorem test_rdF64 :
    answer (.rdF64 0x1000 8) (placed 0 64 1 [0xFF, 0xFF, 0xFF, 0xFF, 0xFF, 0xFF, 0xFF, 0xFF]) =
      some ⟨.ok, 0x43F0000000000000⟩ := by decide

/-- A8: `-0` is false. -/
theorem test_rdBool : answer (.rdBool 0x1000 4) (placed 0 32 4 [0x00, 0x00, 0x00, 0x80]) = some ⟨.ok, 0⟩ := by decide

/-- W1: big-endian, not byte-aligned. -/
theorem test_wrU64 : bytesAfter 2 (.wrU64 0x1000 2 0xA7) (placed 3 8 3 [0x00, 0x00]) = [0x05, 0x38] := by decide

/-- W3: OR-into-place clears nothing. -/
theorem test_wrU64_or : bytesAfter 2 (.wrU64 0x1000 2 0) (placed 3 8 1 [0xFF, 0x00]) = [0xFF, 0x00] := by decide

/-- W7. -/
theorem test_wrI64 :
    bytesAfter 3 (.wrI64 0x1000 3 0xFFFFFFFFFFFFFFFE) (placed 0 24 2 [0, 0, 0]) = [0xFF, 0xFF, 0xFE] := by decide

/-- V15: zero-extended source. -/
theorem test_wrU32 :
    bytesAfter 8 (.wrU32 0x1000 8 0xFFFFFFFE) (placed 0 64 1 [0, 0, 0, 0, 0, 0, 0, 0]) =
      [0xFE, 0xFF, 0xFF, 0xFF, 0x00, 0x00, 0x00, 0x00] := by decide

/-- V14: sign-extended source. -/
theorem test_wrI32 :
    bytesAfter 8 (.wrI32 0x1000 8 0xFFFFFFFE) (placed 0 64 1 [0, 0, 0, 0, 0, 0, 0, 0]) =
      [0xFE, 0xFF, 0xFF, 0xFF, 0xFF, 0xFF, 0xFF, 0xFF] := by decide

/-- W10: a float through the generic codec, big-endian. -/
theorem test_wrF32 :
    bytesAfter 5 (.wrF32 0x1000 5 0x3F800000) (placed 3 32 5 [0, 0, 0, 0, 0]) = [0x01, 0xFC, 0x00, 0x00, 0x00] := by
  decide

/-- V3: 300.0 wraps modulo 256. -/
theorem test_wrF64 : bytesAfter 1 (.wrF64 0x1000 1 0x4072C00000000000) (placed 0 8 1 [0]) = [0x2C] := by decide

/-- V8: 0.1 narrowed. -/
theorem test_wrF64_narrows :
    bytesAfter 4 (.wrF64 0x1000 4 0x3FB999999999999A) (placed 0 32 4 [0, 0, 0, 0]) = [0xCD, 0xCC, 0xCC, 0x3D] := by
  decide

/-- S5b: clearing one bit. -/
theorem test_wrBool :
    bytesAfter 4 (.wrBool 0x1000 4 0) (placed 17 1 4 [0x08, 0x00, 0xFF, 0x00]) = [0x08, 0x00, 0xFD, 0x00] := by decide

/-- B6: only `wdata[0]` counts. -/
theorem test_wrBool_bit0 : bytesAfter 1 (.wrBool 0x1000 1 0xFE) (placed 5 1 1 [0xFF]) = [0xDF] := by decide

/-- X5. -/
theorem test_swap8 : answer (.swap8 0xFFFFFFFFFFFFFFAB) State.reset = some ⟨.ok, 0xAB⟩ := by decide

/-- X2. -/
theorem test_swap16 : answer (.swap16 0xFFFF1234) State.reset = some ⟨.ok, 0x3412⟩ := by decide

/-- X3. -/
theorem test_swap32 : answer (.swap32 0x12345678) State.reset = some ⟨.ok, 0x78563412⟩ := by decide

/-- X4. -/
theorem test_swap64 : answer (.swap64 0x0102030405060708) State.reset = some ⟨.ok, 0x0807060504030201⟩ := by decide

/-- The value of an `F32` pattern from its fields. -/
theorem f32Value_of_fields (f : BitVec 32) {neg : Bool} {ex fr : ℕ} (hs : decide (2 ^ 31 ≤ f.toNat) = neg)
    (he : exponent32 f = ex) (hf : fraction32 f = fr) :
    f32Value f = if ex = 255 then none else some ((if neg then -1 else 1) *
      (if ex = 0 then (fr : ℚ) * 2 ^ (-149 : ℤ) else ((2 ^ 23 + fr : ℕ) : ℚ) * 2 ^ ((ex : ℤ) - 150))) := by
  subst hs he hf
  simp [f32Value]

/-- The value of an `F64` pattern from its fields. -/
theorem f64Value_of_fields (f : BitVec 64) {neg : Bool} {ex fr : ℕ} (hs : decide (2 ^ 63 ≤ f.toNat) = neg)
    (he : exponent64 f = ex) (hf : fraction64 f = fr) :
    f64Value f = if ex = 2047 then none else some ((if neg then -1 else 1) *
      (if ex = 0 then (fr : ℚ) * 2 ^ (-1074 : ℤ) else ((2 ^ 52 + fr : ℕ) : ℚ) * 2 ^ ((ex : ℤ) - 1075))) := by
  subst hs he hf
  simp [f64Value]

/-! ### Witnesses: a concrete state and operands that meet the hypotheses of each obligation -/

theorem test_witness_CommandsIgnoreUnmarkedPorts :
    (bareRequest 0x01).cmd = 0x01 ∧
    (0x10 ≤ (bareRequest 0x10).cmd.toNat ∧ (bareRequest 0x16).cmd.toNat ≤ 0x16) ∧
    (0x20 ≤ (bareRequest 0x20).cmd.toNat ∧ (bareRequest 0x26).cmd.toNat ≤ 0x26) ∧
    (0x30 ≤ (bareRequest 0x30).cmd.toNat ∧ (bareRequest 0x33).cmd.toNat ≤ 0x33) := by decide

theorem test_witness_StepRunsDecodedCommand :
    (waiting (.command (swapRequest 0x33 5))).inputs = .command (swapRequest 0x33 5) :: [] ∧
      decode (swapRequest 0x33 5) = .ok (.swap64 5) := by decide

theorem test_witness_IllegalWordReportsIllegalCommand :
    (waiting (.command (bareRequest 0x110))).inputs = .command (bareRequest 0x110) :: [] ∧
      ∀ c ∈ ([0x00, 0x17, 0x34, 0x110] : List (BitVec 32)),
        c ∉ ([0x01, 0x10, 0x11, 0x12, 0x13, 0x14, 0x15, 0x16, 0x20, 0x21, 0x22, 0x23, 0x24, 0x25, 0x26,
          0x30, 0x31, 0x32, 0x33] : List (BitVec 32)) := ⟨rfl, by simp⟩

theorem test_witness_EveryCommandGetsAResponse :
    (waiting (.command (swapRequest 0x33 5))).inputs = .command (swapRequest 0x33 5) :: [] ∧
      (after (step (waiting (.command (swapRequest 0x33 5))))).rsp = some ⟨.ok, 0x0500000000000000⟩ := ⟨rfl, rfl⟩

theorem test_witness_IdleStepChangesNothing : State.reset.inputs = [] := rfl

theorem test_witness_ResetClearsValidAndKeepsMemory :
    ({ placed 0 8 1 [7] with inputs := [.reset] } : State).inputs = .reset :: [] := rfl

theorem test_witness_AgentWriteChangesOneByte : (waiting (.agentWrite 0xFFFFFFFFFFFFFFFF 7)).inputs =
    .agentWrite 0xFFFFFFFFFFFFFFFF 7 :: [] := rfl

theorem test_witness_CutCommandLeavesOldOrNewBytes :
    ({ placed 0 8 1 [7] with inputs := [.commandCut (writeRequest 0x20 0x1000 1 5) [(0x1000, 9)]] } : State).inputs =
      .commandCut (writeRequest 0x20 0x1000 1 5) [(0x1000, 9)] :: [] ∧
    (([(0x1000, 9)] : List (Addr × Byte)).map Prod.fst).Nodup ∧
    (0x1000 : Addr) ∈ requestWrites (writeRequest 0x20 0x1000 1 5) (placed 0 8 1 [7]) := by decide

theorem test_witness_RacedBytesHoldEitherValue :
    ({ placed 0 8 1 [7] with inputs := [.commandRaced (writeRequest 0x20 0x1000 1 5) [(0x1000, 9), (0x1001, 9)]] } :
      State).inputs = .commandRaced (writeRequest 0x20 0x1000 1 5) [(0x1000, 9), (0x1001, 9)] :: [] ∧
    (([(0x1000, 9), (0x1001, 9)] : List (Addr × Byte)).map Prod.fst).Nodup ∧
    (0x1000 : Addr) ∈ requestWrites (writeRequest 0x20 0x1000 1 5) (placed 0 8 1 [7]) := by decide

/-- One shape for each of the four cases, at their boundaries (D33, D29, D31, D27), and a next state that reports it. -/
theorem test_witness_CfgRejectsUnrealizableShapes :
    5 < (6 : BitVec 8).toNat ∧ 64 < (65 : BitVec 32).toNat ∧
    (2 ≤ (16 : BitVec 32).toNat ∧ (16 : BitVec 32).toNat ≠ 32 ∧ (16 : BitVec 32).toNat ≠ 64) ∧
    64 < (58 : BitVec 32).toNat + (7 : BitVec 32).toNat % 8 ∧
    (∃ t, exec (.cfg 0 16 4) State.reset = .next t ∧ t.rsp = some ⟨.unsupportedFieldShape, 0⟩) :=
  ⟨by decide, by decide, by decide, by decide, _, rfl, rfl⟩

/-- Shapes at the boundaries of the conditions, one for each codec. -/
theorem test_witness_CfgLoadsTheAccessor :
    ∀ p ∈ ([(12, 0, 2), (0xFFFFFFFF, 1, 4), (0, 64, 5), (5, 27, 3), (7, 57, 3), (3, 32, 5)] :
        List (BitVec 32 × BitVec 32 × BitVec 8)),
      p.2.2.toNat ≤ 5 ∧ p.2.1.toNat ≤ 64 ∧
      (p.2.2.toNat = 4 ∨ p.2.2.toNat = 5 → p.2.1.toNat ≤ 1 ∨ p.2.1.toNat = 32 ∨ p.2.1.toNat = 64) ∧
      (p.2.1.toNat ≤ 1 ∨ p.2.1.toNat + p.1.toNat % 8 ≤ 64) := by simp

/-- D2, D5, D8, D13, D18: each codec is selected by some shape. -/
theorem test_witness_CfgSelectsCodecByTable :
    (∃ t, exec (.cfg 12 0 2) State.reset = .next t ∧ t.rsp = some ⟨.ok, 0⟩ ∧ t.acc.kind = .zero) ∧
    (∃ t, exec (.cfg 17 1 4) State.reset = .next t ∧ t.rsp = some ⟨.ok, 0⟩ ∧ t.acc.kind = .bit) ∧
    (∃ t, exec (.cfg 0 64 5) State.reset = .next t ∧ t.rsp = some ⟨.ok, 0⟩ ∧ t.acc.kind = .aligned) ∧
    (∃ t, exec (.cfg 5 27 1) State.reset = .next t ∧ t.rsp = some ⟨.ok, 0⟩ ∧ t.acc.kind = .gen32) ∧
    (∃ t, exec (.cfg 7 26 1) State.reset = .next t ∧ t.rsp = some ⟨.ok, 0⟩ ∧ t.acc.kind = .gen64) :=
  ⟨⟨_, rfl, rfl, rfl⟩, ⟨_, rfl, rfl, rfl⟩, ⟨_, rfl, rfl, rfl⟩, ⟨_, rfl, rfl, rfl⟩, ⟨_, rfl, rfl, rfl⟩⟩

theorem test_witness_OnlyCfgWritesAcc :
    ∃ t, exec (.cfg 0 8 1) State.reset = .next t ∧ t.acc ≠ State.reset.acc := ⟨_, rfl, by decide⟩

theorem test_witness_ValidIsSetOnlyByCfg :
    ∃ t, exec (.cfg 0 8 1) State.reset = .next t ∧ State.reset.acc.valid = false ∧ t.acc.valid = true :=
  ⟨_, rfl, rfl, rfl⟩

/-- E3: even with an empty buffer. -/
theorem test_witness_UnconfiguredAccessReportsNotConfigured :
    accessOf (.rdU64 0x1000 0) ≠ .none ∧ State.reset.acc.valid = false ∧
    ∃ t, exec (.rdU64 0x1000 0) State.reset = .next t ∧ t.rsp = some ⟨.notConfigured, 0⟩ :=
  ⟨by decide, rfl, _, rfl, rfl⟩

/-- D38: the last window that is one byte too short, of a field at the top of the address range of start bits. -/
theorem test_witness_SmallBufferReportsBufferTooSmall :
    accessOf (.rdU64 0 0x20000006) = .read 0 0x20000006 ∧ (placed 0xFFFFFFF8 64 1 []).acc.valid = true ∧
    (placed 0xFFFFFFF8 64 1 []).acc.kind ≠ .zero ∧
    8 * (0x20000006 : BitVec 64).toNat <
      (placed 0xFFFFFFF8 64 1 []).acc.start.toNat + (placed 0xFFFFFFF8 64 1 []).acc.width.toNat ∧
    ¬ 8 * (0x20000007 : BitVec 64).toNat <
      (placed 0xFFFFFFF8 64 1 []).acc.start.toNat + (placed 0xFFFFFFF8 64 1 []).acc.width.toNat ∧
    ∃ t, exec (.rdU64 0 0x20000006) (placed 0xFFFFFFF8 64 1 []) = .next t ∧ t.rsp = some ⟨.bufferTooSmall, 0⟩ :=
  ⟨by decide, by decide, by decide, by decide, by decide, _, rfl, by decide⟩

theorem test_witness_ConfiguredAccessCompletes :
    (accessOf (.wrF64 0x1000 1 5) = .write 0x1000 1 ∧ (placed 0 8 1 [7]).acc.valid = true ∧
      (placed 0 8 1 [7]).acc.start.toNat + (placed 0 8 1 [7]).acc.width.toNat ≤ 8 * (1 : BitVec 64).toNat) ∧
    (accessOf (.rdU64 0x1000 0) = .read 0x1000 0 ∧ (placed 12 0 2 []).acc.valid = true ∧
      (placed 12 0 2 []).acc.kind = .zero) := by decide

theorem test_witness_ErrorsArePrecise :
    (∃ t, runRequest (readRequest 0x10 0x1000 0) State.reset = .next t ∧ t.rsp = some ⟨.notConfigured, 0⟩) ∧
    (∃ t, runRequest (bareRequest 0x80000001) State.reset = .next t ∧ t.rsp = some ⟨.illegalCommand, 0⟩) ∧
    Status.notConfigured ≠ .ok ∧ Status.illegalCommand ≠ .ok := ⟨⟨_, rfl, rfl⟩, ⟨_, rfl, rfl⟩, by decide, by decide⟩

/-- D37: the field that ends with the last bit of its window, and the largest start bit. -/
theorem test_witness_FootprintLiesInWindow :
    (shape 0xFFFFFFFF 1 1).configured = true ∧ (shape 0xFFFFFFFF 1 1).kind ≠ .zero ∧
    (shape 0xFFFFFFFF 1 1).start.toNat + (shape 0xFFFFFFFF 1 1).width.toNat = 8 * (0x20000000 : BitVec 64).toNat := by
  decide

theorem test_witness_WritesStayInWriteSet :
    (placed 3 8 3 [0, 0]).acc.configured = true ∧
    (∃ t, exec (.wrU64 0x1000 2 0xA7) (placed 3 8 3 [0, 0]) = .next t) ∧
    (0x1002 : Addr) ∉ writeSet (.wrU64 0x1000 2 0xA7) (placed 3 8 3 [0, 0]).acc ∧
    (0x1001 : Addr) ∈ writeSet (.wrU64 0x1000 2 0xA7) (placed 3 8 3 [0, 0]).acc :=
  ⟨by decide, ⟨_, rfl⟩, by decide, by decide⟩

theorem test_witness_ResultsDependOnlyOnReadSet :
    (placed 3 8 3 [1, 2]).acc.configured = true ∧
    (∀ a ∈ readSet (.rdU64 0x1000 2) (placed 3 8 3 [1, 2]).acc, (bytes [1, 2, 3]).read a = (bytes [1, 2]).read a) ∧
    bytes [1, 2, 3] ≠ bytes [1, 2] ∧ ∃ t, exec (.rdU64 0x1000 2) (placed 3 8 3 [1, 2]) = .next t := by
  refine ⟨by decide, ?_, by decide, _, rfl⟩
  rw [show readSet (.rdU64 0x1000 2) (placed 3 8 3 [1, 2]).acc = [0x1000, 0x1001] by decide]
  simp only [List.mem_cons, List.not_mem_nil, or_false]
  rintro a (rfl | rfl) <;> decide

theorem test_witness_ReadsAndSwapsWriteNoState :
    (∀ base len, accessOf (.rdU64 0x1000 2) ≠ .write base len) ∧
    ∃ t, exec (.rdU64 0x1000 2) (placed 3 8 3 [1, 2]) = .next t :=
  ⟨by simp [accessOf], _, rfl⟩

theorem test_witness_SwapIsInvolutionAndByteReversal :
    ([1, 2] : List Byte).length = 2 ∧ ([1, 2, 3, 4] : List Byte).length = 4 ∧
    ([1, 2, 3, 4, 5, 6, 7, 8] : List Byte).length = 8 := by decide

theorem test_witness_ZeroCodecReadsZeroWritesNothing :
    (placed 12 0 2 [0xAB]).acc.valid = true ∧ (placed 12 0 2 [0xAB]).acc.kind = .zero := by decide

/-- A bit field that ends with the window, in a signed and an unsigned tag; the bit is set in the one and clear in the
other. -/
theorem test_witness_BitReadAnswersBufferBit :
    Ready (placed 15 1 1 [0, 0x80]) 2 ∧ (placed 15 1 1 [0, 0x80]).acc.kind = .bit ∧
      bufferBit (bytes [0, 0x80]) 0x1000 15 = true ∧
    Ready (placed 0 1 0 [0xFE]) 1 ∧ (placed 0 1 0 [0xFE]).acc.kind = .bit ∧ bufferBit (bytes [0xFE]) 0x1000 0 = false :=
  ⟨⟨by decide, by decide, by decide⟩, by decide, by decide, ⟨by decide, by decide, by decide⟩, by decide, by decide⟩

theorem test_witness_BitWriteSetsOneBit :
    Ready (placed 15 1 1 [0, 0x80]) 2 ∧ (placed 15 1 1 [0, 0x80]).acc.kind = .bit ∧
    (Instr.wrBool 0x1000 2 0xFE, false) ∈ truthWrites 0x1000 2 0xFE ∧ (0 : Nat) < 8 ∧
    (0 : Nat) ≠ (placed 15 1 1 [0, 0x80]).acc.start.toNat % 8 ∧
    (0x1000 : Addr) ≠ fieldAddr (placed 15 1 1 [0, 0x80]).acc 0x1000 :=
  ⟨⟨by decide, by decide, by decide⟩, by decide, by decide, by decide, by decide, by decide⟩

/-- An aligned, a 32-bit generic and a 64-bit generic integer field, each ending with its window. -/
theorem test_witness_IntegerReadsAnswerFieldValue :
    (Ready (placed 0 64 2 []) 8 ∧ IntegerField (placed 0 64 2 []).acc) ∧
    (Ready (placed 5 27 3 []) 4 ∧ IntegerField (placed 5 27 3 []).acc) ∧
    (Ready (placed 7 57 0 []) 8 ∧ IntegerField (placed 7 57 0 []).acc) ∧
    (Instr.rdBool 0x1000 8, (0 : Word)) ∈ integerReads 0x1000 8 0 :=
  ⟨⟨⟨by decide, by decide, by decide⟩, ⟨by decide, by decide⟩⟩, ⟨⟨by decide, by decide, by decide⟩, ⟨by decide, by decide⟩⟩,
    ⟨⟨by decide, by decide, by decide⟩, ⟨by decide, by decide⟩⟩, by decide⟩

/-- A little-endian and a big-endian signed field, whose width leaves bits of the port above it. -/
theorem test_witness_FieldBitsLieWhereTheTagPutsThem :
    (Ready (placed 3 8 0 []) 2 ∧ IntegerField (placed 3 8 0 []).acc ∧ (placed 3 8 0 []).acc.bigend = false) ∧
    (Ready (placed 7 57 2 []) 8 ∧ IntegerField (placed 7 57 2 []).acc ∧ (placed 7 57 2 []).acc.bigend = true) ∧
    (7 < (placed 3 8 0 []).acc.width.toNat ∧ (placed 3 8 0 []).acc.width.toNat ≤ 63) :=
  ⟨⟨⟨by decide, by decide, by decide⟩, ⟨by decide, by decide⟩, by decide⟩,
    ⟨⟨by decide, by decide, by decide⟩, ⟨by decide, by decide⟩, by decide⟩, by decide⟩

theorem test_witness_AlignedIntegerWriteReplacesBytes :
    Ready (placed 8 16 3 []) 3 ∧ (placed 8 16 3 []).acc.kind = .aligned ∧ (placed 8 16 3 []).acc.float = false ∧
    (Instr.wrU32 0x1000 3 0x100000005, (5 : Int)) ∈ integerWrites 0x1000 3 0x100000005 ∧
    (0x1003 : Addr) ∉ addrRange (fieldAddr (placed 8 16 3 []).acc 0x1000) ((placed 8 16 3 []).acc.width.toNat / 8) :=
  ⟨⟨by decide, by decide, by decide⟩, by decide, by decide, by decide, by decide⟩

theorem test_witness_GenericIntegerWriteOrsField :
    (Ready (placed 5 27 3 []) 4 ∧ (placed 5 27 3 []).acc.kind = .gen32 ∧ (placed 5 27 3 []).acc.float = false) ∧
    (Ready (placed 7 57 0 []) 8 ∧ (placed 7 57 0 []).acc.kind = .gen64 ∧ (placed 7 57 0 []).acc.float = false) ∧
    (Instr.wrBool 0x1000 4 0xFF, (1 : Int)) ∈ integerWrites 0x1000 4 0xFF ∧
    (0x1004 : Addr) ∉ addrRange (fieldAddr (placed 5 27 3 []).acc 0x1000) (placed 5 27 3 []).acc.nbytes.toNat :=
  ⟨⟨⟨by decide, by decide, by decide⟩, by decide, by decide⟩, ⟨⟨by decide, by decide, by decide⟩, by decide, by decide⟩,
    by decide, by decide⟩

theorem test_witness_GenericWriteClearsNoBit :
    (placed 3 8 1 [0xFF, 0]).acc.kind = .gen32 ∧
    (∃ t, exec (.wrU64 0x1000 2 0) (placed 3 8 1 [0xFF, 0]) = .next t) ∧
    ((placed 3 8 1 [0xFF, 0]).mem.read 0x1000).getLsbD 7 = true :=
  ⟨by decide, ⟨_, rfl⟩, by decide⟩

theorem test_witness_IntegerFieldRoundTrip :
    (Ready (placed 0 64 2 [0xFF]) 8 ∧ IntegerField (placed 0 64 2 [0xFF]).acc ∧
      (placed 0 64 2 [0xFF]).acc.kind = .aligned) ∧
    (Ready (placed 3 8 2 [0, 7]) 2 ∧ IntegerField (placed 3 8 2 [0, 7]).acc ∧ (placed 3 8 2 [0, 7]).acc.kind = .gen32 ∧
      fieldRaw (placed 3 8 2 [0, 7]).acc 0x1000 (placed 3 8 2 [0, 7]).mem = 0) :=
  ⟨⟨⟨by decide, by decide, by decide⟩, ⟨by decide, by decide⟩, by decide⟩,
    ⟨⟨by decide, by decide, by decide⟩, ⟨by decide, by decide⟩, by decide, by decide⟩⟩

theorem test_witness_SignedAndUnsignedWritesAgree :
    Ready (placed 3 8 0 []) 2 ∧ (placed 3 8 0 []).acc.float = false :=
  ⟨⟨by decide, by decide, by decide⟩, by decide⟩

/-- 3.75 in each format, into an unsigned field; and the ends of both ranges. -/
theorem test_witness_FloatWriteToIntegerFieldTruncates :
    Ready (placed 0 8 1 []) 1 ∧ IntegerField (placed 0 8 1 []).acc ∧
    f32Value ((0x40700000 : Word).setWidth 32) = some (15 / 4) ∧ f64Value 0x400E000000000000 = some (15 / 4) ∧
    inRange (placed 0 8 1 []).acc.signed (towardZero (15 / 4)) ∧
    inRange false 0 ∧ inRange false (2 ^ 64 - 1) ∧ inRange true (-2 ^ 63) ∧ inRange true (2 ^ 63 - 1) := by
  refine ⟨⟨by decide, by decide, by decide⟩, ⟨by decide, by decide⟩, ?_, ?_, ?_, ?_, ?_, ?_, ?_⟩
  · exact (f32Value_of_fields _ (neg := false) (ex := 128) (fr := 7340032) (by decide) (by decide) (by decide)).trans
      (by norm_num)
  · exact (f64Value_of_fields _ (neg := false) (ex := 1024) (fr := 3940649673949184) (by decide) (by decide) (by decide)).trans
      (by norm_num)
  · rw [show (placed 0 8 1 []).acc.signed = false by decide]
    norm_num [inRange, towardZero, Int.floor_eq_iff]
  all_goals norm_num [inRange]

/-- A NaN and -1.0 into an unsigned field. -/
theorem test_witness_UnconvertibleFloatWriteIsADraw :
    Ready (placed 0 8 1 []) 1 ∧ IntegerField (placed 0 8 1 []).acc ∧
    (∀ q, f64Value 0x7FF8000000000000 = some q → ¬ inRange (placed 0 8 1 []).acc.signed (towardZero q)) ∧
    (∀ q, f32Value ((0xBF800000 : Word).setWidth 32) = some q →
      ¬ inRange (placed 0 8 1 []).acc.signed (towardZero q)) := by
  refine ⟨⟨by decide, by decide, by decide⟩, ⟨by decide, by decide⟩, ?_, ?_⟩
  · intro q hq
    rw [(f64Value_of_fields _ (neg := false) (ex := 2047) (fr := 2251799813685248) (by decide) (by decide) (by decide))] at hq
    simp at hq
  · intro q hq
    rw [(f32Value_of_fields _ (neg := true) (ex := 127) (fr := 0) (by decide) (by decide) (by decide))] at hq
    norm_num at hq
    subst hq
    rw [show (placed 0 8 1 []).acc.signed = false by decide]
    norm_num [inRange, towardZero]

/-- An aligned F32, a generic F32 and an aligned F64 field. -/
theorem test_witness_FloatReadInOwnFormatKeepsBits :
    (Ready (placed 8 32 5 []) 5 ∧ FloatField (placed 8 32 5 []).acc 32) ∧
    (Ready (placed 3 32 4 []) 5 ∧ FloatField (placed 3 32 4 []).acc 32) ∧
    (Ready (placed 0 64 5 []) 8 ∧ FloatField (placed 0 64 5 []).acc 64) :=
  ⟨⟨⟨by decide, by decide, by decide⟩, ⟨by decide, by decide, by decide⟩⟩,
    ⟨⟨by decide, by decide, by decide⟩, ⟨by decide, by decide, by decide⟩⟩,
    ⟨⟨by decide, by decide, by decide⟩, ⟨by decide, by decide, by decide⟩⟩⟩

/-- The float field of A6, 1.0. -/
theorem fieldFloat_one : fieldFloat (placed 0 32 4 [0, 0, 0x80, 0x3F]).acc 0x1000 (bytes [0, 0, 0x80, 0x3F]) =
    .f32 0x3F800000 := by decide

theorem test_witness_IntegerReadOfFloatFieldTruncates :
    Ready (placed 0 32 4 [0, 0, 0x80, 0x3F]) 4 ∧ FloatField (placed 0 32 4 [0, 0, 0x80, 0x3F]).acc 32 ∧
    floatValue (fieldFloat (placed 0 32 4 [0, 0, 0x80, 0x3F]).acc 0x1000 (bytes [0, 0, 0x80, 0x3F])) = some 1 ∧
    inRange false (towardZero 1) ∧ inRange true (towardZero 1) := by
  refine ⟨⟨by decide, by decide, by decide⟩, ⟨by decide, by decide, by decide⟩, ?_, ?_, ?_⟩
  · rw [fieldFloat_one]
    exact (f32Value_of_fields _ (neg := false) (ex := 127) (fr := 0) (by decide) (by decide) (by decide)).trans
      (by norm_num)
  all_goals norm_num [inRange, towardZero]

/-- An infinity. -/
theorem test_witness_UnconvertibleFloatReadIsADraw :
    Ready (placed 0 32 4 [0, 0, 0x80, 0x7F]) 4 ∧ FloatField (placed 0 32 4 [0, 0, 0x80, 0x7F]).acc 32 ∧
    ∀ q, floatValue (fieldFloat (placed 0 32 4 [0, 0, 0x80, 0x7F]).acc 0x1000 (bytes [0, 0, 0x80, 0x7F])) = some q →
      ¬ inRange true (towardZero q) := by
  refine ⟨⟨by decide, by decide, by decide⟩, ⟨by decide, by decide, by decide⟩, ?_⟩
  intro q hq
  rw [show fieldFloat (placed 0 32 4 [0, 0, 0x80, 0x7F]).acc 0x1000 (bytes [0, 0, 0x80, 0x7F]) = .f32 0x7F800000 by
    decide] at hq
  rw [floatValue, (f32Value_of_fields _ (neg := false) (ex := 255) (fr := 0) (by decide) (by decide) (by decide))] at hq
  simp at hq

/-- A value and a NaN in each format. -/
theorem test_witness_FloatReadInOtherFormatConverts :
    Ready (placed 0 32 4 [0, 0, 0x80, 0x3F]) 4 ∧ FloatField (placed 0 32 4 [0, 0, 0x80, 0x3F]).acc 32 ∧
    fieldFloat (placed 0 32 4 [0, 0, 0x80, 0x3F]).acc 0x1000 (bytes [0, 0, 0x80, 0x3F]) = .f32 0x3F800000 ∧
    Ready (placed 0 64 5 []) 8 ∧ FloatField (placed 0 64 5 []).acc 64 ∧
    fieldFloat (placed 0 64 5 []).acc 0x1000 (bytes []) = .f64 0 ∧
    ¬ isNan32 0x3F800000 ∧ isNan32 0x7F800001 ∧ ¬ isNan64 0 ∧ isNan64 0xFFF8000000000000 ∧
    f64Value 0x7FF0000000000000 = none :=
  ⟨⟨by decide, by decide, by decide⟩, ⟨by decide, by decide, by decide⟩, by decide,
    ⟨by decide, by decide, by decide⟩, ⟨by decide, by decide, by decide⟩, by decide,
    by unfold isNan32; decide, by unfold isNan32; decide, by unfold isNan64; decide, by unfold isNan64; decide,
    (f64Value_of_fields _ (neg := false) (ex := 2047) (fr := 0) (by decide) (by decide) (by decide)).trans (by simp)⟩

theorem test_witness_FloatWriteInOwnFormatPlacesBits :
    (Ready (placed 3 32 4 []) 5 ∧ FloatField (placed 3 32 4 []).acc 32 ∧ (placed 3 32 4 []).acc.kind = .gen64 ∧
      (0x1005 : Addr) ∉ addrRange (fieldAddr (placed 3 32 4 []).acc 0x1000) (placed 3 32 4 []).acc.nbytes.toNat) ∧
    (Ready (placed 0 64 5 []) 8 ∧ FloatField (placed 0 64 5 []).acc 64 ∧ (placed 0 64 5 []).acc.kind = .aligned) :=
  ⟨⟨⟨by decide, by decide, by decide⟩, ⟨by decide, by decide, by decide⟩, by decide, by decide⟩,
    ⟨⟨by decide, by decide, by decide⟩, ⟨by decide, by decide, by decide⟩, by decide⟩⟩

theorem test_witness_IntegerWriteToFloatFieldConverts :
    (Ready (placed 3 32 4 []) 5 ∧ FloatField (placed 3 32 4 []).acc 32) ∧
    (Ready (placed 0 64 5 []) 8 ∧ FloatField (placed 0 64 5 []).acc 64) ∧
    (Instr.wrI32 0x1000 8 0xFFFFFFFF, (-1 : Int)) ∈ integerWrites 0x1000 8 0xFFFFFFFF :=
  ⟨⟨⟨by decide, by decide, by decide⟩, ⟨by decide, by decide, by decide⟩⟩,
    ⟨⟨by decide, by decide, by decide⟩, ⟨by decide, by decide, by decide⟩⟩, by decide⟩

theorem test_witness_FloatWriteInOtherFormatConverts :
    (Ready (placed 3 32 4 []) 5 ∧ FloatField (placed 3 32 4 []).acc 32 ∧ ¬ isNan64 0x3FB999999999999A ∧
      isNan64 0x7FF0000000000001) ∧
    (Ready (placed 0 64 5 []) 8 ∧ FloatField (placed 0 64 5 []).acc 64 ∧
      ¬ isNan32 ((0x3DCCCCCD : Word).setWidth 32) ∧ isNan32 ((0xFFC00000 : Word).setWidth 32)) :=
  ⟨⟨⟨by decide, by decide, by decide⟩, ⟨by decide, by decide, by decide⟩, by unfold isNan64; decide,
      by unfold isNan64; decide⟩,
    ⟨⟨by decide, by decide, by decide⟩, ⟨by decide, by decide, by decide⟩, by unfold isNan32; decide,
      by unfold isNan32; decide⟩⟩

theorem test_witness_FloatFieldRoundTrip :
    (Ready (placed 3 32 5 [0, 0, 0, 0, 7]) 5 ∧ FloatField (placed 3 32 5 [0, 0, 0, 0, 7]).acc 32 ∧
      (placed 3 32 5 [0, 0, 0, 0, 7]).acc.kind = .gen64 ∧
      fieldRaw (placed 3 32 5 [0, 0, 0, 0, 7]).acc 0x1000 (placed 3 32 5 [0, 0, 0, 0, 7]).mem = 0) ∧
    (Ready (placed 0 64 5 [0xFF]) 8 ∧ FloatField (placed 0 64 5 [0xFF]).acc 64 ∧
      (placed 0 64 5 [0xFF]).acc.kind = .aligned) :=
  ⟨⟨⟨by decide, by decide, by decide⟩, ⟨by decide, by decide, by decide⟩, by decide, by decide⟩,
    ⟨⟨by decide, by decide, by decide⟩, ⟨by decide, by decide, by decide⟩, by decide⟩⟩

/-- V6: 2^24 + 1 is a tie. -/
theorem test_witness_IntegerToF32RoundsToNearestEven :
    |(16777217 : ℤ)| < 2 ^ 64 ∧ f32Value (i2f32 16777217) = some 16777216 ∧ f32Value 0x4B800001 = some 16777218 := by
  refine ⟨by norm_num, ?_, ?_⟩
  · rw [show i2f32 16777217 = 0x4B800000 by decide]
    exact (f32Value_of_fields _ (neg := false) (ex := 151) (fr := 0) (by decide) (by decide) (by decide)).trans
      (by norm_num)
  · exact (f32Value_of_fields _ (neg := false) (ex := 151) (fr := 1) (by decide) (by decide) (by decide)).trans
      (by norm_num)

/-- 2^53 + 1 is a tie. -/
theorem test_witness_IntegerToF64RoundsToNearestEven :
    |(9007199254740993 : ℤ)| < 2 ^ 64 ∧ f64Value (i2f64 9007199254740993) = some 9007199254740992 ∧
      f64Value 0x4340000000000001 = some 9007199254740994 := by
  refine ⟨by norm_num, ?_, ?_⟩
  · rw [show i2f64 9007199254740993 = 0x4340000000000000 by decide]
    exact (f64Value_of_fields _ (neg := false) (ex := 1076) (fr := 0) (by decide) (by decide) (by decide)).trans
      (by norm_num)
  · exact (f64Value_of_fields _ (neg := false) (ex := 1076) (fr := 1) (by decide) (by decide) (by decide)).trans
      (by norm_num)

/-- The first value that narrows to an infinity, and one that does not. -/
theorem test_witness_NarrowingRoundsToNearestEven :
    f64Value 0x47EFFFFFF0000000 = some (2 ^ 128 - 2 ^ 103) ∧ (2 : ℚ) ^ 128 - 2 ^ 103 ≤ |2 ^ 128 - 2 ^ 103| ∧
    f64Value 0x3FF0000000000000 = some 1 ∧ |(1 : ℚ)| < 2 ^ 128 - 2 ^ 103 ∧ f32Value 0x3F800000 = some 1 := by
  refine ⟨?_, le_abs_self _, ?_, by norm_num, ?_⟩
  · exact (f64Value_of_fields _ (neg := false) (ex := 1150) (fr := 4503599358935040) (by decide) (by decide) (by decide)).trans
      (by norm_num)
  · exact (f64Value_of_fields _ (neg := false) (ex := 1023) (fr := 0) (by decide) (by decide) (by decide)).trans
      (by norm_num)
  · exact (f32Value_of_fields _ (neg := false) (ex := 127) (fr := 0) (by decide) (by decide) (by decide)).trans
      (by norm_num)

theorem test_witness_NarrowingUndoesWidening : ¬ isNan32 0x00000001 ∧ ¬ isNan32 0x7F800000 := by
  unfold isNan32
  decide

theorem test_witness_StepKeepsInvariant :
    BlockInv (placed 3 8 3 [1, 2]) ∧ ∃ t, step (placed 3 8 3 [1, 2]) = .next t :=
  ⟨⟨by decide, by decide, by intro q h; cases h⟩, _, rfl⟩

theorem test_witness_EveryRunIsSafe : BlockInv (placed 3 8 3 [1, 2]) :=
  ⟨by decide, by decide, by intro q h; cases h⟩

theorem test_witness_UnspecifiedAccIsNotObservable :
    State.reset.acc.valid = false ∧ ({ shape 3 8 3 with valid := false } : Acc).valid = false ∧
    ∃ t, step State.reset = .next t := ⟨rfl, rfl, _, rfl⟩

end Sys2Proof.Tests
end

section
/-! CFG of a realizable shape (42_dispatch.md R145 to R149, 10_state.md R27, R29): the shape is accepted, and the fields
of the accessor it loads. -/

namespace Sys2Proof.Machine

/-! ### Tags (30_encoding.md R66, 42_dispatch.md R148) -/

/-- The codes 0 to 5 are tags. -/
theorem exists_tagOfCode {tag : BitVec 8} (h : tag.toNat ≤ 5) :
    ∃ g, tagOfCode tag = some g ∧ (tagCode g).toNat = tag.toNat := by
  unfold tagOfCode
  generalize tag.toNat = n at h ⊢
  match n, h with
  | 0, _ => exact ⟨.ile, rfl, rfl⟩
  | 1, _ => exact ⟨.ule, rfl, rfl⟩
  | 2, _ => exact ⟨.ibe, rfl, rfl⟩
  | 3, _ => exact ⟨.ube, rfl, rfl⟩
  | 4, _ => exact ⟨.fle, rfl, rfl⟩
  | 5, _ => exact ⟨.fbe, rfl, rfl⟩

theorem tagSigned_eq_decide (g : Tag) : tagSigned g = decide ((tagCode g).toNat = 0 ∨ (tagCode g).toNat = 2) := by
  cases g <;> rfl

theorem tagBigend_eq_decide (g : Tag) :
    tagBigend g = decide ((tagCode g).toNat = 2 ∨ (tagCode g).toNat = 3 ∨ (tagCode g).toNat = 5) := by
  cases g <;> rfl

theorem tagFloat_eq_decide (g : Tag) : tagFloat g = decide ((tagCode g).toNat = 4 ∨ (tagCode g).toNat = 5) := by
  cases g <;> rfl

/-! ### The decision table (R145) -/

/-- The codec R145 gives a shape of `w` bits at bit offset `bo` that the factory accepts. -/
def kindByTable (w bo : Nat) : Kind :=
  if w = 0 then .zero
  else if w = 1 then .bit
  else if w ∈ [8, 16, 32, 64] ∧ bo = 0 then .aligned
  else if w + bo ≤ 32 then .gen32
  else .gen64

/-- Outside the rejected shapes `selectKind` answers by the table: its rejecting rows do not match. -/
theorem selectKind_of_realizable {fl : Bool} {bo w : Nat} (hw : w ≤ 64)
    (hfl : fl = true → w ≤ 1 ∨ w = 32 ∨ w = 64) (hspan : w ≤ 1 ∨ w + bo ≤ 64) :
    selectKind fl bo w = some (kindByTable w bo) := by
  unfold selectKind kindByTable
  rw [if_neg (by omega)]
  by_cases h0 : w = 0
  · rw [if_pos h0, if_pos h0]
  by_cases h1 : w = 1
  · rw [if_neg h0, if_neg h0, if_pos h1, if_pos h1]
  have hfloat : ¬ (fl = true ∧ ¬ (w = 32 ∨ w = 64)) := fun ⟨hf, hn⟩ => by have := hfl hf; omega
  have hlast : w + bo ≤ 64 := by omega
  simp only [h0, h1, hfloat, hlast, if_false, if_true, List.mem_cons, List.not_mem_nil, or_false, apply_ite some]

/-- A shape outside the four cases of R202 is one the factory accepts. -/
theorem factory_of_realizable {start width : BitVec 32} {tag : BitVec 8} {g : Tag} (hg : tagOfCode tag = some g)
    (hw : width.toNat ≤ 64) (hfl : tagFloat g = true → width.toNat ≤ 1 ∨ width.toNat = 32 ∨ width.toNat = 64)
    (hspan : width.toNat ≤ 1 ∨ width.toNat + start.toNat % 8 ≤ 64) :
    factory start width tag =
      some (configuredAcc (kindByTable width.toNat (start.toNat % 8)) g start width) := by
  unfold factory
  simp only [hg, selectKind_of_realizable hw hfl hspan]

/-- CFG of a shape the factory accepts loads the accessor and completes (R140). -/
theorem exec_cfg_of_factory {start width : BitVec 32} {tag : BitVec 8} {acc : Acc}
    (h : factory start width tag = some acc) (s : State) :
    exec (.cfg start width tag) s = .next { s with acc := acc, rsp := some ⟨.ok, 0⟩ } := by
  have hexec : exec (.cfg start width tag) s = execCfg start width tag s := rfl
  rw [hexec]
  unfold execCfg
  rw [h]
  rfl

/-! ### Fields of an accessor that CFG wrote (R27, R29, R149) -/

theorem configuredAcc_width_toNat (k : Kind) (g : Tag) (start : BitVec 32) {width : BitVec 32}
    (hw : width.toNat ≤ 64) : (configuredAcc k g start width).width.toNat = width.toNat := by
  have h : (configuredAcc k g start width).width = width.setWidth 7 := rfl
  rw [h, BitVec.toNat_setWidth, Nat.mod_eq_of_lt (by omega)]

theorem bitMask_toNat {b : Nat} (hb : b < 8) : (1#8 <<< b).toNat = 2 ^ b := by
  have hpow : 2 ^ b < 2 ^ 8 := Nat.pow_lt_pow_right (by omega) hb
  rw [BitVec.toNat_shiftLeft, BitVec.toNat_ofNat, Nat.shiftLeft_eq, Nat.one_mod, Nat.one_mul, Nat.mod_eq_of_lt hpow]

section
variable {acc : Acc}

theorem ConfiguredFacts.readmask_toNat (h : ConfiguredFacts acc) : acc.readmask.toNat = 2 ^ acc.bitoff.toNat := by
  rw [h.readmask, bitMask_toNat acc.bitoff.isLt]

theorem ConfiguredFacts.clearmask_toNat (h : ConfiguredFacts acc) :
    acc.clearmask.toNat = 255 - 2 ^ acc.bitoff.toNat := by
  rw [h.clearmask, BitVec.toNat_not, bitMask_toNat acc.bitoff.isLt]

/-- The codecs without a staging word have no staging width and no shift. -/
theorem ConfiguredFacts.sw_shift_of_unstaged (h : ConfiguredFacts acc)
    (hk : acc.kind = .zero ∨ acc.kind = .bit ∨ acc.kind = .aligned) : acc.sw = 0 ∧ acc.shift = 0 := by
  have hsw := h.sw
  have hshift := h.shift
  rcases hk with hk | hk | hk <;> rw [hk] at hsw hshift <;>
    exact ⟨BitVec.eq_of_toNat_eq hsw, BitVec.eq_of_toNat_eq hshift⟩

theorem ConfiguredFacts.nbytes_of_zero (h : ConfiguredFacts acc) (hk : acc.kind = .zero) : acc.nbytes = 0 :=
  BitVec.eq_of_toNat_eq (by rw [h.nbytes, hk]; rfl)

theorem ConfiguredFacts.nbytes_of_bit (h : ConfiguredFacts acc) (hk : acc.kind = .bit) : acc.nbytes = 1 :=
  BitVec.eq_of_toNat_eq (by rw [h.nbytes, hk]; rfl)

theorem ConfiguredFacts.sw_of_generic (h : ConfiguredFacts acc) (hk : acc.kind = .gen32 ∨ acc.kind = .gen64) :
    acc.sw = if acc.kind = .gen32 then 4 else 8 := by
  apply BitVec.eq_of_toNat_eq
  rw [h.sw]
  rcases hk with hk | hk <;> rw [hk] <;> rfl

end

/-! ### The obligation -/

/-- Settles O14: the shape is one the factory accepts, and every field follows from what a configured accessor holds. -/
theorem cfgLoadsTheAccessor : Obligations.CfgLoadsTheAccessor := by
  intro s start width tag htag hw hfl hspan
  obtain ⟨g, hg, hcode⟩ := exists_tagOfCode htag
  have hfloat := tagFloat_eq_decide g
  have hsigned := tagSigned_eq_decide g
  have hbigend := tagBigend_eq_decide g
  rw [hcode] at hfloat hsigned hbigend
  have hfac := factory_of_realizable hg hw (fun h => hfl (by simpa [hfloat] using h)) hspan
  have hwidth := configuredAcc_width_toNat (kindByTable width.toNat (start.toNat % 8)) g start hw
  obtain ⟨hvalid, hstart, hconf⟩ := factory_configured hfac
  have facts := configured_facts hconf
  have hbitoff := facts.bitoff
  rw [hstart] at hbitoff
  refine ⟨_, exec_cfg_of_factory hfac s, hvalid, hstart, hwidth, hcode, rfl, hstart ▸ facts.byteoff, hbitoff,
    hbitoff ▸ facts.readmask_toNat, hbitoff ▸ facts.clearmask_toNat, hwidth ▸ facts.mask,
    hsigned, hbigend, hfloat, ?zero, ?bit, ?aligned, ?generic⟩
  case zero => exact fun hk => ⟨facts.nbytes_of_zero hk, facts.sw_shift_of_unstaged (.inl hk)⟩
  case bit => exact fun hk => ⟨facts.nbytes_of_bit hk, facts.sw_shift_of_unstaged (.inr (.inl hk))⟩
  case aligned =>
    intro hk
    obtain ⟨-, -, hnbytes⟩ := aligned_facts facts hk
    exact ⟨hwidth ▸ hnbytes, facts.sw_shift_of_unstaged (.inr (.inr hk))⟩
  case generic =>
    intro hk
    obtain ⟨-, -, -, -, -, hnbytes, -, -, hshift⟩ := generic_facts facts hk
    rw [hwidth, hbitoff] at hnbytes
    rw [hbitoff] at hshift
    exact ⟨hnbytes, facts.sw_of_generic hk, hshift⟩

end Sys2Proof.Machine
end

section
/-! The footprint of a configured accessor (20_memory.md R46, R47): the bytes that hold a bit of the field, and so no
byte beyond a buffer that holds the field. -/

namespace Sys2Proof.Machine

section
variable {acc : Acc}

/-- R27: `START` is bit `BITOFF` of byte `BYTEOFF`. -/
theorem ConfiguredFacts.start_eq (h : ConfiguredFacts acc) :
    acc.start.toNat = 8 * acc.byteoff.toNat + acc.bitoff.toNat := by
  rw [h.byteoff, h.bitoff, Nat.div_add_mod]

/-- R47: the three codecs with a footprint agree on `NBYTES`, though R149 gives only the generic ones `ceil_div`. -/
theorem ConfiguredFacts.nbytes_eq_spanBytes (h : ConfiguredFacts acc) (hk : acc.kind ≠ .zero) :
    acc.nbytes.toNat = spanBytes acc.width.toNat acc.bitoff.toNat := by
  cases hkind : acc.kind with
  | zero => exact absurd hkind hk
  | bit =>
    obtain ⟨hwidth, hnbytes⟩ := bit_facts h hkind
    have hbitoff := acc.bitoff.isLt
    unfold spanBytes
    omega
  | aligned =>
    obtain ⟨hwidth, hbitoff, hnbytes⟩ := aligned_facts h hkind
    unfold swapWidth at hwidth
    unfold spanBytes
    omega
  | gen32 => exact h.nbytes.trans (by rw [hkind]; rfl)
  | gen64 => exact h.nbytes.trans (by rw [hkind]; rfl)

end

/-- A field `bo` bits into byte `o` that ends within `n` bytes has its whole span within them. -/
theorem span_within {o bo w n : Nat} (h : 8 * o + bo + w ≤ 8 * n) : o + spanBytes w bo ≤ n := by
  unfold spanBytes
  omega

/-- Settles O22: `NBYTES` is the length of the field's span, and the span ends with the byte of the field's last bit. -/
theorem footprintLiesInWindow : Obligations.FootprintLiesInWindow := by
  intro acc len hconf hk
  have facts := configured_facts hconf
  have hnbytes := facts.nbytes_eq_spanBytes hk
  refine ⟨?_, fun hfit => ?_⟩
  · rw [hnbytes, spanBytes, Nat.add_comm acc.width.toNat]
  · rw [hnbytes]
    exact span_within (facts.start_eq ▸ hfit)

end Sys2Proof.Machine
end

section
/-! The opcode map (30_encoding.md R61 to R64): a request decodes to a command exactly when its word is that command's
word, whatever its ports hold; every other word ends with IllegalCommand. -/

namespace Sys2Proof

/-! ### Words that spell a command -/

/-- The command of the same row of R63 with the operands a request carries at the ports R64 marks for that row. -/
def Instr.withPorts (i : Instr) (r : Request) : Instr :=
  match i with
  | .cfg _ _ _ => .cfg r.opStart r.opWidth r.opTag
  | .rdU64 _ _ => .rdU64 r.bufBase r.bufLen
  | .rdI64 _ _ => .rdI64 r.bufBase r.bufLen
  | .rdU32 _ _ => .rdU32 r.bufBase r.bufLen
  | .rdI32 _ _ => .rdI32 r.bufBase r.bufLen
  | .rdF32 _ _ => .rdF32 r.bufBase r.bufLen
  | .rdF64 _ _ => .rdF64 r.bufBase r.bufLen
  | .rdBool _ _ => .rdBool r.bufBase r.bufLen
  | .wrU64 _ _ _ => .wrU64 r.bufBase r.bufLen r.wdata
  | .wrI64 _ _ _ => .wrI64 r.bufBase r.bufLen r.wdata
  | .wrU32 _ _ _ => .wrU32 r.bufBase r.bufLen r.wdata
  | .wrI32 _ _ _ => .wrI32 r.bufBase r.bufLen r.wdata
  | .wrF32 _ _ _ => .wrF32 r.bufBase r.bufLen r.wdata
  | .wrF64 _ _ _ => .wrF64 r.bufBase r.bufLen r.wdata
  | .wrBool _ _ _ => .wrBool r.bufBase r.bufLen r.wdata
  | .swap8 _ => .swap8 r.wdata
  | .swap16 _ => .swap16 r.wdata
  | .swap32 _ => .swap32 r.wdata
  | .swap64 _ => .swap64 r.wdata

/-- A request decodes to a command exactly when `RSVD` is zero and `OPC` selects the command (R62). -/
theorem decode_eq_ok_iff {r : Request} {i : Instr} :
    decode r = .ok i ↔ r.reservedZero = true ∧ decodeOpc r = .ok i := by
  unfold decode
  split <;> simp [*]

theorem reservedZero_of_cmd {i : Instr} {r : Request} (h : r.cmd = commandWord i) : r.reservedZero = true := by
  unfold Request.reservedZero Request.rsvd
  rw [h]
  cases i <;> simp [commandWord]

theorem decodeOpc_of_cmd (i : Instr) {r : Request} (h : r.cmd = commandWord i) :
    decodeOpc r = .ok (i.withPorts r) := by
  unfold decodeOpc Request.opc
  rw [h]
  cases i <;> rfl

/-- A request with the word of a command decodes to that command, its operands taken from the marked ports. -/
theorem decode_of_cmd (i : Instr) {r : Request} (h : r.cmd = commandWord i) : decode r = .ok (i.withPorts r) :=
  decode_eq_ok_iff.2 ⟨reservedZero_of_cmd h, decodeOpc_of_cmd i h⟩

/-- R61, R63: with `RSVD` zero the command word is `zext_32(OPC)`. -/
theorem cmd_eq_of_reservedZero {r : Request} (h : r.reservedZero = true) : r.cmd = r.opc.setWidth 32 := by
  have hrsvd : r.rsvd = 0 := BitVec.eq_of_toNat_eq (eq_of_beq h)
  calc r.cmd = r.rsvd ++ r.opc :=
      (BitVec.extractLsb'_append_extractLsb' (w := 24) (len := 8) (x := r.cmd)).symm
    _ = (0 : BitVec 24) ++ r.opc := by rw [hrsvd]
    _ = r.opc.setWidth 32 := (BitVec.setWidth_eq_append (by decide)).symm

theorem opc_eq_of_decodeOpc {r : Request} {i : Instr} (h : decodeOpc r = .ok i) :
    r.opc.setWidth 32 = commandWord i := by
  apply BitVec.eq_of_toNat_eq
  rw [BitVec.toNat_setWidth_of_le (by decide)]
  unfold decodeOpc at h
  split at h <;> cases h <;> assumption

/-- Only the word of a command decodes to it. -/
theorem cmd_of_decode {r : Request} {i : Instr} (h : decode r = .ok i) : r.cmd = commandWord i := by
  obtain ⟨hzero, hopc⟩ := decode_eq_ok_iff.1 h
  exact (cmd_eq_of_reservedZero hzero).trans (opc_eq_of_decodeOpc hopc)

/-- Settles O1: each row's word is the word of the row's command, and its operands are those at the ports. -/
theorem opcodeMapDecodes : Obligations.OpcodeMapDecodes := by
  intro st wi tg ba le wd
  exact ⟨decode_of_cmd (.cfg st wi tg) rfl,
    decode_of_cmd (.rdU64 ba le) rfl, decode_of_cmd (.rdI64 ba le) rfl, decode_of_cmd (.rdU32 ba le) rfl,
    decode_of_cmd (.rdI32 ba le) rfl, decode_of_cmd (.rdF32 ba le) rfl, decode_of_cmd (.rdF64 ba le) rfl,
    decode_of_cmd (.rdBool ba le) rfl,
    decode_of_cmd (.wrU64 ba le wd) rfl, decode_of_cmd (.wrI64 ba le wd) rfl, decode_of_cmd (.wrU32 ba le wd) rfl,
    decode_of_cmd (.wrI32 ba le wd) rfl, decode_of_cmd (.wrF32 ba le wd) rfl, decode_of_cmd (.wrF64 ba le wd) rfl,
    decode_of_cmd (.wrBool ba le wd) rfl,
    decode_of_cmd (.swap8 wd) rfl, decode_of_cmd (.swap16 wd) rfl, decode_of_cmd (.swap32 wd) rfl,
    decode_of_cmd (.swap64 wd) rfl⟩

end Sys2Proof

namespace Sys2Proof.Machine

/-! ### Every other word -/

/-- A waiting request is taken and presented. -/
theorem step_command {s : State} {r : Request} {rest : List Input} (h : s.inputs = .command r :: rest) :
    step s = runRequest r { s with inputs := rest } := by
  unfold step
  rw [h]
  rfl

/-- R62: a word that is the word of no command is refused with IllegalCommand. -/
theorem runRequest_of_illegal {r : Request} (h : ∀ i, r.cmd ≠ commandWord i) (s : State) :
    runRequest r s = .next (s.raise .illegalCommand) := by
  rcases runRequest_cases r s with ⟨i, -, hdec, -, -⟩ | ⟨-, -, hrun⟩
  · exact absurd (cmd_of_decode hdec) (h i)
  · exact hrun

/-- The words of the opcode map are those of the commands. -/
theorem commandWord_mem (i : Instr) :
    commandWord i ∈ ([0x01, 0x10, 0x11, 0x12, 0x13, 0x14, 0x15, 0x16, 0x20, 0x21, 0x22, 0x23, 0x24, 0x25, 0x26,
      0x30, 0x31, 0x32, 0x33] : List (BitVec 32)) := by
  cases i <;> simp [commandWord]

/-- Settles O6: a command's word is one of the nineteen, so a request with another word is refused. -/
theorem illegalWordReportsIllegalCommand : Obligations.IllegalWordReportsIllegalCommand := by
  intro s r rest hin hillegal
  have hword : ∀ i, r.cmd ≠ commandWord i := fun i hi => hillegal (hi ▸ commandWord_mem i)
  calc step s = runRequest r { s with inputs := rest } := step_command hin
    _ = .next (State.raise { s with inputs := rest } .illegalCommand) := runRequest_of_illegal hword _

end Sys2Proof.Machine
end

section
/-! The swaps as the reversal of a byte sequence (40_byteswap.md R84): reversing twice gives the word back, and reversing
a word loaded low byte first gives the number read high byte first. -/

namespace Sys2Proof.Machine

/-- The number of bits of a swap's word is eight for each of its bytes. -/
theorem swapWidth_bits {N : Nat} (h : swapWidth N) : 8 * (N / 8) = N := by
  rcases h with rfl | rfl | rfl | rfl <;> rfl

/-- The low-byte-first bytes of a swapped word are the high-byte-first bytes of the word. -/
theorem leBytes_bswapN {N : Nat} (h : swapWidth N) (v : BitVec N) :
    leBytes (N / 8) (bswapN N v).toNat = beBytes (N / 8) v.toNat :=
  swapPol_store h true v

/-- R84: a swap undoes itself. -/
theorem bswapN_bswapN {N : Nat} (h : swapWidth N) (v : BitVec N) : bswapN N (bswapN N v) = v := by
  apply BitVec.eq_of_toNat_eq
  calc (bswapN N (bswapN N v)).toNat
      = beInt (leBytes (N / 8) (bswapN N v).toNat) := bswapN_toNat h _
    _ = beInt (beBytes (N / 8) v.toNat) := by rw [leBytes_bswapN h]
    _ = v.toNat % 2 ^ (8 * (N / 8)) := beInt_beBytes _ _
    _ = v.toNat := by rw [swapWidth_bits h, Nat.mod_eq_of_lt v.isLt]

/-- R84: the swap of a word loaded from its bytes, low byte first, is their big-endian number. -/
theorem bswapN_leInt {N : Nat} (h : swapWidth N) {b : List Byte} (hb : b.length = N / 8) :
    bswapN N (BitVec.ofNat N (leInt b)) = BitVec.ofNat N (beInt b) := by
  have hload : (bswapN N (BitVec.ofNat N (leInt b))).toNat = beInt b := swapPol_load h true hb
  rw [← hload, BitVec.ofNat_toNat, BitVec.setWidth_eq]

/-- Settles O27: 16, 32 and 64 are widths with a swap, and at each of them the swap is `bswapN`. -/
theorem swapIsInvolutionAndByteReversal : Obligations.SwapIsInvolutionAndByteReversal := by
  have h16 : swapWidth 16 := .inr (.inl rfl)
  have h32 : swapWidth 32 := .inr (.inr (.inl rfl))
  have h64 : swapWidth 64 := .inr (.inr (.inr rfl))
  exact ⟨bswapN_bswapN h16, bswapN_bswapN h32, bswapN_bswapN h64,
    fun _ => ⟨bswapN_leInt h16, bswapN_leInt h32, bswapN_leInt h64⟩⟩

end Sys2Proof.Machine
end

section
/-! The zero codec (41_codecs.md R116 to R118): with no footprint there is nothing to check, to read or to write. -/

namespace Sys2Proof.Machine

/-! ### The commands as read and write sequences (43_access.md R160, R161) -/

/-- Each RD command is the read sequence with an adapter that makes zero of the zero codec's value (R162). -/
theorem integerReads_eq_runRead {base : Addr} {len : BitVec 64} {v : Int} {p : Instr × Word}
    (hp : p ∈ integerReads base len v) :
    ∃ adapt, (∀ n, adapt n .zero = .pure 0) ∧ ∀ s, exec p.1 s = .next (runRead base len adapt s) := by
  simp only [integerReads, List.mem_cons, List.not_mem_nil, or_false] at hp
  rcases hp with rfl | rfl | rfl | rfl | rfl | rfl | rfl <;> exact ⟨_, fun _ => rfl, fun _ => rfl⟩

/-- Each WR command is the write sequence with the command's operand (R164). -/
theorem truthWrites_eq_runWrite {base : Addr} {len : BitVec 64} {v : Word} {p : Instr × Bool}
    (hp : p ∈ truthWrites base len v) : ∃ o, ∀ s, exec p.1 s = .next (runWrite base len o s) := by
  simp only [truthWrites, List.mem_cons, List.not_mem_nil, or_false] at hp
  rcases hp with rfl | rfl | rfl | rfl | rfl | rfl | rfl <;> exact ⟨_, fun _ => rfl⟩

/-! ### The zero codec in those sequences -/

theorem naturalRead_of_zero {acc : Acc} (hk : acc.kind = .zero) (base : Addr) (m : Memory) :
    naturalRead acc base m = .zero := by
  unfold naturalRead
  rw [hk]

theorem naturalWrite_of_zero {acc : Acc} (hk : acc.kind = .zero) (n : Nat) (base : Addr) (m : Memory) (o : Operand) :
    naturalWrite n acc base m o = .pure m := by
  unfold naturalWrite
  rw [hk]

section
variable {s : State} {len : BitVec 64}

/-- R118: the checks pass without a look at the buffer. -/
theorem accessError_of_zero (hv : s.acc.valid = true) (hk : s.acc.kind = .zero) : accessError s.acc len = none :=
  accessError_eq_none.2 ⟨hv, .inl hk⟩

theorem runRead_of_zero (hv : s.acc.valid = true) (hk : s.acc.kind = .zero) (base : Addr)
    {adapt : Nat → Natural → Drawn Word} (hadapt : ∀ n, adapt n .zero = .pure 0) :
    runRead base len adapt s = s.complete 0 := by
  rw [runRead_of_ok adapt (accessError_of_zero hv hk), naturalRead_of_zero hk, hadapt, drawn_pure_drew, drawn_pure_val,
    spend_false]

theorem runWrite_of_zero (hv : s.acc.valid = true) (hk : s.acc.kind = .zero) (base : Addr) (o : Operand) :
    runWrite base len o s = s.complete 0 := by
  rw [runWrite_of_ok o (accessError_of_zero hv hk), naturalWrite_of_zero hk, drawn_pure_drew, drawn_pure_val,
    spend_false]

end

/-- Settles O28: both sequences pass the checks, and the codec reads zero and gives the buffer back as it was. -/
theorem zeroCodecReadsZeroWritesNothing : Obligations.ZeroCodecReadsZeroWritesNothing := by
  intro s base len v hv hk
  refine ⟨fun p hp => ?_, fun p hp => ?_⟩
  · obtain ⟨adapt, hadapt, hexec⟩ := integerReads_eq_runRead hp
    rw [hexec, runRead_of_zero hv hk base hadapt, State.complete]
  · obtain ⟨o, hexec⟩ := truthWrites_eq_runWrite hp
    rw [hexec, runWrite_of_zero hv hk base o, State.complete]

end Sys2Proof.Machine
end

section
/-! The bit codec (41_codecs.md R113 to R115): the field is buffer bit `START`, which is bit `BITOFF` of the one byte of
the footprint. -/

namespace Sys2Proof.Machine

section
variable {acc : Acc}

theorem ConfiguredFacts.bufferBit_start (h : ConfiguredFacts acc) (m : Memory) (base : Addr) :
    bufferBit m base acc.start.toNat = (m.read (fieldAddr acc base)).getLsbD acc.bitoff.toNat := by
  unfold bufferBit fieldAddr
  rw [h.byteoff, h.bitoff]

/-- R113: `READMASK` selects the field's bit of the byte. -/
theorem ConfiguredFacts.bitRead_eq (h : ConfiguredFacts acc) (base : Addr) (m : Memory) :
    bitRead acc base m =
      .int (if bufferBit m base acc.start.toNat then (if acc.signed then -1 else 1) else 0) := by
  unfold bitRead
  rw [h.readmask]
  simp only [and_bit _ _ acc.bitoff.isLt, ← h.bufferBit_start]
  split <;> rfl

/-- R114, R115: `READMASK` sets and `CLEARMASK` clears the field's bit and no other bit of the byte. -/
theorem ConfiguredFacts.bitWrite_getLsbD (h : ConfiguredFacts acc) (base : Addr) (m : Memory) (t : Bool) {j : Nat}
    (hj : j < 8) :
    ((bitWrite acc base m t).read (fieldAddr acc base)).getLsbD j =
      if j = acc.bitoff.toNat then t else (m.read (fieldAddr acc base)).getLsbD j := by
  unfold bitWrite
  rw [read_write_same, h.readmask, h.clearmask]
  cases t
  · exact and_not_bit _ _ _ acc.bitoff.isLt hj
  · exact or_bit _ _ _ acc.bitoff.isLt hj

theorem ConfiguredFacts.bufferBit_bitWrite (h : ConfiguredFacts acc) (base : Addr) (m : Memory) (t : Bool) :
    bufferBit (bitWrite acc base m t) base acc.start.toNat = t := by
  rw [h.bufferBit_start, h.bitWrite_getLsbD base m t acc.bitoff.isLt, if_pos rfl]

theorem bitWrite_read_ne (base : Addr) (m : Memory) (t : Bool) {a : Addr} (ha : a ≠ fieldAddr acc base) :
    (bitWrite acc base m t).read a = m.read a :=
  read_write_ne m _ ha

theorem naturalRead_of_bit (hk : acc.kind = .bit) (base : Addr) (m : Memory) :
    naturalRead acc base m = bitRead acc base m := by
  unfold naturalRead
  rw [hk]

end

/-- Settles O29: the bit codec reads the integer of buffer bit `START`, and each RD command adapts that integer. -/
theorem bitReadAnswersBufferBit : Obligations.BitReadAnswersBufferBit := by
  intro s base len hready hk
  have hread := (naturalRead_of_bit hk base s.mem).trans (hready.facts.bitRead_eq base s.mem)
  exact integerReads_of_natural hready.access _ hread

/-- Settles O30: each WR command is the bit write of its operand's truth, and the bit write changes bit `BITOFF` of the
byte at `fieldAddr` alone. -/
theorem bitWriteSetsOneBit : Obligations.BitWriteSetsOneBit := by
  intro s base len v hready hk p hp
  have facts := hready.facts
  refine ⟨_, truthWrites_bit base len v s hready.access hk p hp, rfl, rfl, rfl, rfl,
    facts.bufferBit_bitWrite base s.mem p.2, fun j hj hne => ?_, fun a ha => bitWrite_read_ne base s.mem p.2 ha⟩
  rw [← facts.bitoff] at hne
  exact (facts.bitWrite_getLsbD base s.mem p.2 hj).trans (if_neg hne)

end Sys2Proof.Machine
end

section
/-! CFG of an unrealizable shape (42_dispatch.md R142, R143, R146, R152): the shapes the factory rejects, and that CFG
reports UnsupportedFieldShape of these alone and then leaves ACC as it was. -/

namespace Sys2Proof.Machine

/-! ### The shapes the factory rejects (60_exceptions.md R202) -/

/-- R142: a tag has its own code. -/
theorem tagCode_of_tagOfCode {tag : BitVec 8} {g : Tag} (h : tagOfCode tag = some g) :
    (tagCode g).toNat = tag.toNat := by
  unfold tagOfCode at h
  split at h
  case h_7 => exact absurd h (by simp)
  all_goals
    next hn =>
      obtain rfl := Option.some.inj h
      exact hn.symm

/-- R142: the codes above 5 are no tags. -/
theorem tagOfCode_eq_none_iff {tag : BitVec 8} : tagOfCode tag = none ↔ 5 < tag.toNat := by
  refine ⟨fun hnone => ?_, fun hlt => ?_⟩
  · by_contra hle
    obtain ⟨g, hg, -⟩ := exists_tagOfCode (Nat.le_of_not_lt hle)
    exact absurd (hnone.symm.trans hg) (by simp)
  · refine Option.eq_none_iff_forall_ne_some.2 fun g hg => ?_
    have hcode := tagCode_of_tagOfCode hg
    have hle : (tagCode g).toNat ≤ 5 := by cases g <;> decide
    omega

/-- R143, R144, R146: the decision table rejects a width above 64, a float without a float format, and a field that no
staging word holds. -/
theorem selectKind_eq_none_iff {fl : Bool} {bo w : Nat} :
    selectKind fl bo w = none ↔
      64 < w ∨ (fl = true ∧ 2 ≤ w ∧ w ≠ 32 ∧ w ≠ 64) ∨ (2 ≤ w ∧ 64 < w + bo) := by
  refine ⟨fun hnone => ?_, fun hrej => ?_⟩
  · by_contra hreal
    obtain ⟨hw, hformat, hstaged⟩ := (not_or.trans (and_congr_right' not_or)).1 hreal
    have hfl : fl = true → w ≤ 1 ∨ w = 32 ∨ w = 64 := fun hf => by
      have := not_and.1 hformat hf
      omega
    exact absurd (hnone.symm.trans (selectKind_of_realizable (by omega) hfl (by omega))) (by simp)
  · refine Option.eq_none_iff_forall_ne_some.2 fun k hk => ?_
    obtain ⟨hw, hrow⟩ := selectKind_eq_some hk
    rcases hrej with hwide | ⟨hf, h2, h32, h64⟩ | ⟨h2, hspan⟩
    · omega
    · rcases hrow with ⟨-, h0⟩ | ⟨-, h1⟩ | ⟨-, hfl, -⟩
      · omega
      · omega
      · have := hfl hf
        omega
    · rcases hrow with ⟨-, h0⟩ | ⟨-, h1⟩ | ⟨-, -, ⟨-, -, hbo⟩ | ⟨-, ⟨-, h32⟩ | ⟨-, -, h64⟩⟩⟩ <;> omega

/-- For a code that is a tag the factory answers by the decision table. -/
theorem factory_eq_none_iff_of_tag {start width : BitVec 32} {tag : BitVec 8} {g : Tag} (hg : tagOfCode tag = some g) :
    factory start width tag = none ↔ selectKind (tagFloat g) (start.toNat % 8) width.toNat = none := by
  unfold factory
  rw [hg]
  cases hk : selectKind (tagFloat g) (start.toNat % 8) width.toNat <;> simp [hk]

/-- R202: the four cases of a shape the factory rejects. -/
theorem factory_eq_none_iff {start width : BitVec 32} {tag : BitVec 8} :
    factory start width tag = none ↔
      (5 < tag.toNat ∨ 64 < width.toNat ∨
        ((tag.toNat = 4 ∨ tag.toNat = 5) ∧ 2 ≤ width.toNat ∧ width.toNat ≠ 32 ∧ width.toNat ≠ 64) ∨
        (2 ≤ width.toNat ∧ 64 < width.toNat + start.toNat % 8)) := by
  cases hg : tagOfCode tag with
  | none =>
    have hnone : factory start width tag = none := by unfold factory; rw [hg]
    exact iff_of_true hnone (.inl (tagOfCode_eq_none_iff.1 hg))
  | some g =>
    have htag : ¬ 5 < tag.toNat := fun hlt => absurd (hg.symm.trans (tagOfCode_eq_none_iff.2 hlt)) (by simp)
    have hfloat : tagFloat g = true ↔ tag.toNat = 4 ∨ tag.toNat = 5 := by
      rw [tagFloat_eq_decide, tagCode_of_tagOfCode hg, decide_eq_true_iff]
    rw [factory_eq_none_iff_of_tag hg, selectKind_eq_none_iff, hfloat, or_iff_right htag]

/-! ### What CFG answers (R140, R152) -/

section
variable {start width : BitVec 32} {tag : BitVec 8}

/-- R152: CFG of a shape the factory rejects changes the response alone. -/
theorem exec_cfg_of_rejected (h : factory start width tag = none) (s : State) :
    exec (.cfg start width tag) s = .next { s with rsp := some ⟨.unsupportedFieldShape, 0⟩ } := by
  rcases execCfg_cases start width tag s with ⟨acc, hacc, -⟩ | ⟨-, hexec⟩
  · exact absurd (h.symm.trans hacc) (by simp)
  · exact hexec

/-- A CFG that loads an accessor answers OK, so a CFG that reports UnsupportedFieldShape was given a rejected shape. -/
theorem factory_eq_none_of_reported {s t : State} (hexec : exec (.cfg start width tag) s = .next t)
    (hrsp : t.rsp = some ⟨.unsupportedFieldShape, 0⟩) : factory start width tag = none := by
  refine Option.eq_none_iff_forall_ne_some.2 fun acc hacc => ?_
  obtain rfl := Host.Outcome.next.inj (hexec.symm.trans (exec_cfg_of_factory hacc s))
  exact absurd hrsp (by simp)

end

/-- Settles O13: CFG reports UnsupportedFieldShape exactly of the shapes the factory rejects, which are the four cases of
R202. -/
theorem cfgRejectsUnrealizableShapes : Obligations.CfgRejectsUnrealizableShapes := by
  intro s start width tag
  refine ⟨?_, fun t hexec hrsp => ?_⟩
  · rw [← factory_eq_none_iff]
    exact ⟨fun hexec => factory_eq_none_of_reported hexec rfl, fun hrej => exec_cfg_of_rejected hrej s⟩
  · have hrej := factory_eq_none_of_reported hexec hrsp
    exact Host.Outcome.next.inj (hexec.symm.trans (exec_cfg_of_rejected hrej s))

end Sys2Proof.Machine
end

section
/-! The errors of a command (60_exceptions.md R202 to R207): CFG reports a rejected shape, RD and WR report what their
checks find, a SWAP reports nothing, and a request that reports an error does so before it looks at memory. -/

namespace Sys2Proof.Machine

/-! ### Which commands report an error -/

section
variable {i : Instr} {s t : State}

/-- The inversion of a command that does not complete: a CFG of a rejected shape, or an access its checks stop. -/
theorem exec_error_cases {q : Response} (hexec : exec i s = .next t) (hrsp : t.rsp = some q) (hq : q.status ≠ .ok) :
    (q.status = .unsupportedFieldShape ∧
      ∃ start width tag, i = .cfg start width tag ∧ factory start width tag = none) ∨
    (∃ base len, (accessOf i = .read base len ∨ accessOf i = .write base len) ∧
      accessError s.acc len = some q.status) := by
  cases effect_of_exec hexec with
  | rejected start width tag hi hf =>
    obtain rfl := Option.some.inj hrsp
    exact .inl ⟨rfl, start, width, tag, hi, hf⟩
  | refused base len st hi he =>
    obtain rfl := Option.some.inj hrsp
    exact .inr ⟨base, len, hi, he⟩
  | loaded | swapped | read | written =>
    obtain rfl := Option.some.inj hrsp
    exact absurd rfl hq

/-- A status that is neither OK nor CFG's own is reported exactly where the checks of an RD or a WR give it. -/
theorem exec_reports_iff {st : Status} (hok : st ≠ .ok) (hcfg : st ≠ .unsupportedFieldShape) :
    (∃ t d, exec i s = .next t ∧ t.rsp = some ⟨st, d⟩) ↔
      ∃ base len, (accessOf i = .read base len ∨ accessOf i = .write base len) ∧ accessError s.acc len = some st := by
  refine ⟨fun ⟨t, d, hexec, hrsp⟩ => ?_, fun ⟨base, len, hi, he⟩ => ⟨_, 0, exec_of_accessError hi he, rfl⟩⟩
  rcases exec_error_cases hexec hrsp hok with ⟨hst, -⟩ | haccess
  · exact absurd hst hcfg
  · exact haccess

end

theorem accessOf_ne_none_iff {i : Instr} :
    accessOf i ≠ .none ↔ ∃ base len, accessOf i = .read base len ∨ accessOf i = .write base len := by
  cases accessOf i <;> simp

/-- R168: the bounds check fails where the field ends beyond the last bit of the buffer. -/
theorem inBounds_eq_false_iff {acc : Acc} {len : BitVec 64} :
    inBounds acc len = false ↔ 8 * len.toNat < acc.start.toNat + acc.width.toNat := by
  unfold inBounds
  rw [decide_eq_false_iff_not, Nat.not_le]

/-- Settles O18: of the errors of the checks, NotConfigured is the one VALID alone decides. -/
theorem unconfiguredAccessReportsNotConfigured : Obligations.UnconfiguredAccessReportsNotConfigured := by
  intro i s
  rw [accessOf_ne_none_iff, exec_reports_iff (by decide) (by decide)]
  simp only [accessError_eq_notConfigured]
  refine ⟨by simp only [exists_and_right], fun ⟨⟨base, len, hi⟩, hv⟩ => ?_⟩
  exact exec_of_accessError hi (accessError_eq_notConfigured.2 hv)

/-- Settles O19: BufferTooSmall is the status of the checks for a valid accessor with a footprint and a field that ends
beyond the buffer. -/
theorem smallBufferReportsBufferTooSmall : Obligations.SmallBufferReportsBufferTooSmall := by
  intro i s
  rw [exec_reports_iff (by decide) (by decide)]
  refine ⟨?_, fun ⟨base, len, hi, he⟩ => exec_of_accessError hi he⟩
  simp only [accessError_eq_bufferTooSmall, inBounds_eq_false_iff]

/-! ### Errors are precise (R207) -/

/-- What stops a command is its operands and ACC, so with any memory it raises the same status and does nothing else. -/
theorem exec_error_any_memory {i : Instr} {s t : State} {q : Response} (hexec : exec i s = .next t)
    (hrsp : t.rsp = some q) (hq : q.status ≠ .ok) (m : Memory) :
    exec i { s with mem := m } = .next (State.raise { s with mem := m } q.status) := by
  rcases exec_error_cases hexec hrsp hq with ⟨hst, start, width, tag, rfl, hf⟩ | ⟨base, len, hi, he⟩
  · rw [hst]
    exact exec_cfg_of_rejected hf _
  · exact exec_of_accessError hi he

/-- A request that reports an error is an illegal word or a command that is stopped. -/
theorem runRequest_error_any_memory {r : Request} {s t : State} {q : Response} (hrun : runRequest r s = .next t)
    (hrsp : t.rsp = some q) (hq : q.status ≠ .ok) (m : Memory) :
    runRequest r { s with mem := m } = .next (State.raise { s with mem := m } q.status) := by
  unfold runRequest at hrun ⊢
  cases hdec : decode r with
  | ok i =>
    rw [hdec] at hrun
    exact exec_error_any_memory hrun hrsp hq m
  | error e =>
    rw [hdec] at hrun
    obtain rfl := Host.Outcome.next.inj hrun
    obtain rfl := Option.some.inj hrsp
    rfl

/-- Settles O21: the request raises its status with any memory, and so with the memory it was presented with. -/
theorem errorsArePrecise : Obligations.ErrorsArePrecise := by
  intro r s t q hrun hrsp hq
  have hany := runRequest_error_any_memory hrun hrsp hq
  exact ⟨Host.Outcome.next.inj (hrun.symm.trans (hany s.mem)), hany⟩

end Sys2Proof.Machine
end

section
/-! The encoder against the decoder (30_encoding.md R60 to R64): a command's request spells the command, the nineteen
words spell a command and no other word does, and what a word spells depends on the ports marked for it alone. -/

namespace Sys2Proof

/-! ### A command's own request -/

theorem encode_cmd (i : Instr) : (encode i).cmd = commandWord i := by
  cases i <;> rfl

/-- The encoder drives the operands to the ports the decoder takes them from. -/
theorem withPorts_encode (i : Instr) : i.withPorts (encode i) = i := by
  cases i <;> rfl

theorem decode_encode (i : Instr) : decode (encode i) = .ok i := by
  rw [decode_of_cmd i (encode_cmd i), withPorts_encode]

/-- The bits of a request are decoded as the request is. -/
theorem decodeTableWord_toBits (r : Request) : decodeTableWord requestBits r.toBits = (decode r).toOption := by
  unfold decodeTableWord requestBits
  rw [Nat.mod_eq_of_lt (toBits_lt r), ofBits_toBits]
  cases decode r <;> rfl

/-- Settles O2: the request can be read back from its bits, and it is decoded to the command. -/
theorem decodeInvertsEncode : Obligations.DecodeInvertsEncode := by
  intro i
  rw [decodeTableWord_toBits, decode_encode]
  rfl

/-! ### The nineteen words -/

/-- Each word of the opcode map is the word of a command. -/
theorem exists_commandWord_of_mem {w : BitVec 32}
    (h : w ∈ ([0x01, 0x10, 0x11, 0x12, 0x13, 0x14, 0x15, 0x16, 0x20, 0x21, 0x22, 0x23, 0x24, 0x25, 0x26,
      0x30, 0x31, 0x32, 0x33] : List (BitVec 32))) : ∃ i, w = commandWord i := by
  simp only [List.mem_cons, List.not_mem_nil, or_false] at h
  rcases h with rfl | rfl | rfl | rfl | rfl | rfl | rfl | rfl | rfl | rfl | rfl | rfl | rfl | rfl | rfl | rfl | rfl |
    rfl | rfl
  exacts [⟨.cfg 0 0 0, rfl⟩, ⟨.rdU64 0 0, rfl⟩, ⟨.rdI64 0 0, rfl⟩, ⟨.rdU32 0 0, rfl⟩, ⟨.rdI32 0 0, rfl⟩,
    ⟨.rdF32 0 0, rfl⟩, ⟨.rdF64 0 0, rfl⟩, ⟨.rdBool 0 0, rfl⟩, ⟨.wrU64 0 0 0, rfl⟩, ⟨.wrI64 0 0 0, rfl⟩,
    ⟨.wrU32 0 0 0, rfl⟩, ⟨.wrI32 0 0 0, rfl⟩, ⟨.wrF32 0 0 0, rfl⟩, ⟨.wrF64 0 0 0, rfl⟩, ⟨.wrBool 0 0 0, rfl⟩,
    ⟨.swap8 0, rfl⟩, ⟨.swap16 0, rfl⟩, ⟨.swap32 0, rfl⟩, ⟨.swap64 0, rfl⟩]

/-- Settles O3: only a command's word decodes, the words of the commands are the nineteen, and each of them does. -/
theorem nineteenWordsAreCommands : Obligations.NineteenWordsAreCommands := by
  intro r
  refine ⟨fun ⟨i, hi⟩ => ?_, fun hmem => ?_⟩
  · rw [cmd_of_decode hi]
    exact Machine.commandWord_mem i
  · obtain ⟨i, hi⟩ := exists_commandWord_of_mem hmem
    exact ⟨_, decode_of_cmd i hi⟩

/-! ### Unmarked ports (R64) -/

/-- The three blocks of words above CFG have no gap. -/
theorem exists_commandWord_of_range {w : BitVec 32} (h : (0x10 ≤ w.toNat ∧ w.toNat ≤ 0x16) ∨
    (0x20 ≤ w.toNat ∧ w.toNat ≤ 0x26) ∨ (0x30 ≤ w.toNat ∧ w.toNat ≤ 0x33)) : ∃ i, w = commandWord i := by
  apply exists_commandWord_of_mem
  rw [show w = BitVec.ofNat 32 w.toNat by simp]
  generalize w.toNat = n at h
  rcases h with ⟨hlo, hhi⟩ | ⟨hlo, hhi⟩ | ⟨hlo, hhi⟩ <;> interval_cases n <;> decide

section
variable {i : Instr} {r r' : Request}

/-- Two requests with a command's word decode alike if the command finds the same operands at the ports it reads. -/
theorem decode_congr (h : r.cmd = commandWord i) (h' : r'.cmd = commandWord i)
    (hports : i.withPorts r' = i.withPorts r) : decode r' = decode r := by
  rw [decode_of_cmd i h, decode_of_cmd i h', hports]

theorem withPorts_of_rdWord (h : 0x10 ≤ (commandWord i).toNat ∧ (commandWord i).toNat ≤ 0x16)
    (hbase : r'.bufBase = r.bufBase) (hlen : r'.bufLen = r.bufLen) : i.withPorts r' = i.withPorts r := by
  cases i with
  | rdU64 | rdI64 | rdU32 | rdI32 | rdF32 | rdF64 | rdBool => simp only [Instr.withPorts, hbase, hlen]
  | _ => simp [commandWord] at h

theorem withPorts_of_wrWord (h : 0x20 ≤ (commandWord i).toNat ∧ (commandWord i).toNat ≤ 0x26)
    (hbase : r'.bufBase = r.bufBase) (hlen : r'.bufLen = r.bufLen) (hdata : r'.wdata = r.wdata) :
    i.withPorts r' = i.withPorts r := by
  cases i with
  | wrU64 | wrI64 | wrU32 | wrI32 | wrF32 | wrF64 | wrBool => simp only [Instr.withPorts, hbase, hlen, hdata]
  | _ => simp [commandWord] at h

theorem withPorts_of_swapWord (h : 0x30 ≤ (commandWord i).toNat ∧ (commandWord i).toNat ≤ 0x33)
    (hdata : r'.wdata = r.wdata) : i.withPorts r' = i.withPorts r := by
  cases i with
  | swap8 | swap16 | swap32 | swap64 => simp only [Instr.withPorts, hdata]
  | _ => simp [commandWord] at h

end

/-- Settles O4: each word is that of a command, and the command finds its operands unchanged. -/
theorem commandsIgnoreUnmarkedPorts : Obligations.CommandsIgnoreUnmarkedPorts := by
  intro r st wi tg ba le wd
  refine ⟨fun hcfg => ?cfg, fun hrd => ?rd, fun hwr => ?wr, fun hswap => ?swap⟩
  case cfg => exact decode_congr (i := .cfg 0 0 0) hcfg hcfg rfl
  case rd =>
    obtain ⟨i, hi⟩ := exists_commandWord_of_range (.inl hrd)
    exact decode_congr hi hi (withPorts_of_rdWord (hi ▸ hrd) rfl rfl)
  case wr =>
    obtain ⟨i, hi⟩ := exists_commandWord_of_range (.inr (.inl hwr))
    exact decode_congr hi hi (withPorts_of_wrWord (hi ▸ hwr) rfl rfl rfl)
  case swap =>
    obtain ⟨i, hi⟩ := exists_commandWord_of_range (.inr (.inr hswap))
    exact decode_congr hi hi (withPorts_of_swapWord (hi ▸ hswap) rfl)

end Sys2Proof
end

section
/-! The response of a command (30_encoding.md R65): every request is answered, and only an RD or a SWAP that completes
answers data. -/

namespace Sys2Proof.Machine

theorem runRequest_of_decode {r : Request} {i : Instr} (h : decode r = .ok i) (s : State) :
    runRequest r s = exec i s := by
  unfold runRequest
  rw [h]

/-- Settles O5: a waiting request is presented, and it runs the command it spells. -/
theorem stepRunsDecodedCommand : Obligations.StepRunsDecodedCommand := by
  intro s r rest i hin hdec
  rw [step_command hin, runRequest_of_decode hdec]

theorem rdWord_of_access {i : Instr} {base : Addr} {len : BitVec 64} (h : accessOf i = .read base len) :
    0x10 ≤ (commandWord i).toNat ∧ (commandWord i).toNat ≤ 0x16 := by
  cases i with
  | rdU64 | rdI64 | rdU32 | rdI32 | rdF32 | rdF64 | rdBool => simp [commandWord]
  | _ => simp [accessOf] at h

theorem swapWord_of_access {i : Instr} (h : accessOf i = .none) (hcfg : ∀ start width tag, i ≠ .cfg start width tag) :
    0x30 ≤ (commandWord i).toNat ∧ (commandWord i).toNat ≤ 0x33 := by
  cases i with
  | cfg start width tag => exact absurd rfl (hcfg start width tag)
  | swap8 | swap16 | swap32 | swap64 => simp [commandWord]
  | _ => simp [accessOf] at h

/-- A command answers, and it answers data only if it completes and is an RD or a SWAP. -/
theorem exec_response {i : Instr} {s t : State} (h : exec i s = .next t) :
    ∃ q, t.rsp = some q ∧ (q.rdata ≠ 0 → q.status = .ok ∧
      ((0x10 ≤ (commandWord i).toNat ∧ (commandWord i).toNat ≤ 0x16) ∨
        (0x30 ≤ (commandWord i).toNat ∧ (commandWord i).toNat ≤ 0x33))) := by
  cases effect_of_exec h with
  | rejected | refused | loaded | written => exact ⟨_, rfl, fun hdata => absurd rfl hdata⟩
  | swapped d hi hcfg => exact ⟨_, rfl, fun _ => ⟨rfl, .inr (swapWord_of_access hi hcfg)⟩⟩
  | read base len adapt hi => exact ⟨_, rfl, fun _ => ⟨rfl, .inl (rdWord_of_access hi)⟩⟩

/-- Settles O7: an illegal word is answered without data, any other as its command answers. -/
theorem everyCommandGetsAResponse : Obligations.EveryCommandGetsAResponse := by
  intro s r rest hin
  rw [step_command hin]
  rcases runRequest_cases r { s with inputs := rest } with ⟨i, t, hdec, hexec, hrun⟩ | ⟨e, -, hrun⟩
  · obtain ⟨q, hq, hdata⟩ := exec_response hexec
    rw [cmd_of_decode hdec]
    exact ⟨t, q, hrun, hq, runRequest_inputs hrun, hdata⟩
  · exact ⟨_, _, hrun, rfl, rfl, fun hdata => absurd rfl hdata⟩

end Sys2Proof.Machine
end

section
/-! What a step keeps (10_state.md R22, 20_memory.md R40, 60_exceptions.md R207): the invariant of the block holds at
reset, every input keeps it, and so does every run. -/

namespace Sys2Proof.Machine

/-! ### Reset and the idle step -/

/-- Settles O52: ACC is not valid after reset, and nothing is listed in memory. -/
theorem invariantHoldsAtReset : Obligations.InvariantHoldsAtReset :=
  ⟨⟨empty_wf, fun hv => absurd hv (by decide), fun _ hq => absurd hq (by simp [State.reset])⟩, rfl, rfl⟩

theorem step_idle {s : State} (h : s.inputs = []) : step s = .next s := by
  unfold step
  rw [h]

/-- Settles O8: with no input `step` answers the state it is given. -/
theorem idleStepChangesNothing : Obligations.IdleStepChangesNothing := fun _ => step_idle

/-- The next input is taken and does what `runInput` says. -/
theorem step_input {s : State} {i : Input} {rest : List Input} (h : s.inputs = i :: rest) :
    step s = runInput i { s with inputs := rest } := by
  unfold step
  rw [h]

/-- Settles O9: reset loads ACC and leaves memory alone. -/
theorem resetClearsValidAndKeepsMemory : Obligations.ResetClearsValidAndKeepsMemory :=
  ⟨rfl, fun _ _ hin => ⟨_, step_input hin, rfl, rfl, rfl⟩⟩

/-- Settles O10: the agent's write is the write of one byte. -/
theorem agentWriteChangesOneByte : Obligations.AgentWriteChangesOneByte := by
  intro s a v rest hin
  exact ⟨_, step_input hin, read_write_same _ _ _, fun b hb => read_write_ne _ _ hb, rfl, rfl, rfl, rfl⟩

/-! ### The invariant -/

section
variable {s : State}

/-- The invariant of a state with other inputs waiting and another canonical memory. -/
theorem BlockInv.with_mem (h : BlockInv s) {m : Memory} (hm : m.wf = true) (inputs : List Input) (draws : Nat) :
    BlockInv { s with mem := m, inputs := inputs, draws := draws } :=
  ⟨hm, h.acc, h.rsp⟩

theorem BlockInv.raise (h : BlockInv s) (st : Status) : BlockInv (s.raise st) :=
  ⟨h.mem, h.acc, fun q hq => by cases hq; simp [Response.clean]⟩

theorem BlockInv.complete (h : BlockInv s) (d : Word) : BlockInv (s.complete d) :=
  ⟨h.mem, h.acc, fun q hq => by cases hq; simp [Response.clean]⟩

theorem BlockInv.resetBlock (h : BlockInv s) : BlockInv s.resetBlock :=
  ⟨h.mem, fun hv => absurd hv (by simp [Acc.reset]), fun _ hq => absurd hq (by simp)⟩

/-- Every command keeps the invariant: CFG loads an accessor as a whole, and a write stores in canonical form. -/
theorem BlockInv.exec (h : BlockInv s) {i : Instr} {t : State} (hexec : exec i s = .next t) : BlockInv t := by
  cases effect_of_exec hexec with
  | rejected | refused => exact h.raise _
  | loaded start width tag acc hi hf =>
    have hload : BlockInv { s with acc := acc } := ⟨h.mem, fun _ => (factory_configured hf).2.2, h.rsp⟩
    exact hload.complete 0
  | swapped d => exact h.complete d
  | read base len adapt hi he => exact (h.with_mem h.mem s.inputs _).complete _
  | written base len v hi he =>
    exact (h.with_mem (naturalWrite_wf h.mem s.draws s.acc base v) s.inputs _).complete 0

theorem BlockInv.runRequest (h : BlockInv s) {r : Request} {t : State} (hrun : runRequest r s = .next t) :
    BlockInv t := by
  rcases runRequest_cases r s with ⟨i, u, -, hexec, hu⟩ | ⟨e, -, hu⟩
  · obtain rfl := Host.Outcome.next.inj (hu.symm.trans hrun)
    exact h.exec hexec
  · obtain rfl := Host.Outcome.next.inj (hu.symm.trans hrun)
    exact h.raise _

/-- Every input keeps the invariant; what another agent writes is stored in canonical form too. -/
theorem BlockInv.runInput (h : BlockInv s) {i : Input} {t : State} (hrun : runInput i s = .next t) : BlockInv t := by
  have hview (others : List (Addr × Byte)) : BlockInv { s with mem := racedView s.draws s.mem others } :=
    h.with_mem (racedView_wf _ others h.mem) s.inputs s.draws
  cases i with
  | command r => exact h.runRequest hrun
  | commandRaced r others =>
    obtain ⟨u, hu⟩ := runRequest_total r { s with mem := racedView s.draws s.mem others }
    have hinv := (hview others).runRequest hu
    obtain rfl := Host.Outcome.next.inj ((runRaced_of_next hu).symm.trans hrun)
    exact hinv.with_mem (settleRace_wf _ _ others hinv.mem) u.inputs _
  | commandCut r others =>
    obtain ⟨u, hu⟩ := runRequest_total r { s with mem := racedView s.draws s.mem others }
    obtain rfl := Host.Outcome.next.inj ((runCut_of_next hu).symm.trans hrun)
    exact (h.with_mem (settleRace_wf _ _ others (cutMemory_wf _ _ h.mem)) s.inputs _).resetBlock
  | reset =>
    obtain rfl := Host.Outcome.next.inj hrun
    exact h.resetBlock
  | agentWrite a v =>
    obtain rfl := Host.Outcome.next.inj hrun
    exact h.with_mem (write_wf a v h.mem) s.inputs s.draws

end

/-- Settles O53: an idle step changes nothing, and every input keeps the invariant. -/
theorem stepKeepsInvariant : Obligations.StepKeepsInvariant := by
  intro s t h hstep
  rcases step_cases hstep with ⟨-, rfl⟩ | ⟨i, rest, -, hrun⟩
  · exact h
  · exact (h.with_mem h.mem rest s.draws).runInput hrun

/-- Settles O54, by induction on the number of steps: each step answers, and keeps the invariant. -/
theorem everyRunIsSafe : Obligations.EveryRunIsSafe := by
  intro s h k
  induction k generalizing s with
  | zero => exact ⟨s, run_zero s, h⟩
  | succ k ih =>
    obtain ⟨t, ht⟩ := step_total s
    rw [run_succ k ht]
    exact ih t (stepKeepsInvariant s t h ht)

end Sys2Proof.Machine
end

section
/-! Races and commands cut short (20_memory.md R52, 70_reset_and_hazards.md R223): the request runs on the raced view of
memory, and then each byte is settled. -/

namespace Sys2Proof.Machine

/-- Settles O12: the race is settled on the memory the request leaves. -/
theorem racedBytesHoldEitherValue : Obligations.RacedBytesHoldEitherValue := by
  intro s r others rest hin hnodup
  obtain ⟨u, hu⟩ := runRequest_total r { s with inputs := rest, mem := racedView s.draws s.mem others }
  refine ⟨racedView s.draws s.mem others, _, u, (step_input hin).trans (runRaced_of_next hu), hu, fun a ha => ?_,
    fun p hp => settleRace_read_of_mem _ _ _ _ hnodup p hp, rfl, rfl, runRequest_inputs hu⟩
  exact ⟨racedView_read_of_notMem _ _ _ ha, settleRace_read_of_notMem _ _ _ _ ha⟩

/-- Settles O11: the race is settled on a memory whose bytes are old or, among those the request had written, new. -/
theorem cutCommandLeavesOldOrNewBytes : Obligations.CutCommandLeavesOldOrNewBytes := by
  intro s r others rest hin hnodup
  obtain ⟨u, hu⟩ := runRequest_total r { s with inputs := rest, mem := racedView s.draws s.mem others }
  refine ⟨racedView s.draws s.mem others, _, u, (step_input hin).trans (runCut_of_next hu), hu,
    fun a ha => racedView_read_of_notMem _ _ _ ha, rfl, rfl, rfl, fun a ha => ?alone, fun p hp => ?raced⟩
  case alone =>
    rw [resetBlock_mem, settleRace_read_of_notMem _ _ _ _ ha, cutMemory_read]
    split
    · next hperf => exact .inr ⟨mem_of_mem_performedWrites hperf, rfl⟩
    · exact .inl rfl
  case raced =>
    rw [resetBlock_mem]
    rcases settleRace_read_of_mem _ _ _ _ hnodup p hp with hagent | ⟨hperf, hblock⟩
    · exact .inl hagent
    · rw [cutMemory_read, if_pos hperf] at hblock
      exact .inr ⟨mem_of_mem_performedWrites hperf, hblock⟩

end Sys2Proof.Machine
end

section
/-! ACC while VALID is 0 (10_state.md R22, R23): no check gets past VALID, so no other field of ACC is looked at. -/

namespace Sys2Proof.Machine

/-- A run answers the same with the accessor `a` in place of that of `s`, but for an ACC that stays not valid. -/
def HidesAcc (run : State → Host.Outcome State Fault Refusal) (s : State) (a : Acc) (t : State) : Prop :=
  ∃ b : Acc, b.valid = t.acc.valid ∧ (t.acc.valid = true → b = t.acc) ∧
    run { s with acc := a } = .next { t with acc := b }

section
variable {run : State → Host.Outcome State Fault Refusal} {s t : State} {a : Acc}

/-- A run that leaves either ACC as it was. -/
theorem HidesAcc.of_kept (hs : t.acc.valid = false) (ha : a.valid = false)
    (h : run { s with acc := a } = .next { t with acc := a }) : HidesAcc run s a t :=
  ⟨a, ha.trans hs.symm, fun hv => absurd (hs.symm.trans hv) (by decide), h⟩

/-- A run that leads to the same state, ACC included. -/
theorem HidesAcc.of_same (h : run { s with acc := a } = .next t) : HidesAcc run s a t :=
  ⟨t.acc, rfl, fun _ => rfl, h⟩

end

/-- A SWAP answers the same in every state. -/
theorem exec_of_swap {i : Instr} (h : accessOf i = .none) (hcfg : ∀ start width tag, i ≠ .cfg start width tag) :
    ∃ d, ∀ s, exec i s = .next (s.complete d) := by
  cases i with
  | cfg start width tag => exact absurd rfl (hcfg start width tag)
  | swap8 | swap16 | swap32 | swap64 => exact ⟨_, fun _ => rfl⟩
  | _ => simp [accessOf] at h

section
variable {s t : State} {a : Acc}

/-- CFG and the swaps do not read ACC, and the checks of an access stop at VALID. -/
theorem exec_hidesAcc {i : Instr} (hs : s.acc.valid = false) (ha : a.valid = false) (h : exec i s = .next t) :
    HidesAcc (exec i) s a t := by
  cases effect_of_exec h with
  | rejected start width tag hi hf =>
    subst hi
    exact .of_kept hs ha (exec_cfg_of_rejected hf _)
  | refused base len st hi he =>
    obtain rfl := Option.some.inj ((accessError_eq_notConfigured.2 hs).symm.trans he)
    exact .of_kept hs ha (exec_of_accessError hi (accessError_eq_notConfigured.2 ha))
  | loaded start width tag acc hi hf =>
    subst hi
    exact .of_same (exec_cfg_of_factory hf _)
  | swapped d hi hcfg =>
    obtain ⟨d', hexec⟩ := exec_of_swap hi hcfg
    rw [← Host.Outcome.next.inj ((hexec s).symm.trans h)]
    exact .of_kept hs ha (hexec _)
  | read base len adapt hi he => exact absurd (hs.symm.trans (accessError_eq_none.1 he).1) (by decide)
  | written base len v hi he => exact absurd (hs.symm.trans (accessError_eq_none.1 he).1) (by decide)

theorem runRequest_hidesAcc {r : Request} (hs : s.acc.valid = false) (ha : a.valid = false)
    (h : runRequest r s = .next t) : HidesAcc (runRequest r) s a t := by
  unfold runRequest at h
  cases hdec : decode r with
  | ok i =>
    rw [hdec] at h
    obtain ⟨b, hb, hsame, hexec⟩ := exec_hidesAcc hs ha h
    exact ⟨b, hb, hsame, (runRequest_of_decode hdec _).trans hexec⟩
  | error e =>
    rw [hdec] at h
    obtain rfl := Host.Outcome.next.inj h
    exact .of_kept hs ha (by unfold runRequest; rw [hdec]; rfl)

/-- A request writes nothing while ACC is not valid. -/
theorem requestWrites_of_invalid (r : Request) (hs : s.acc.valid = false) : requestWrites r s = [] := by
  have herr (len : BitVec 64) : accessError s.acc len ≠ none := by
    rw [accessError_eq_notConfigured.2 hs]
    exact Option.some_ne_none _
  unfold requestWrites writeSet
  cases decode r with
  | error e => rfl
  | ok i =>
    simp only [herr, false_and, if_false]
    cases accessOf i <;> rfl

theorem runInput_hidesAcc {i : Input} (hs : s.acc.valid = false) (ha : a.valid = false)
    (h : runInput i s = .next t) : HidesAcc (runInput i) s a t := by
  have hwrites (r : Request) : requestWrites r { s with acc := a } = requestWrites r s :=
    (requestWrites_of_invalid r ha).trans (requestWrites_of_invalid r hs).symm
  cases i with
  | command r => exact runRequest_hidesAcc hs ha h
  | commandRaced r others =>
    obtain ⟨u, hu⟩ := runRequest_total r { s with mem := racedView s.draws s.mem others }
    obtain rfl := Host.Outcome.next.inj ((runRaced_of_next hu).symm.trans h)
    obtain ⟨b, hb, hsame, hrun⟩ := runRequest_hidesAcc (s := { s with mem := racedView s.draws s.mem others }) hs ha hu
    refine ⟨b, hb, hsame, (runRaced_of_next (s := { s with acc := a }) hrun).trans ?_⟩
    rw [hwrites]
  | commandCut r others =>
    obtain ⟨u, hu⟩ := runRequest_total r { s with mem := racedView s.draws s.mem others }
    obtain rfl := Host.Outcome.next.inj ((runCut_of_next hu).symm.trans h)
    obtain ⟨b, -, -, hrun⟩ := runRequest_hidesAcc (s := { s with mem := racedView s.draws s.mem others }) hs ha hu
    refine .of_same ((runCut_of_next (s := { s with acc := a }) hrun).trans ?_)
    rw [hwrites]
    rfl
  | reset =>
    obtain rfl := Host.Outcome.next.inj h
    exact .of_same rfl
  | agentWrite addr v =>
    obtain rfl := Host.Outcome.next.inj h
    exact .of_kept hs ha rfl

end

/-- Settles O55: with no input either ACC is kept, and every input hides ACC. -/
theorem unspecifiedAccIsNotObservable : Obligations.UnspecifiedAccIsNotObservable := by
  intro s t a hs ha hstep
  rcases step_cases hstep with ⟨hin, rfl⟩ | ⟨i, rest, hin, hrun⟩
  · exact HidesAcc.of_kept (run := step) hs ha (step_idle hin)
  · obtain ⟨b, hb, hsame, hrun'⟩ := runInput_hidesAcc (s := { s with inputs := rest }) hs ha hrun
    exact ⟨b, hb, hsame, (step_input (s := { s with acc := a }) hin).trans hrun'⟩

end Sys2Proof.Machine
end

section
/-! What a command can change (10_state.md R22, R23, 43_access.md R160, R161): CFG loads ACC as a whole, an RD changes
the response and draws at most once, a WR stores through the codec, a SWAP answers and does nothing else. -/

namespace Sys2Proof.Machine

/-! ### CFG -/

/-- R145: the row of the decision table that each codec stands for. -/
theorem selectKind_table {fl : Bool} {bo w : Nat} {k : Kind} (hbo : bo < 8) (h : selectKind fl bo w = some k) :
    (k = .zero ↔ w = 0) ∧ (k = .bit ↔ w = 1) ∧ (k = .aligned ↔ w ∈ [8, 16, 32, 64] ∧ bo = 0) ∧
    (k = .gen32 ↔ 2 ≤ w ∧ w + bo ≤ 32 ∧ ¬ (w ∈ [8, 16, 32, 64] ∧ bo = 0)) ∧
    (k = .gen64 ↔ 32 < w + bo ∧ w + bo ≤ 64 ∧ ¬ (w ∈ [8, 16, 32, 64] ∧ bo = 0)) := by
  simp only [List.mem_cons, List.not_mem_nil, or_false]
  obtain ⟨hw, ⟨rfl, hw0⟩ | ⟨rfl, hw1⟩ | ⟨hw2, -, ⟨rfl, hrow⟩ | ⟨hrow, ⟨rfl, hspan⟩ | ⟨rfl, hspan⟩⟩⟩⟩ :=
    selectKind_eq_some h <;> simp only [reduceCtorEq, true_iff, false_iff] <;> omega

/-- A CFG that completes was given a shape the factory accepts. -/
theorem factory_of_completed {start width : BitVec 32} {tag : BitVec 8} {s t : State} {d : Word}
    (hexec : exec (.cfg start width tag) s = .next t) (hrsp : t.rsp = some ⟨.ok, d⟩) :
    factory start width tag = some t.acc := by
  cases hf : factory start width tag with
  | none =>
    obtain rfl := Host.Outcome.next.inj ((exec_cfg_of_rejected hf s).symm.trans hexec)
    exact absurd hrsp (by simp)
  | some acc =>
    obtain rfl := Host.Outcome.next.inj ((exec_cfg_of_factory hf s).symm.trans hexec)
    rfl

/-- Settles O15: the codec of a shape the factory accepts is that of the decision table. -/
theorem cfgSelectsCodecByTable : Obligations.CfgSelectsCodecByTable := by
  intro s t start width tag d hexec hrsp
  obtain ⟨g, k, -, hk, hacc⟩ := factory_eq_some (factory_of_completed hexec hrsp)
  rw [hacc]
  exact selectKind_table (Nat.mod_lt _ (by omega)) hk

/-- Settles O16: of the forms of a command's next state, only that of a CFG that loads has another ACC. -/
theorem onlyCfgWritesAcc : Obligations.OnlyCfgWritesAcc := by
  intro i s t hexec hne
  cases effect_of_exec hexec with
  | loaded start width tag acc hi hf =>
    obtain ⟨hvalid, hstart, hconf⟩ := factory_configured hf
    exact ⟨start, width, tag, hi, hvalid, hconf, hstart, rfl⟩
  | rejected | refused | swapped | read | written => exact absurd rfl hne

theorem not_cfg_of_access {i : Instr} {base : Addr} {len : BitVec 64}
    (hi : accessOf i = .read base len ∨ accessOf i = .write base len) :
    ¬ ∃ start width tag, i = .cfg start width tag := by
  rintro ⟨start, width, tag, rfl⟩
  simp [accessOf] at hi

/-- Settles O17: a CFG that loads sets VALID, and every other command keeps ACC. -/
theorem validIsSetOnlyByCfg : Obligations.ValidIsSetOnlyByCfg := by
  intro i s t hexec
  cases effect_of_exec hexec with
  | rejected start width tag hi hf => simp
  | refused base len st hi he => simp [not_cfg_of_access hi]
  | loaded start width tag acc hi hf => simp [(factory_configured hf).1, hi]
  | swapped d hi hcfg => simp [hcfg]
  | read base len adapt hi he => simp [not_cfg_of_access (.inl hi)]
  | written base len v hi he => simp [not_cfg_of_access (.inr hi)]

/-! ### Reads, writes and swaps -/

/-- Settles O25: only a WR stores, only a CFG loads ACC, and only the adapter of an RD draws, once. -/
theorem readsAndSwapsWriteNoState : Obligations.ReadsAndSwapsWriteNoState := by
  intro i s t hnowrite hexec
  cases effect_of_exec hexec with
  | rejected | refused | swapped => exact ⟨rfl, rfl, fun _ => rfl, le_rfl, Nat.le_succ _⟩
  | loaded start width tag acc hi hf =>
    exact ⟨rfl, rfl, fun hcfg => absurd hi (hcfg start width tag), le_rfl, Nat.le_succ _⟩
  | read base len adapt hi he =>
    exact ⟨rfl, rfl, fun _ => rfl, Nat.le_add_right _ _, Nat.add_le_add_left (Bool.toNat_le _) _⟩
  | written base len v hi he => exact absurd hi (hnowrite base len)

/-- Every RD command is the read sequence with the command's adapter. -/
theorem exec_of_rd {i : Instr} {base : Addr} {len : BitVec 64} (h : accessOf i = .read base len) :
    ∃ adapt, ∀ s, exec i s = .next (runRead base len adapt s) := by
  cases i with
  | rdU64 | rdI64 | rdU32 | rdI32 | rdF32 | rdF64 | rdBool =>
    obtain ⟨rfl, rfl⟩ := Access.read.inj h
    exact ⟨_, fun _ => rfl⟩
  | _ => simp [accessOf] at h

/-- Every WR command is the write sequence with the command's operand. -/
theorem exec_of_wr {i : Instr} {base : Addr} {len : BitVec 64} (h : accessOf i = .write base len) :
    ∃ o, ∀ s, exec i s = .next (runWrite base len o s) := by
  cases i with
  | wrU64 | wrI64 | wrU32 | wrI32 | wrF32 | wrF64 | wrBool =>
    obtain ⟨rfl, rfl⟩ := Access.write.inj h
    exact ⟨_, fun _ => rfl⟩
  | _ => simp [accessOf] at h

/-- Settles O20: the checks pass, and then both sequences complete. -/
theorem configuredAccessCompletes : Obligations.ConfiguredAccessCompletes := by
  intro i s base len hi hv hfit
  have hcheck : accessError s.acc len = none :=
    accessError_eq_none.2 ⟨hv, hfit.imp_right fun h => by simpa [inBounds] using h⟩
  rcases hi with hrd | hwr
  · obtain ⟨adapt, hexec⟩ := exec_of_rd hrd
    rw [hexec, runRead_of_ok adapt hcheck]
    exact ⟨_, _, rfl, rfl, rfl, rfl, fun _ => rfl, fun hwr => absurd (hrd.symm.trans hwr) (by simp)⟩
  · obtain ⟨o, hexec⟩ := exec_of_wr hwr
    rw [hexec, runWrite_of_ok o hcheck]
    exact ⟨_, _, rfl, rfl, rfl, rfl, fun hrd => absurd (hwr.symm.trans hrd) (by simp), fun _ => rfl⟩

/-- What a SWAP of the low `N` bits puts on the port (R87 to R90). -/
theorem swap_data {N : Nat} (h : swapWidth N) (v : Word) :
    (bswapN N (v.setWidth N)).setWidth 64 = BitVec.ofNat 64 (beInt (leBytes (N / 8) v.toNat)) := by
  apply BitVec.eq_of_toNat_eq
  have hlow := leBytes_mod (N / 8) v.toNat
  rw [swapWidth_bits h] at hlow
  rw [BitVec.toNat_setWidth, BitVec.toNat_ofNat, bswapN_toNat h, BitVec.toNat_setWidth, hlow]

/-- Settles O26: each SWAP command completes with the swap of its width. -/
theorem swapCommandsAnswerSwappedBytes : Obligations.SwapCommandsAnswerSwappedBytes := by
  intro s v
  have hcomplete {d d' : Word} (h : d = d') : State.complete s d = { s with rsp := some ⟨.ok, d'⟩ } := h ▸ rfl
  have hbyte : beInt (leBytes 1 v.toNat) = v.toNat % 2 ^ 8 := by simp [beInt, leBytes]
  have h8 := swap_data (N := 8) (.inl rfl) v
  have h64 := swap_data (N := 64) (.inr (.inr (.inr rfl))) v
  rw [hbyte] at h8
  rw [BitVec.setWidth_eq, BitVec.setWidth_eq] at h64
  exact ⟨congrArg _ (hcomplete h8), congrArg _ (hcomplete (swap_data (.inr (.inl rfl)) v)),
    congrArg _ (hcomplete (swap_data (.inr (.inr (.inl rfl))) v)), congrArg _ (hcomplete h64)⟩

end Sys2Proof.Machine
end

section
/-! The footprint of a command (20_memory.md R46): the bytes outside its write set stay as they were, and those outside
its read set have no part in what it does. -/

namespace Sys2Proof.Machine

section
variable {acc : Acc} {len : BitVec 64} {base : Addr} {i : Instr}

theorem writeSet_of_wr (hi : accessOf i = .write base len) (he : accessError acc len = none) (hk : acc.kind ≠ .zero) :
    writeSet i acc = fieldRange acc base := by
  unfold writeSet
  rw [hi]
  exact if_pos ⟨he, hk⟩

theorem writeSet_of_error {st : Status} (hi : accessOf i = .write base len) (he : accessError acc len = some st) :
    writeSet i acc = [] := by
  unfold writeSet
  rw [hi]
  exact if_neg fun h => absurd (he.symm.trans h.1) (by simp)

theorem writeSet_of_zero (hi : accessOf i = .write base len) (hk : acc.kind = .zero) : writeSet i acc = [] := by
  unfold writeSet
  rw [hi]
  exact if_neg fun h => h.2 hk

theorem writeSet_of_not_wr (hi : ∀ base len, accessOf i ≠ .write base len) : writeSet i acc = [] := by
  unfold writeSet
  cases h : accessOf i with
  | none | read => rfl
  | write base len => exact absurd h (hi base len)

theorem readSet_of_rd (hi : accessOf i = .read base len) (he : accessError acc len = none) (hk : acc.kind ≠ .zero) :
    readSet i acc = fieldRange acc base := by
  unfold readSet
  rw [hi]
  exact if_pos ⟨he, hk⟩

/-- A write that is not aligned reads the bytes it writes. -/
theorem readSet_of_wr (hi : accessOf i = .write base len) (he : accessError acc len = none) (hk : acc.kind ≠ .zero)
    (hal : acc.kind ≠ .aligned) : readSet i acc = fieldRange acc base := by
  unfold readSet
  rw [hi]
  exact if_pos ⟨he, hk, hal⟩

end

/-- Settles O23: a WR on a configured accessor stores in its footprint, and no other command stores. -/
theorem writesStayInWriteSet : Obligations.WritesStayInWriteSet := by
  intro i s t hconf hexec a ha
  cases effect_of_exec hexec with
  | rejected | refused | loaded | swapped | read => rfl
  | written base len v hi he =>
    by_cases hk : s.acc.kind = .zero
    · rw [naturalWrite_of_zero hk]
      rfl
    · rw [writeSet_of_wr hi he hk] at ha
      exact naturalWrite_frame (hconf (accessError_eq_none.1 he).1) _ _ _ _ ha

/-! ### Bytes that play no part -/

/-- Storing the same bytes keeps the agreement of two memories at an address. -/
theorem read_memWrite_agree {m m' : Memory} {a : Addr} (h : m.read a = m'.read a) (addr : Addr) (bs : List Byte) :
    (memWrite m addr bs).read a = (memWrite m' addr bs).read a := by
  induction bs generalizing m m' addr with
  | nil => exact h
  | cons b bs ih => exact ih (by rw [read_write, read_write, h]) _

/-- Where bytes were stored, the memory below does not matter. -/
theorem read_memWrite_of_mem (m m' : Memory) {a addr : Addr} {bs : List Byte} (hlen : bs.length < 2 ^ 64)
    (ha : a ∈ addrRange addr bs.length) : (memWrite m addr bs).read a = (memWrite m' addr bs).read a := by
  have hmem := memRead_memWrite m addr bs hlen
  have hmem' := memRead_memWrite m' addr bs hlen
  rw [memRead_eq_map] at hmem hmem'
  exact List.map_inj_left.1 (hmem.trans hmem'.symm) a ha

section
variable {acc : Acc} {base : Addr} {m m' : Memory}

theorem ConfiguredFacts.fieldRange_bit (h : ConfiguredFacts acc) (hk : acc.kind = .bit) (base : Addr) :
    fieldRange acc base = [fieldAddr acc base] := by
  unfold fieldRange
  rw [(bit_facts h hk).2]
  rfl

theorem genericRead_agree (hmem : ∀ a ∈ fieldRange acc base, m.read a = m'.read a) (W : Nat) :
    genericRead W acc base m = genericRead W acc base m' := by
  unfold genericRead
  rw [memRead_congr hmem]

/-- What a read takes from the buffer depends on its footprint alone. -/
theorem naturalRead_agree (h : ConfiguredFacts acc)
    (hmem : acc.kind ≠ .zero → ∀ a ∈ fieldRange acc base, m.read a = m'.read a) :
    naturalRead acc base m = naturalRead acc base m' := by
  unfold naturalRead
  cases hk : acc.kind with
  | zero => rfl
  | bit =>
    rw [h.fieldRange_bit hk, hk] at hmem
    simp only [bitRead, hmem (by simp) _ (List.mem_singleton.2 rfl)]
  | aligned =>
    rw [hk] at hmem
    have hspan : ∀ a ∈ addrRange (fieldAddr acc base) (acc.width.toNat / 8), m.read a = m'.read a := by
      rw [← (aligned_facts h hk).2.2]
      exact hmem (by simp)
    simp only [alignedRead, memRead_congr hspan]
  | gen32 => exact genericRead_agree (hmem (by simp [hk])) _
  | gen64 => exact genericRead_agree (hmem (by simp [hk])) _

/-- Whether a write draws does not depend on memory. -/
theorem naturalWrite_drew_agree (n : Nat) (acc : Acc) (base : Addr) (m m' : Memory) (o : Operand) :
    (naturalWrite n acc base m o).drew = (naturalWrite n acc base m' o).drew := by
  unfold naturalWrite
  cases acc.kind <;> rfl

theorem genericWrite_agree (hmem : ∀ a ∈ fieldRange acc base, m.read a = m'.read a) (W : Nat) (p : BitVec W) {a : Addr}
    (ha : a ∈ fieldRange acc base) :
    (genericWrite W acc base m p).read a = (genericWrite W acc base m' p).read a := by
  unfold genericWrite
  rw [memRead_congr hmem]
  exact read_memWrite_agree (hmem a ha) _ _

/-- What a write stores in its footprint depends on the footprint alone and, where it is aligned, on no byte. -/
theorem naturalWrite_agree (h : ConfiguredFacts acc) (hzero : acc.kind ≠ .zero)
    (hmem : acc.kind ≠ .aligned → ∀ a ∈ fieldRange acc base, m.read a = m'.read a) (n : Nat) (o : Operand) {a : Addr}
    (ha : a ∈ fieldRange acc base) :
    (naturalWrite n acc base m o).val.read a = (naturalWrite n acc base m' o).val.read a := by
  unfold naturalWrite
  cases hk : acc.kind with
  | zero => exact absurd hk hzero
  | bit =>
    rw [h.fieldRange_bit hk] at hmem ha
    obtain rfl := List.mem_singleton.1 ha
    simp only [drawn_pure_val, bitWrite, read_write_same, hmem (by simp [hk]) _ ha]
  | aligned =>
    have hwidth := h.width
    unfold fieldRange at ha
    rw [(aligned_facts h hk).2.2] at ha
    exact read_memWrite_of_mem m m' (by rw [leBytes_length]; omega) (by rwa [leBytes_length])
  | gen32 => exact genericWrite_agree (hmem (by simp [hk])) _ _ ha
  | gen64 => exact genericWrite_agree (hmem (by simp [hk])) _ _ ha

end

/-- Two next states agree on all but memory, and there on the bytes at the given addresses. -/
def AgreeOn (addrs : List Addr) (t u : State) : Prop :=
  u.rsp = t.rsp ∧ u.acc = t.acc ∧ u.draws = t.draws ∧ u.inputs = t.inputs ∧ ∀ a ∈ addrs, u.mem.read a = t.mem.read a

section
variable {i : Instr} {s : State} {m : Memory} {base : Addr} {len : BitVec 64}

/-- CFG and the swaps do the same with any memory. -/
theorem exec_agree_of_none (hi : accessOf i = .none) (m : Memory) {t : State} (h : exec i s = .next t) :
    ∃ u, exec i { s with mem := m } = .next u ∧ AgreeOn (writeSet i s.acc) t u := by
  rw [writeSet_of_not_wr (fun _ _ hwr => absurd (hi.symm.trans hwr) (by simp))]
  cases effect_of_exec h with
  | rejected start width tag hcfg hf =>
    subst hcfg
    exact ⟨_, exec_cfg_of_rejected hf _, rfl, rfl, rfl, rfl, by simp⟩
  | loaded start width tag acc hcfg hf =>
    subst hcfg
    exact ⟨_, exec_cfg_of_factory hf _, rfl, rfl, rfl, rfl, by simp⟩
  | swapped d _ hcfg =>
    obtain ⟨d', hswap⟩ := exec_of_swap hi hcfg
    rw [← Host.Outcome.next.inj ((hswap s).symm.trans h)]
    exact ⟨_, hswap _, rfl, rfl, rfl, rfl, by simp⟩
  | refused base len st haccess => simp [hi] at haccess
  | read base len adapt haccess => simp [hi] at haccess
  | written base len v haccess => simp [hi] at haccess

/-- An RD answers the same with a memory that agrees on its read set. -/
theorem runRead_agree (hi : accessOf i = .read base len) (hconf : s.acc.valid = true → s.acc.configured = true)
    (hmem : ∀ a ∈ readSet i s.acc, m.read a = s.mem.read a) (adapt : Nat → Natural → Drawn Word) :
    AgreeOn (writeSet i s.acc) (runRead base len adapt s) (runRead base len adapt { s with mem := m }) := by
  rw [writeSet_of_not_wr (fun _ _ hwr => absurd (hi.symm.trans hwr) (by simp))]
  cases he : accessError s.acc len with
  | some st =>
    rw [runRead_of_error adapt he, runRead_of_error (s := { s with mem := m }) adapt he]
    exact ⟨rfl, rfl, rfl, rfl, by simp⟩
  | none =>
    have hread : naturalRead s.acc base m = naturalRead s.acc base s.mem :=
      naturalRead_agree (configured_facts (hconf (accessError_eq_none.1 he).1)) fun hk => readSet_of_rd hi he hk ▸ hmem
    rw [runRead_of_ok adapt he, runRead_of_ok (s := { s with mem := m }) adapt he]
    simp only [hread]
    exact ⟨rfl, rfl, rfl, rfl, by simp⟩

/-- A WR stores the same in its write set with a memory that agrees on its read set. -/
theorem runWrite_agree (hi : accessOf i = .write base len) (hconf : s.acc.valid = true → s.acc.configured = true)
    (hmem : ∀ a ∈ readSet i s.acc, m.read a = s.mem.read a) (o : Operand) :
    AgreeOn (writeSet i s.acc) (runWrite base len o s) (runWrite base len o { s with mem := m }) := by
  cases he : accessError s.acc len with
  | some st =>
    rw [runWrite_of_error o he, runWrite_of_error (s := { s with mem := m }) o he, writeSet_of_error hi he]
    exact ⟨rfl, rfl, rfl, rfl, by simp⟩
  | none =>
    have facts := configured_facts (hconf (accessError_eq_none.1 he).1)
    rw [runWrite_of_ok o he, runWrite_of_ok (s := { s with mem := m }) o he]
    refine ⟨rfl, rfl, ?draws, rfl, ?bytes⟩
    case draws => simp only [complete_draws, spend_draws, naturalWrite_drew_agree s.draws s.acc base m s.mem o]
    case bytes =>
      by_cases hk : s.acc.kind = .zero
      · rw [writeSet_of_zero hi hk]
        simp
      · rw [writeSet_of_wr hi he hk]
        exact fun a ha => naturalWrite_agree facts hk (fun hal => readSet_of_wr hi he hk hal ▸ hmem) s.draws o ha

end

/-- Settles O24: CFG and the swaps take nothing from memory, an RD and a WR what lies in their read set. -/
theorem resultsDependOnlyOnReadSet : Obligations.ResultsDependOnlyOnReadSet := by
  intro i s t m hconf hmem hexec
  cases hi : accessOf i with
  | none => exact exec_agree_of_none hi m hexec
  | read base len =>
    obtain ⟨adapt, hrun⟩ := exec_of_rd hi
    obtain rfl := Host.Outcome.next.inj ((hrun s).symm.trans hexec)
    exact ⟨_, hrun _, runRead_agree hi hconf hmem adapt⟩
  | write base len =>
    obtain ⟨o, hrun⟩ := exec_of_wr hi
    obtain rfl := Host.Outcome.next.inj ((hrun s).symm.trans hexec)
    exact ⟨_, hrun _, runWrite_agree hi hconf hmem o⟩

end Sys2Proof.Machine
end

section
/-! Integer fields (41_codecs.md R107 to R110, R126 to R131): reads answer the closed form of the field, aligned writes
replace it, generic writes OR into it. -/

namespace Sys2Proof.Machine

/-! ### Reads -/

/-- Settles O31: the codec reads the integer of the field, and each RD command adapts that integer. -/
theorem integerReadsAnswerFieldValue : Obligations.IntegerReadsAnswerFieldValue := by
  intro s base len hready hint
  exact integerReads_of_natural hready.access _ (naturalRead_integer hready.facts hint base s.mem)

section
variable {acc : Acc} {base : Addr} {m : Memory}

/-- Bit `i` of the field is bit `BITOFF + i` of the span. -/
theorem fieldRaw_testBit {i : Nat} (hi : i < acc.width.toNat) :
    (fieldRaw acc base m).testBit i = (spanInt acc base m).testBit (acc.bitoff.toNat + i) := by
  unfold fieldRaw
  rw [Nat.testBit_mod_two_pow, Nat.testBit_div_two_pow, Nat.add_comm, decide_eq_true hi, Bool.true_and]

/-- In a little-endian field bit `i` is buffer bit `START + i`. -/
theorem fieldRaw_testBit_le (h : ConfiguredFacts acc)
    (hspan : acc.width.toNat + acc.bitoff.toNat ≤ 8 * acc.nbytes.toNat)
    (hbig : acc.bigend = false) {i : Nat} (hi : i < acc.width.toNat) :
    (fieldRaw acc base m).testBit i = bufferBit m base (acc.start.toNat + i) := by
  have hbyte : (acc.start.toNat + i) / 8 = acc.byteoff.toNat + (acc.bitoff.toNat + i) / 8 := by
    have := h.start_eq
    omega
  have hbit : (acc.start.toNat + i) % 8 = (acc.bitoff.toNat + i) % 8 := by
    have := h.start_eq
    omega
  rw [fieldRaw_testBit hi, spanInt_testBit_le hbig _ (by omega), bufferBit, hbyte, hbit]

end

/-- Settles O32: `RD.U64` answers the field's integer, whose bits are those of the field and then its sign. -/
theorem fieldBitsLieWhereTheTagPutsThem : Obligations.FieldBitsLieWhereTheTagPutsThem := by
  intro s base len hready hint
  obtain ⟨hw2, hw64, hspan, -⟩ := field_in_footprint hready.facts hint.kind
  have hbits (i : Nat) (hi : i < 64) := asInteger_getLsbD (sg := s.acc.signed) (by omega : 1 ≤ s.acc.width.toNat)
    (fieldRaw_lt s.acc base s.mem) hw64 i hi
  refine ⟨BitVec.ofInt 64 (fieldInt s.acc base s.mem),
    integerReadsAnswerFieldValue s base len hready hint (.rdU64 base len, _) (List.mem_cons_self ..),
    fun hbig i hi => ?le, fun hbig i hi => ?be, fun i hi hi64 => ?sign⟩
  case le =>
    rw [fieldInt, hbits i (by omega), if_pos hi, fieldRaw_testBit_le hready.facts hspan hbig hi]
  case be =>
    rw [fieldInt, hbits i (by omega), if_pos hi, fieldRaw_testBit hi, spanInt_testBit_be hbig _ (by omega)]
  case sign =>
    rw [fieldInt, hbits i hi64, if_neg (by omega), hbits (s.acc.width.toNat - 1) (by omega), if_pos (by omega)]

/-! ### Writes -/

section
variable {s : State} {base : Addr} {len : BitVec 64} {v : Word} {p : Instr × Int}

/-- An integer or truth write on an integer accessor stores the pattern of its integer and draws nothing (R165). -/
theorem integerWrite_exec (hready : Ready s len) (hint : IntegerField s.acc) (hp : p ∈ integerWrites base len v) :
    ∃ o, exec p.1 s = .next
        { s with mem := (naturalWrite s.draws s.acc base s.mem o).val, rsp := some ⟨.ok, 0⟩ } ∧
      ∀ W, pattern W s.acc s.draws o = .pure (BitVec.ofInt W p.2) := by
  obtain ⟨o, hexec, hpat⟩ := integerWrites_pattern s.acc hint.float base len v p hp
  have hdrew : (naturalWrite s.draws s.acc base s.mem o).drew = false :=
    naturalWrite_drew hint.kind _ _ _ _ _ fun W => by rw [hpat]; rfl
  refine ⟨o, ?_, fun W => hpat W _⟩
  rw [hexec, runWrite_ready o hready.access, hdrew]
  rfl

/-- Operands with the same patterns are written alike. -/
theorem runWrite_congr_pattern (hready : Ready s len)
    (hk : s.acc.kind = .aligned ∨ s.acc.kind = .gen32 ∨ s.acc.kind = .gen64) {o o' : Operand}
    (h : ∀ W ≤ 64, pattern W s.acc s.draws o = pattern W s.acc s.draws o') :
    runWrite base len o s = runWrite base len o' s := by
  rw [runWrite_of_ok _ hready.access, runWrite_of_ok _ hready.access,
    naturalWrite_congr_pattern (codec_width_le hready.facts hk) hk h]

/-- The low `WIDTH` bits of an integer's pattern in a wider word. -/
theorem pattern_low {acc : Acc} {n : Nat} {o : Operand} {x : Int}
    (hpat : ∀ W, pattern W acc n o = .pure (BitVec.ofInt W x)) :
    ∀ W, acc.width.toNat ≤ W → W ≤ 64 →
      (pattern W acc n o).val.toNat % 2 ^ acc.width.toNat = wrapTo acc.width.toNat x := by
  intro W hW _
  rw [hpat, drawn_pure_val, ofInt_toNat, wrapTo_mod _ _ _ hW]

end

/-- Settles O33: the pattern of `WIDTH` bits is the integer wrapped, and the aligned write stores its bytes. -/
theorem alignedIntegerWriteReplacesBytes : Obligations.AlignedIntegerWriteReplacesBytes := by
  intro s base len v hready hk hfl p hp
  obtain ⟨o, hexec, hpat⟩ := integerWrite_exec hready ⟨.inl hk, hfl⟩ hp
  have hstore : (naturalWrite s.draws s.acc base s.mem o).val =
      alignedWrite s.acc.width.toNat s.acc base s.mem (BitVec.ofInt _ p.2) := by
    unfold naturalWrite
    rw [hk]
    simp only [hpat, drawn_map_val, drawn_pure_val]
  refine ⟨_, hexec, rfl, rfl, rfl, rfl, ?bytes, fun a ha => ?frame⟩
  case bytes =>
    rw [hstore, alignedWrite_bytes hready.facts hk, ofInt_toNat]
  case frame =>
    rw [← (aligned_facts hready.facts hk).2.2] at ha
    exact naturalWrite_frame hready.configured _ _ _ _ ha

/-- Settles O34: the generic write ORs the low bits of the integer's pattern into the span and so into the field. -/
theorem genericIntegerWriteOrsField : Obligations.GenericIntegerWriteOrsField := by
  intro s base len v hready hk hfl p hp
  have hkind : s.acc.kind = .aligned ∨ s.acc.kind = .gen32 ∨ s.acc.kind = .gen64 := .inr hk
  have hne : s.acc.kind ≠ .aligned := by rcases hk with hk | hk <;> simp [hk]
  obtain ⟨o, hexec, hpat⟩ := integerWrite_exec hready ⟨hkind, hfl⟩ hp
  have hspan := naturalWrite_span hready.facts hkind s.draws base s.mem o _ (pattern_low hpat)
  have hfield := naturalWrite_field hready.facts hkind s.draws base s.mem o _ (pattern_low hpat)
  rw [if_neg hne] at hspan hfield
  exact ⟨_, hexec, rfl, rfl, rfl, rfl, hspan, hfield, fun a ha => naturalWrite_frame hready.configured _ _ _ _ ha⟩

/-- Settles O35: a generic write is an OR into the bytes it writes, and no other command stores. -/
theorem genericWriteClearsNoBit : Obligations.GenericWriteClearsNoBit := by
  intro i s t hk hexec a k hbit
  cases effect_of_exec hexec with
  | rejected | refused | loaded | swapped | read => exact hbit
  | written base len v hi he =>
    have hn := s.acc.nbytes.isLt
    rw [complete_mem, spend_mem, naturalWrite_generic hk]
    exact memWrite_or_mono _ _ _ _ (by omega) a k hbit

/-- Settles O36: after the write the field holds the integer wrapped, and each RD answers the field's value. -/
theorem integerFieldRoundTrip : Obligations.IntegerFieldRoundTrip := by
  intro s base len v hready hint hclear p hp
  obtain ⟨o, hexec, hpat⟩ := integerWrite_exec hready hint hp
  have hfield := naturalWrite_field hready.facts hint.kind s.draws base s.mem o _ (pattern_low hpat)
  have hwrapped : fieldRaw s.acc base (naturalWrite s.draws s.acc base s.mem o).val =
      wrapTo s.acc.width.toNat p.2 := by
    rw [hfield]
    rcases hclear with hal | hzero
    · exact if_pos hal
    · rw [hzero, Nat.zero_or, ite_self]
  refine ⟨_, hexec, fun q hq => ?_⟩
  rw [← hwrapped] at hq
  exact integerReadsAnswerFieldValue
    { s with mem := (naturalWrite s.draws s.acc base s.mem o).val, rsp := some ⟨.ok, 0⟩ } base len
    ⟨hready.valid, hready.configured, hready.bounds⟩ hint q hq

/-- Settles O37: the zero codec stores nothing, the bit codec the truth of the data, which the sign does not change, and
the other codecs its low bits. -/
theorem signedAndUnsignedWritesAgree : Obligations.SignedAndUnsignedWritesAgree := by
  intro s base len v hready hfl
  have hU : (.wrU64 base len v, decide (v.toNat ≠ 0)) ∈ truthWrites base len v := .head _
  have hI : (.wrI64 base len v, decide (v.toNat ≠ 0)) ∈ truthWrites base len v := .tail _ (.head _)
  have hbits (hk : s.acc.kind = .aligned ∨ s.acc.kind = .gen32 ∨ s.acc.kind = .gen64) :
      runWrite base len (operandU64 v) s = runWrite base len (operandI64 v) s :=
    runWrite_congr_pattern hready hk fun W hW =>
      (pattern_operandU64 hfl _ v W hW).trans (pattern_operandI64 hfl _ v W hW).symm
  cases hk : s.acc.kind with
  | zero =>
    have hzero := (zeroCodecReadsZeroWritesNothing s base len v hready.valid hk).2
    exact ⟨_, hzero _ hI, hzero _ hU⟩
  | bit =>
    have hbit := truthWrites_bit base len v s hready.access hk
    exact ⟨_, hbit _ hI, hbit _ hU⟩
  | aligned => exact ⟨_, rfl, congrArg _ (hbits (.inl hk))⟩
  | gen32 => exact ⟨_, rfl, congrArg _ (hbits (.inr (.inl hk)))⟩
  | gen64 => exact ⟨_, rfl, congrArg _ (hbits (.inr (.inr hk)))⟩

end Sys2Proof.Machine
end

section
/-! Conversions between floats and integers at an accessor (43_access.md R163, R165, 00_scope.md R15): a float in range
is the integer it truncates to, and any other float is the draw `F2I_INVALID`. -/

namespace Sys2Proof.Machine

section
variable {s : State} {base : Addr} {len : BitVec 64}

/-! ### Writes to an integer field -/

/-- An operand with the patterns of another is written like it, and the draws counted are those of its own patterns. -/
theorem runWrite_of_pattern (hready : Ready s len)
    (hk : s.acc.kind = .aligned ∨ s.acc.kind = .gen32 ∨ s.acc.kind = .gen64) {o o' : Operand} {d : Bool}
    (h : ∀ W ≤ 64, pattern W s.acc s.draws o = ⟨(pattern W s.acc s.draws o').val, d⟩) :
    runWrite base len o s = { runWrite base len o' s with draws := s.draws + d.toNat } := by
  rw [runWrite_ready _ hready.access, runWrite_ready _ hready.access,
    naturalWrite_of_pattern (codec_width_le hready.facts hk) hk h]

/-- The pattern of a float for an integer codec is that of its integer (R165). -/
theorem pattern_float_of_integer {acc : Acc} (hfl : acc.float = false) (W n : Nat) (y : FloatVal) :
    pattern W acc n (.float y) = (f2i n y acc.signed).map (fun x => x.setWidth W) := by
  unfold pattern
  rw [hfl]
  rfl

/-- A float in range is written as the integer it truncates to. -/
theorem runWrite_float_truncates (hready : Ready s len) (hint : IntegerField s.acc) {y : FloatVal} {q : ℚ}
    (hvalue : floatValue y = some q) (hrange : inRange s.acc.signed (towardZero q)) :
    runWrite base len (.float y) s = runWrite base len (operandI64 (BitVec.ofInt 64 (towardZero q))) s := by
  refine runWrite_congr_pattern hready hint.kind fun W hW => ?_
  rw [pattern_float_of_integer hint.float, f2i_ok hvalue hrange, pattern_operandI64 hint.float _ _ W hW]
  rfl

/-- A float without an integer in range is written as the draw, which is counted. -/
theorem runWrite_float_draws (hready : Ready s len) (hint : IntegerField s.acc) {y : FloatVal}
    (hnone : ∀ q, floatValue y = some q → ¬ inRange s.acc.signed (towardZero q)) :
    runWrite base len (.float y) s =
      { runWrite base len (operandU64 (Config.f2iInvalid s.draws y s.acc.signed)) s with draws := s.draws + 1 } := by
  refine runWrite_of_pattern (d := true) hready hint.kind fun W hW => ?_
  rw [pattern_float_of_integer hint.float, f2i_bad hnone, pattern_operandU64 hint.float _ _ W hW]
  rfl

end

/-- Settles O38: `WR.F32` and `WR.F64` write the float at their port. -/
theorem floatWriteToIntegerFieldTruncates : Obligations.FloatWriteToIntegerFieldTruncates := by
  intro s base len v q hready hint
  have hwrite {y : FloatVal} (hvalue : floatValue y = some q) (hrange : inRange s.acc.signed (towardZero q)) :=
    (runWrite_float_truncates (base := base) hready hint hvalue hrange).symm
  exact ⟨fun hvalue hrange => ⟨_, rfl, congrArg _ (hwrite (y := .f32 (v.setWidth 32)) hvalue hrange)⟩,
    fun hvalue hrange => ⟨_, rfl, congrArg _ (hwrite (y := .f64 v) hvalue hrange)⟩⟩

/-- Settles O39: `WR.F32` and `WR.F64` write the float at their port. -/
theorem unconvertibleFloatWriteIsADraw : Obligations.UnconvertibleFloatWriteIsADraw := by
  intro s base len v hready hint
  exact ⟨fun hnone => ⟨_, rfl, congrArg _ (runWrite_float_draws (y := .f32 (v.setWidth 32)) hready hint hnone)⟩,
    fun hnone => ⟨_, rfl, congrArg _ (runWrite_float_draws (y := .f64 v) hready hint hnone)⟩⟩

/-! ### Integer reads of a float field -/

section
variable {s : State} {base : Addr} {len : BitVec 64} {w : Nat}

/-- A read of a float field answers what the adapter makes of the float, and counts the adapter's draw. -/
theorem runRead_float (hready : Ready s len) (hf : FloatField s.acc w) {adapt : Nat → Natural → Drawn Word} {x : Word}
    {drew : Bool} (hadapt : adapt s.draws (.float (fieldFloat s.acc base s.mem)) = ⟨x, drew⟩) :
    runRead base len adapt s = { s with draws := s.draws + drew.toNat, rsp := some ⟨.ok, x⟩ } := by
  rw [runRead_of_ok adapt hready.access, naturalRead_float hready.facts hf, hadapt]
  rfl

end

/-- The low half of a word on the port (R68). -/
theorem setWidth32_eq_ofNat (x : Word) : (x.setWidth 32).setWidth 64 = BitVec.ofNat 64 (x.toNat % 2 ^ 32) := by
  apply BitVec.eq_of_toNat_eq
  simp only [BitVec.toNat_setWidth, BitVec.toNat_ofNat]

/-- Settles O41: the adapters truncate, and those of 32 bits keep the low half. -/
theorem integerReadOfFloatFieldTruncates : Obligations.IntegerReadOfFloatFieldTruncates := by
  intro s base len w q hready hf hvalue
  have h64 {signed : Bool} (hrange : inRange signed (towardZero q)) :
      f2i s.draws (fieldFloat s.acc base s.mem) signed = ⟨BitVec.ofInt 64 (towardZero q), false⟩ := f2i_ok hvalue hrange
  have h32 {signed : Bool} (hrange : inRange signed (towardZero q)) :
      (f2i s.draws (fieldFloat s.acc base s.mem) signed).map (fun x => (x.setWidth 32).setWidth 64) =
        ⟨BitVec.ofNat 64 (wrapTo 32 (towardZero q)), false⟩ := by
    rw [h64 hrange, ← setWidth32_ofInt64]
    rfl
  exact ⟨fun hrange => ⟨congrArg _ (runRead_float (adapt := adaptU64) hready hf (h64 hrange)),
      congrArg _ (runRead_float (adapt := adaptU32) hready hf (h32 hrange))⟩,
    fun hrange => ⟨congrArg _ (runRead_float (adapt := adaptI64) hready hf (h64 hrange)),
      congrArg _ (runRead_float (adapt := adaptI32) hready hf (h32 hrange))⟩⟩

/-- Settles O42: the adapters draw, and those of 32 bits keep the low half of the draw. -/
theorem unconvertibleFloatReadIsADraw : Obligations.UnconvertibleFloatReadIsADraw := by
  intro s base len w hready hf signed hnone
  have h64 : f2i s.draws (fieldFloat s.acc base s.mem) signed =
      ⟨Config.f2iInvalid s.draws (fieldFloat s.acc base s.mem) signed, true⟩ := f2i_bad hnone
  have h32 : (f2i s.draws (fieldFloat s.acc base s.mem) signed).map (fun x => (x.setWidth 32).setWidth 64) =
      ⟨BitVec.ofNat 64 ((Config.f2iInvalid s.draws (fieldFloat s.acc base s.mem) signed).toNat % 2 ^ 32), true⟩ := by
    rw [h64, ← setWidth32_eq_ofNat]
    rfl
  cases signed with
  | true => exact ⟨congrArg _ (runRead_float (adapt := adaptI64) hready hf h64),
      congrArg _ (runRead_float (adapt := adaptI32) hready hf h32)⟩
  | false => exact ⟨congrArg _ (runRead_float (adapt := adaptU64) hready hf h64),
      congrArg _ (runRead_float (adapt := adaptU32) hready hf h32)⟩

end Sys2Proof.Machine
end

section
/-! Float fields (41_codecs.md R108, R125, R131, 43_access.md R163, R166): the own format keeps its bits, the other
format and the integers are converted. -/

namespace Sys2Proof.Machine

/-! ### Reads -/

section
variable {acc : Acc} {base : Addr} {m : Memory}

theorem fieldFloat_32 (hf : FloatField acc 32) :
    fieldFloat acc base m = .f32 (BitVec.ofNat 32 (fieldRaw acc base m)) :=
  if_neg (by rw [hf.width]; decide)

theorem fieldFloat_64 (hf : FloatField acc 64) :
    fieldFloat acc base m = .f64 (BitVec.ofNat 64 (fieldRaw acc base m)) :=
  if_pos hf.width

theorem FloatField.fieldRaw_lt {w : Nat} (hf : FloatField acc w) : fieldRaw acc base m < 2 ^ w :=
  hf.width ▸ Machine.fieldRaw_lt acc base m

end

theorem low_bits_beq_zero {w : Nat} (f : BitVec w) (k : Nat) :
    (f.extractLsb' 0 k == 0) = decide (f.toNat % 2 ^ k = 0) := by
  have hiff : f.extractLsb' 0 k = 0 ↔ f.toNat % 2 ^ k = 0 := by
    rw [← BitVec.toNat_inj]
    simp
  rw [Bool.eq_iff_iff, beq_iff_eq, decide_eq_true_iff, hiff]

theorem fzero_f32 (f : BitVec 32) : fzero (.f32 f) = decide (f.toNat % 2 ^ 31 = 0) := low_bits_beq_zero f 31

theorem fzero_f64 (f : BitVec 64) : fzero (.f64 f) = decide (f.toNat % 2 ^ 63 = 0) := low_bits_beq_zero f 63

/-- Settles O40: the adapter of the own format answers the pattern of the field, that of `RD.BOOL` whether it is a
zero. -/
theorem floatReadInOwnFormatKeepsBits : Obligations.FloatReadInOwnFormatKeepsBits := by
  intro s base len hready
  refine ⟨fun hf => ⟨congrArg _ (runRead_float (adapt := adaptF32) (drew := false) hready hf ?bits32),
      congrArg _ (runRead_float (adapt := adaptBool) (drew := false) hready hf ?bool32)⟩,
    fun hf => ⟨congrArg _ (runRead_float (adapt := adaptF64) (drew := false) hready hf ?bits64),
      congrArg _ (runRead_float (adapt := adaptBool) (drew := false) hready hf ?bool64)⟩⟩
  case bits32 =>
    have hlt := hf.fieldRaw_lt (base := base) (m := s.mem)
    have hpad : (BitVec.ofNat 32 (fieldRaw s.acc base s.mem)).setWidth 64 =
        BitVec.ofNat 64 (fieldRaw s.acc base s.mem) := by
      apply BitVec.eq_of_toNat_eq
      rw [BitVec.toNat_setWidth, BitVec.toNat_ofNat, BitVec.toNat_ofNat, Nat.mod_eq_of_lt hlt]
    rw [fieldFloat_32 hf, adaptF32, hpad]
    rfl
  case bool32 =>
    have hlt := hf.fieldRaw_lt (base := base) (m := s.mem)
    rw [fieldFloat_32 hf, adaptBool, fzero_f32, BitVec.toNat_ofNat, Nat.mod_eq_of_lt hlt]
    simp only [decide_eq_true_iff]
    rfl
  case bits64 =>
    rw [fieldFloat_64 hf]
    rfl
  case bool64 =>
    have hlt := hf.fieldRaw_lt (base := base) (m := s.mem)
    rw [fieldFloat_64 hf, adaptBool, fzero_f64, BitVec.toNat_ofNat, Nat.mod_eq_of_lt hlt]
    simp only [decide_eq_true_iff]
    rfl

/-- Settles O43: the adapters of the other format are `f2f_64` and `f2f_32`. -/
theorem floatReadInOtherFormatConverts : Obligations.FloatReadInOtherFormatConverts := by
  intro s base len hready
  refine ⟨fun f hf hfield => ?widened, fun f hf hfield => ?narrowed⟩
  case widened =>
    obtain ⟨hnum, hnan⟩ := f2f64_spec s.draws f
    have hadapt : adaptF64 s.draws (.float (fieldFloat s.acc base s.mem)) = f2f64 s.draws f := by rw [hfield]; rfl
    refine ⟨(f2f64 s.draws f).val, (f2f64 s.draws f).drew.toNat, congrArg _ (runRead_float hready hf hadapt),
      fun h => ?_, fun h => ?_⟩
    · obtain ⟨hdrew, hvalue, hsign, hnot⟩ := hnum h
      exact ⟨by rw [hdrew]; rfl, hvalue, hsign, hnot⟩
    · obtain ⟨hdrew, hisnan⟩ := hnan h
      exact ⟨by rw [hdrew]; rfl, hisnan⟩
  case narrowed =>
    obtain ⟨hnum, hnan⟩ := f2f32_spec s.draws f
    have hadapt : adaptF32 s.draws (.float (fieldFloat s.acc base s.mem)) =
        (f2f32 s.draws f).map (fun x => x.setWidth 64) := by rw [hfield]; rfl
    refine ⟨(f2f32 s.draws f).val, (f2f32 s.draws f).drew.toNat, congrArg _ (runRead_float hready hf hadapt),
      fun h => ?_, fun h => ?_⟩
    · obtain ⟨hdrew, hsign, hnot, hinf⟩ := hnum h
      exact ⟨by rw [hdrew]; rfl, rfl, hsign, hnot, hinf⟩
    · obtain ⟨hdrew, hisnan⟩ := hnan h
      exact ⟨by rw [hdrew]; rfl, hisnan⟩

/-! ### Writes in the own format -/

/-- The command that writes a float of `w` bits in its own format. -/
def wrFloat (w : Nat) (base : Addr) (len : BitVec 64) (v : Word) : Instr :=
  if w = 64 then .wrF64 base len v else .wrF32 base len v

section
variable {s : State} {base : Addr} {len : BitVec 64} {w : Nat}

/-- A write in the own format places the low `w` bits of the port and draws nothing (R166). -/
theorem wrFloat_exec (hready : Ready s len) (hf : FloatField s.acc w) (v : Word) :
    ∃ o, exec (wrFloat w base len v) s = .next
        { s with mem := (naturalWrite s.draws s.acc base s.mem o).val, rsp := some ⟨.ok, 0⟩ } ∧
      ∀ W, w ≤ W → (pattern W s.acc s.draws o).val.toNat % 2 ^ w = v.toNat % 2 ^ w := by
  obtain ⟨hw, -, -⟩ := float_facts hready.facts hf
  obtain ⟨o, hexec, hpat⟩ : ∃ o, exec (wrFloat w base len v) s = .next (runWrite base len o s) ∧
      ∀ W, pattern W s.acc s.draws o = .pure ((v.setWidth w).setWidth W) := by
    rcases hw with rfl | rfl
    · exact ⟨operandF32 v, rfl, fun W => pattern_float32 hready.facts hf W _ _⟩
    · exact ⟨operandF64 v, rfl, fun W => by rw [pattern_float64 hready.facts hf, BitVec.setWidth_eq]; rfl⟩
  have hdrew : (naturalWrite s.draws s.acc base s.mem o).drew = false :=
    naturalWrite_drew hf.kind _ _ _ _ _ fun W => by rw [hpat]; rfl
  refine ⟨o, ?_, fun W hW => ?_⟩
  · rw [hexec, runWrite_ready o hready.access, hdrew]
    rfl
  · rw [hpat, drawn_pure_val, BitVec.toNat_setWidth, BitVec.toNat_setWidth,
      Nat.mod_mod_of_dvd _ (Nat.pow_dvd_pow 2 hW), Nat.mod_mod]

end

/-- Settles O44: the codec places the bits of the port in the field. -/
theorem floatWriteInOwnFormatPlacesBits : Obligations.FloatWriteInOwnFormatPlacesBits := by
  intro s base len v hready w hf
  obtain ⟨o, hexec, hlow⟩ := wrFloat_exec (base := base) hready hf v
  have hP : ∀ W, s.acc.width.toNat ≤ W → W ≤ 64 →
      (pattern W s.acc s.draws o).val.toNat % 2 ^ s.acc.width.toNat = v.toNat % 2 ^ w := by
    rw [hf.width]
    exact fun W hW _ => hlow W hW
  exact ⟨_, hexec, rfl, rfl, rfl, rfl, naturalWrite_field hready.facts hf.kind _ _ _ _ _ hP,
    naturalWrite_span hready.facts hf.kind _ _ _ _ _ hP, fun a ha => naturalWrite_frame hready.configured _ _ _ _ ha⟩

/-- Settles O47: after the write the field holds the pattern, and the read of the same format answers it. -/
theorem floatFieldRoundTrip : Obligations.FloatFieldRoundTrip := by
  intro s base len v hready hclear
  have hwritten {w : Nat} (hf : FloatField s.acc w) : ∃ t, exec (wrFloat w base len v) s = .next t ∧
      Ready t len ∧ FloatField t.acc w ∧ fieldRaw t.acc base t.mem = v.toNat % 2 ^ w := by
    obtain ⟨t, hexec, hacc, -, -, -, hfield, -, -⟩ := floatWriteInOwnFormatPlacesBits s base len v hready w hf
    refine ⟨t, hexec, ⟨hacc ▸ hready.valid, hacc ▸ hready.configured, hacc ▸ hready.bounds⟩, hacc ▸ hf, ?_⟩
    rw [hacc, hfield]
    rcases hclear with hal | hzero
    · exact if_pos hal
    · rw [hzero, Nat.zero_or, ite_self]
  refine ⟨fun hf => ?_, fun hf => ?_⟩
  · obtain ⟨t, hexec, ht, htf, hraw⟩ := hwritten hf
    have hread := ((floatReadInOwnFormatKeepsBits t base len ht).1 htf).1
    rw [hraw] at hread
    exact ⟨t, hexec, hread⟩
  · obtain ⟨t, hexec, ht, htf, hraw⟩ := hwritten hf
    have hread := ((floatReadInOwnFormatKeepsBits t base len ht).2 htf).1
    rw [hraw, Nat.mod_eq_of_lt v.isLt, BitVec.ofNat_toNat, BitVec.setWidth_eq] at hread
    exact ⟨t, hexec, hread⟩

/-! ### Writes that convert -/

/-- A write that takes an integer or a truth value, with the operand it takes (R67, R164). -/
theorem integerWrites_operand {base : Addr} {len : BitVec 64} {v : Word} {p : Instr × Int}
    (hp : p ∈ integerWrites base len v) :
    ∃ o, (∀ s, exec p.1 s = .next (runWrite base len o s)) ∧
      (o = .int p.2 ∨ ∃ b : Bool, o = .truth b ∧ p.2 = if b then 1 else 0) := by
  simp only [integerWrites, List.mem_cons, List.not_mem_nil, or_false] at hp
  rcases hp with rfl | rfl | rfl | rfl | rfl
  case inl => exact ⟨_, fun _ => rfl, .inl rfl⟩
  case inr.inl =>
    refine ⟨_, fun _ => rfl, .inl (congrArg Operand.int ?_)⟩
    rw [BitVec.toInt_eq_toNat_cond]
    split <;> split <;> omega
  case inr.inr.inl => exact ⟨_, fun _ => rfl, .inl (by simp [operandU32])⟩
  case inr.inr.inr.inl =>
    refine ⟨_, fun _ => rfl, .inl (congrArg Operand.int ?_)⟩
    rw [BitVec.toInt_eq_toNat_cond, BitVec.toNat_setWidth]
    split <;> split <;> omega
  case inr.inr.inr.inr =>
    refine ⟨_, fun _ => rfl, .inr ⟨v.getLsbD 0, rfl, ?_⟩⟩
    have hbit : v.getLsbD 0 = decide (v.toNat % 2 = 1) := by simp [BitVec.getLsbD, Nat.testBit_zero]
    rw [hbit]
    rcases Nat.mod_two_eq_zero_or_one v.toNat with h | h <;> simp [h]

/-- The `F32` pattern of an integer or truth write is that of its integer; for false that takes `i2f_32(0)` to be +0. -/
theorem floatPattern32_of_integer (n : Nat) {o : Operand} {x : Int}
    (ho : o = .int x ∨ ∃ b : Bool, o = .truth b ∧ x = if b then 1 else 0) : floatPattern32 n o = .pure (i2f32 x) := by
  rcases ho with rfl | ⟨b, rfl, rfl⟩
  · rfl
  · have h0 : i2f32 0 = 0 := by decide
    have h1 : i2f32 1 = 0x3F800000 := by decide
    cases b
    · exact congrArg Drawn.pure h0.symm
    · exact congrArg Drawn.pure h1.symm

/-- The `F64` pattern of an integer or truth write, as for `F32`. -/
theorem floatPattern64_of_integer (n : Nat) {o : Operand} {x : Int}
    (ho : o = .int x ∨ ∃ b : Bool, o = .truth b ∧ x = if b then 1 else 0) : floatPattern64 n o = .pure (i2f64 x) := by
  rcases ho with rfl | ⟨b, rfl, rfl⟩
  · rfl
  · have h0 : i2f64 0 = 0 := by decide
    have h1 : i2f64 1 = 0x3FF0000000000000 := by decide
    cases b
    · exact congrArg Drawn.pure h0.symm
    · exact congrArg Drawn.pure h1.symm

/-- `WR.F32` takes the float whose pattern stands zero-extended on the port. -/
theorem operandF32_setWidth (f : BitVec 32) : operandF32 (f.setWidth 64) = .float (.f32 f) := by
  have hlow : (f.setWidth 64).setWidth 32 = f := by simp
  rw [operandF32, hlow]

/-- Settles O45: the integer and its conversion have the same pattern. -/
theorem integerWriteToFloatFieldConverts : Obligations.IntegerWriteToFloatFieldConverts := by
  intro s base len v hready p hp
  obtain ⟨o, hexec, ho⟩ := integerWrites_operand hp
  refine ⟨fun hf => ⟨_, hexec s, congrArg _ (runWrite_congr_pattern hready hf.kind fun W _ => ?f32)⟩,
    fun hf => ⟨_, hexec s, congrArg _ (runWrite_congr_pattern hready hf.kind fun W _ => ?f64)⟩⟩
  case f32 =>
    rw [BitVec.ofNat_toNat, operandF32_setWidth, pattern_float32 hready.facts hf, pattern_float32 hready.facts hf,
      floatPattern32_of_integer _ ho]
    rfl
  case f64 =>
    rw [pattern_float64 hready.facts hf, pattern_float64 hready.facts hf, floatPattern64_of_integer _ ho]
    rfl

/-- Settles O46: the float and its conversion have the same pattern, and the conversion of a NaN draws. -/
theorem floatWriteInOtherFormatConverts : Obligations.FloatWriteInOtherFormatConverts := by
  intro s base len v hready
  refine ⟨fun hf => ?narrowed, fun hf => ?widened⟩
  case narrowed =>
    obtain ⟨hnum, hnan⟩ := f2f32_spec s.draws v
    refine ⟨(f2f32 s.draws v).val, (f2f32 s.draws v).drew.toNat, _, fun h => ?_, fun h => ?_, rfl,
      congrArg _ (runWrite_of_pattern hready hf.kind fun W _ => ?_)⟩
    · obtain ⟨hdrew, hisnan⟩ := hnan h
      exact ⟨hisnan, by rw [hdrew]; rfl⟩
    · exact ⟨rfl, by rw [(hnum h).1]; rfl⟩
    · rw [operandF32_setWidth, pattern_float32 hready.facts hf, pattern_float32 hready.facts hf]
      rfl
  case widened =>
    obtain ⟨hnum, hnan⟩ := f2f64_spec s.draws (v.setWidth 32)
    refine ⟨(f2f64 s.draws (v.setWidth 32)).val, (f2f64 s.draws (v.setWidth 32)).drew.toNat, _, fun h => ?_,
      fun h => ?_, rfl, congrArg _ (runWrite_of_pattern hready hf.kind fun W _ => ?_)⟩
    · obtain ⟨hdrew, hisnan⟩ := hnan h
      exact ⟨hisnan, by rw [hdrew]; rfl⟩
    · obtain ⟨hdrew, hvalue, hsign, hnot⟩ := hnum h
      exact ⟨hvalue, hsign, hnot, by rw [hdrew]; rfl⟩
    · rw [pattern_float64 hready.facts hf, pattern_float64 hready.facts hf]
      rfl

end Sys2Proof.Machine
end

section
/-! The conversion primitives (00_scope.md R15): integers and narrowed floats are rounded to nearest, ties to even, and
narrowing undoes widening. -/

namespace Sys2Proof.Machine

/-! ### Integers -/

theorem natAbs_lt_of_abs_lt {x : ℤ} (hx : |x| < 2 ^ 64) : (x.natAbs : ℚ) * 2 ^ (0 : ℤ) < 2 ^ 64 := by
  have hlt : (x.natAbs : ℤ) < 2 ^ 64 := by rwa [Int.natCast_natAbs]
  rw [zpow_zero, mul_one]
  exact_mod_cast hlt

/-- Settles O48: an integer of 64 bits is far below the overflow threshold, so packing rounds it. -/
theorem integerToF32RoundsToNearestEven : Obligations.IntegerToF32RoundsToNearestEven := by
  intro x hx
  have hfin : x.natAbs ≠ 0 → rawFields 8 23 x.natAbs 0 < 255 * 2 ^ 23 := fun hne =>
    (rawFields_lt_inf32 hne).2 ((natAbs_lt_of_abs_lt hx).trans (by norm_num))
  have hnear := pack32_nearest (decide (x < 0)) x.natAbs 0 hfin
  rwa [sgn_int] at hnear

theorem two_pow_64_lt_overflow64 : (2 : ℚ) ^ 64 < 2 ^ 1024 - 2 ^ 970 := by
  have hle : (2 : ℚ) ^ 64 ≤ 2 ^ 970 := pow_le_pow_right₀ (by norm_num) (by norm_num)
  have hsplit : (2 : ℚ) ^ 1024 = 2 ^ 54 * 2 ^ 970 := by rw [← pow_add]
  have hpos : (0 : ℚ) < 2 ^ 970 := by positivity
  rw [hsplit]
  generalize (2 : ℚ) ^ 970 = y at hle hpos ⊢
  linarith

/-- Settles O49, as O48 in the wider format. -/
theorem integerToF64RoundsToNearestEven : Obligations.IntegerToF64RoundsToNearestEven := by
  intro x hx
  have hfin : x.natAbs ≠ 0 → rawFields 11 52 x.natAbs 0 < 2047 * 2 ^ 52 := fun hne =>
    (rawFields_lt_inf64 hne).2 ((natAbs_lt_of_abs_lt hx).trans two_pow_64_lt_overflow64)
  have hnear := pack64_nearest (decide (x < 0)) x.natAbs 0 hfin
  rwa [sgn_int] at hnear

/-! ### Narrowing -/

theorem f2f32_of_finite (n : Nat) {f : BitVec 64} {neg : Bool} {m : Nat} {e : Int}
    (h : classify64 f = .finite neg m e) : f2f32 n f = .pure (pack32 neg m e) := by
  unfold f2f32
  rw [h]

/-- Settles O50: narrowing packs the value once, which rounds it below the threshold and overflows from there on. -/
theorem narrowingRoundsToNearestEven : Obligations.NarrowingRoundsToNearestEven := by
  intro n f x hx
  obtain ⟨neg, m, e, hclass, rfl, hsign⟩ := classify_of_value64 hx
  have hmag : |signOf neg * ((m : ℚ) * 2 ^ e)| = m * 2 ^ e := abs_sgn neg _ (by positivity)
  rw [f2f32_of_finite n hclass, hmag, hsign]
  refine ⟨rfl, fun hover => ?overflow, fun hlt => ?near⟩
  case overflow =>
    have hm : m ≠ 0 := by
      rintro rfl
      norm_num at hover
    have hraw : 255 * 2 ^ 23 ≤ rawFields 8 23 m e :=
      not_lt.1 fun hlt => absurd ((rawFields_lt_inf32 hm).1 hlt) (not_lt.2 hover)
    rw [drawn_pure_val, pack32_inf hm hraw]
    cases neg <;> rfl
  case near => exact pack32_nearest neg m e fun hm => (rawFields_lt_inf32 hm).2 hlt

/-- The magnitude of a finite `F32` is below the overflow threshold. -/
theorem f32Value_abs_lt {f : BitVec 32} {x : ℚ} (h : f32Value f = some x) : |x| < 2 ^ 128 - 2 ^ 103 := by
  obtain ⟨neg, m, e, hclass, rfl, -⟩ := classify_of_value32 h
  obtain ⟨hm, -, he⟩ := classify32_bounds hclass
  rw [abs_sgn neg _ (by positivity)]
  exact finite32_lt hm he

/-- Narrowing a value that `F32` can represent is exact. -/
theorem f2f32_exact (n : Nat) {d : BitVec 64} {f : BitVec 32} {x : ℚ} (hd : f64Value d = some x)
    (hf : f32Value f = some x) : f32Value (f2f32 n d).val = some x := by
  obtain ⟨q, hq, hnear⟩ := (narrowingRoundsToNearestEven n d x hd).2.2 (f32Value_abs_lt hf)
  have hzero : |q - x| ≤ 0 := by simpa using (hnear f x hf).1
  rw [hq, sub_eq_zero.1 (abs_nonpos_iff.1 hzero)]

theorem f2f64_of_inf (k : Nat) {f : BitVec 32} {neg : Bool} (h : classify32 f = .inf neg) :
    f2f64 k f = .pure (inf64 neg) := by
  unfold f2f64
  rw [h]

theorem f2f32_of_inf (n : Nat) {d : BitVec 64} {neg : Bool} (h : classify64 d = .inf neg) :
    f2f32 n d = .pure (inf32 neg) := by
  unfold f2f32
  rw [h]

/-- Settles O51: an infinity goes to the infinity of its sign and back; a finite value is kept both ways, with its sign,
and a finite pattern is fixed by the two. -/
theorem narrowingUndoesWidening : Obligations.NarrowingUndoesWidening := by
  intro n k f hnan
  cases hclass : classify32 f with
  | nan => exact absurd ((isNan32_iff f).2 hclass) hnan
  | inf neg =>
    rw [f2f64_of_inf k hclass, drawn_pure_val, f2f32_of_inf n (classify_inf64 neg)]
    exact (classify32_inf hclass).symm
  | finite neg m e =>
    obtain ⟨-, hvalue, hsign, hnot⟩ := (f2f64_spec k f).1 hnan
    obtain ⟨-, hsign', -, -⟩ := (f2f32_spec n (f2f64 k f).val).1 hnot
    obtain ⟨x, hx⟩ : ∃ x, f32Value f = some x := by
      rw [value_classify32, hclass]
      exact ⟨_, rfl⟩
    exact f32Value_inj (f2f32_exact n (hvalue.trans hx) hx) hx (hsign'.trans hsign)

end Sys2Proof.Machine
end
